-- ==== Sys2Proof/Word.lean ====
section
/-! DEFINITION. The word types of the machine and the plainest arithmetic on them: slices of a value in the
spec's notation `v[hi:lo]` (00_scope.md R10) and truncation to an address size. -/

namespace Sys2Proof

/-- One byte (20_memory.md R72). -/
abbrev Byte := BitVec 8

/-- A 64-bit word: a general register, `rip`, an address (10_state.md R30, R33). -/
abbrev Word := BitVec 64

/-- A full vector register, `MAXVL = 512` bits (10_state.md R20, 00_scope.md R8). -/
abbrev Zmm := BitVec 512

/-- Extend a 32-bit value with zeros to a word, `zext_64` (00_scope.md R13). -/
def zext64 (v : BitVec 32) : Word := v.setWidth 64

/-- Keep the low 32 bits of a word and zero the others: the truncation to the 32-bit address size
(30_encoding.md R103). -/
def low32 (v : Word) : Word := (v.setWidth 32).setWidth 64

end Sys2Proof
end

