-- ==== Sys2Proof/Config.lean ====
section
/-! DEFINITION. What an implementation fixes (the parameters of 00_scope.md R9 the spec gives a value for) and
the one value the spec leaves open. `MAXVL = 512` is the width in `Zmm` (assumption log 7). -/

namespace Sys2Proof

/-- `LAW`, the width of a linear address for the canonical test: 48 (20_memory.md R58, U17). -/
def Config.law : Nat := 48

/-- The longest instruction the processor accepts, in bytes (30_encoding.md R80, R109). -/
def Config.maxInstrBytes : Nat := 15

/-- FREE VALUE (assumption log 9): of the faults that the pieces of one memory operand would report, the number of the one
that is reported, modulo how many there are. 20_memory.md R61 leaves it to `Translate`, which is a function of the memory
contents, the translation state and its arguments (R57). -/
opaque Config.reportedFault {τ : Type} (translation : τ) (mem : List (Nat × Byte)) (cpl : BitVec 2) (addr : Word)
    (bytes : Nat) : Nat

end Sys2Proof
end

