-- ==== Sys2Proof/Syntax.lean ====
section
/-! DEFINITION. The instructions as syntax: one constructor of `Instr` per row of opcode_table.json
(30_encoding.md R127), with operands already pulled out of the bytes. Nothing here has a meaning. -/

namespace Sys2Proof

/-- The operating mode (10_state.md R41, 00_scope.md R9). The byte-level model admits `mode64` and `mode32`; the
others are named so that they can be refused (R7) and so that the #UD rules that mention them (R203, R213) can
be said. -/
inductive Mode where
  | mode64
  | mode32
  | realAddress
  | virtual8086
  | systemManagement
  deriving DecidableEq, Repr

/-- Mode64 and Mode32, the modes the spec admits (00_scope.md R9). -/
def Mode.admitted : Mode → Bool
  | .mode64 => true
  | .mode32 => true
  | .realAddress => false
  | .virtual8086 => false
  | .systemManagement => false

/-- The segment registers (30_encoding.md R82). -/
inductive Seg where
  | es
  | cs
  | ss
  | ds
  | fs
  | gs
  deriving DecidableEq, Repr

/-- The legacy prefixes of 30_encoding.md R82 that an admitted spelling may carry: at most one segment override
and at most one address-size prefix 67H. -/
structure Prefixes where
  seg : Option Seg
  addrSize : Bool
  deriving DecidableEq, Repr

/-- The displacement of a memory operand as encoded: absent (`mod = 00`), 8 bits (`01`) or 32 bits (`10`)
(30_encoding.md R103, R104). -/
inductive Disp where
  | absent
  | disp8 (d : BitVec 8)
  | disp32 (d : BitVec 32)
  deriving DecidableEq, Repr

/-- The memory forms of the ModRM and SIB bytes at 32- or 64-bit address size (30_encoding.md R103, R107). A base
or index is the 4-bit register number with its extension bit. -/
inductive MemForm where
  /-- ModRM with `r/m` other than 100, and other than 101 when `mod = 00`: `regN(b)` plus displacement. -/
  | base (b : BitVec 4) (d : Disp)
  /-- SIB with a base register. Index number 4 means no index. -/
  | sib (scale : BitVec 2) (index b : BitVec 4) (d : Disp)
  /-- SIB with `mod = 00` and base 101: no base register, a 32-bit displacement. -/
  | sibNoBase (scale : BitVec 2) (index : BitVec 4) (d : BitVec 32)
  /-- `mod = 00, r/m = 101`: RIP-relative in Mode64, absolute in Mode32. -/
  | dispOnly (d : BitVec 32)
  deriving DecidableEq, Repr

/-- The `ModRM:r/m` operand of the legacy and VEX forms: a vector register 0 to 15, or memory
(30_encoding.md R84, R85). -/
inductive RegMem where
  | reg (r : BitVec 4)
  | mem (m : MemForm)
  deriving DecidableEq, Repr

/-- The `ModRM:r/m` operand of the EVEX forms: a vector register 0 to 31, a full memory operand (`EVEX.b = 0`) or a
broadcast 32-bit memory operand (`EVEX.b = 1`) (30_encoding.md R86, R99). -/
inductive RegMemBcst where
  | reg (r : BitVec 5)
  | mem (m : MemForm)
  | bcst (m : MemForm)
  deriving DecidableEq, Repr

/-- The six forms of the instruction (00_scope.md R1). -/
inductive Form where
  | sse
  | vex128
  | vex256
  | evex128
  | evex256
  | evex512
  deriving DecidableEq, Repr

/-- `VL`, the vector length of a form in bits (00_scope.md R9). -/
def Form.vl : Form → Nat
  | .sse => 128
  | .vex128 => 128
  | .vex256 => 256
  | .evex128 => 128
  | .evex256 => 256
  | .evex512 => 512

/-- `KL = VL/32`, the number of 32-bit elements (00_scope.md R9). -/
def Form.kl (f : Form) : Nat := f.vl / 32

/-- The number of 128-bit lanes, `VL/128` (40_shufps_sse.md R132). -/
def Form.lanes (f : Form) : Nat := f.vl / 128

/-- The instructions, one constructor per row of opcode_table.json. `imm8` is the last operand of each (30_encoding.md
R110). `rex` is the REX byte's presence and its ignored `W` bit (R88); `w` is the ignored `VEX.W` (R90); `aaa` and `z` are
the writemask fields (R100). -/
inductive Instr where
  /-- `SHUFPS xmm1, xmm2/m128, imm8`, row 1 (R135). -/
  | shufps (p : Prefixes) (rex : Option Bool) (dst : BitVec 4) (src2 : RegMem) (imm8 : BitVec 8)
  /-- `VSHUFPS xmm1, xmm2, xmm3/m128, imm8`, two-byte VEX (R150, R91). -/
  | vshufpsVex128C5 (p : Prefixes) (dst src1 : BitVec 4) (src2 : RegMem) (imm8 : BitVec 8)
  /-- `VSHUFPS xmm1, xmm2, xmm3/m128, imm8`, three-byte VEX (R150, R92). -/
  | vshufpsVex128C4 (p : Prefixes) (w : Bool) (dst src1 : BitVec 4) (src2 : RegMem) (imm8 : BitVec 8)
  /-- `VSHUFPS ymm1, ymm2, ymm3/m256, imm8`, two-byte VEX (R151, R91). -/
  | vshufpsVex256C5 (p : Prefixes) (dst src1 : BitVec 4) (src2 : RegMem) (imm8 : BitVec 8)
  /-- `VSHUFPS ymm1, ymm2, ymm3/m256, imm8`, three-byte VEX (R151, R92). -/
  | vshufpsVex256C4 (p : Prefixes) (w : Bool) (dst src1 : BitVec 4) (src2 : RegMem) (imm8 : BitVec 8)
  /-- `VSHUFPS xmm1 with k1 and z, xmm2, xmm3/m128/m32bcst, imm8`, EVEX (R175). -/
  | vshufpsEvex128 (p : Prefixes) (dst src1 : BitVec 5) (src2 : RegMemBcst) (aaa : BitVec 3) (z : Bool) (imm8 : BitVec 8)
  /-- `VSHUFPS ymm1 with k1 and z, ymm2, ymm3/m256/m32bcst, imm8`, EVEX (R176). -/
  | vshufpsEvex256 (p : Prefixes) (dst src1 : BitVec 5) (src2 : RegMemBcst) (aaa : BitVec 3) (z : Bool) (imm8 : BitVec 8)
  /-- `VSHUFPS zmm1 with k1 and z, zmm2, zmm3/m512/m32bcst, imm8`, EVEX (R177). -/
  | vshufpsEvex512 (p : Prefixes) (dst src1 : BitVec 5) (src2 : RegMemBcst) (aaa : BitVec 3) (z : Bool) (imm8 : BitVec 8)
  deriving DecidableEq, Repr

/-- The form of an instruction (30_encoding.md R127). -/
def Instr.form : Instr → Form
  | .shufps .. => .sse
  | .vshufpsVex128C5 .. => .vex128
  | .vshufpsVex128C4 .. => .vex128
  | .vshufpsVex256C5 .. => .vex256
  | .vshufpsVex256C4 .. => .vex256
  | .vshufpsEvex128 .. => .evex128
  | .vshufpsEvex256 .. => .evex256
  | .vshufpsEvex512 .. => .evex512

end Sys2Proof
end

