-- ==== Sys2Proof/WellFormed.lean ====
section
/-! DEFINITION. Which terms of `Instr` are instructions that some bytes of an operating mode spell: the register
numbers the encoding and the mode can name (10_state.md R22, R30), the ModRM and SIB escapes (30_encoding.md R103, R107) and
the `z` without `aaa` rule (R100). -/

namespace Sys2Proof

/-- A 4-bit register number that needs no extension bit. -/
def isLow4 (r : BitVec 4) : Bool := r.toNat < 8

/-- A 5-bit register number that needs no extension bit. -/
def isLow5 (r : BitVec 5) : Bool := r.toNat < 8

/-- The three ModRM or SIB bits of a register number (30_encoding.md R103: the tests look at these bits only). -/
def low3 (r : BitVec 4) : BitVec 3 := r.setWidth 3

/-- The address-size prefix exists only in Mode64 in the admitted subset (30_encoding.md R82). -/
def Prefixes.wf (m : Mode) (p : Prefixes) : Bool := decide (m = .mode64) || !p.addrSize

/-- A base number with this displacement is encodable: 100 is the SIB escape and 101 without a displacement is the
disp32 escape (30_encoding.md R103). -/
def MemForm.wf : MemForm → Bool
  | .base b d => low3 b != 4#3 && (d != .absent || low3 b != 5#3)
  | .sib _ _ b d => d != .absent || low3 b != 5#3
  | .sibNoBase .. => true
  | .dispOnly _ => true

/-- Every register number of the memory form needs no extension bit. -/
def MemForm.isLow : MemForm → Bool
  | .base b _ => isLow4 b
  | .sib _ i b _ => isLow4 i && isLow4 b
  | .sibNoBase _ i _ => isLow4 i
  | .dispOnly _ => true

/-- Every register number of the operand needs no extension bit. -/
def RegMem.isLow : RegMem → Bool
  | .reg r => isLow4 r
  | .mem m => m.isLow

/-- The operand's memory form is encodable. -/
def RegMem.wf : RegMem → Bool
  | .reg _ => true
  | .mem m => m.wf

/-- Every register number of the operand needs no extension bit. -/
def RegMemBcst.isLow : RegMemBcst → Bool
  | .reg r => isLow5 r
  | .mem m => m.isLow
  | .bcst m => m.isLow

/-- The operand's memory form is encodable. -/
def RegMemBcst.wf : RegMemBcst → Bool
  | .reg _ => true
  | .mem m => m.wf
  | .bcst m => m.wf

/-- What is asked of the legacy form: without a REX byte every register number is 0 to 7, and REX exists only in
Mode64 (30_encoding.md R87, R88). -/
def wfLegacy (m : Mode) (p : Prefixes) (rex : Option Bool) (dst : BitVec 4) (src2 : RegMem) : Bool :=
  p.wf m && src2.wf &&
    (match rex with
     | none => isLow4 dst && src2.isLow
     | some _ => decide (m = .mode64))

/-- What is asked of a two-byte VEX form: no X or B extension; in Mode32 registers 0 to 7 only
(30_encoding.md R91, R94, R95). -/
def wfVexC5 (m : Mode) (p : Prefixes) (dst src1 : BitVec 4) (src2 : RegMem) : Bool :=
  p.wf m && src2.wf && src2.isLow && (decide (m = .mode64) || (isLow4 dst && isLow4 src1))

/-- What is asked of a three-byte VEX form: in Mode32 registers 0 to 7 only (30_encoding.md R94, R95). -/
def wfVexC4 (m : Mode) (p : Prefixes) (dst src1 : BitVec 4) (src2 : RegMem) : Bool :=
  p.wf m && src2.wf && (decide (m = .mode64) || (isLow4 dst && isLow4 src1 && src2.isLow))

/-- What is asked of an EVEX form: `z` only with a writemask (30_encoding.md R100); in Mode32 registers 0 to 7 only
(R102). -/
def wfEvex (m : Mode) (p : Prefixes) (dst src1 : BitVec 5) (src2 : RegMemBcst) (aaa : BitVec 3) (z : Bool) : Bool :=
  p.wf m && src2.wf && (!z || aaa != 0#3) && (decide (m = .mode64) || (isLow5 dst && isLow5 src1 && src2.isLow))

/-- The instruction is one that bytes of mode `m` can spell. Only Mode64 and Mode32 have instructions
(00_scope.md R9). -/
def Instr.wf (m : Mode) : Instr → Bool
  | .shufps p rex dst src2 _ => m.admitted && wfLegacy m p rex dst src2
  | .vshufpsVex128C5 p dst src1 src2 _ => m.admitted && wfVexC5 m p dst src1 src2
  | .vshufpsVex128C4 p _ dst src1 src2 _ => m.admitted && wfVexC4 m p dst src1 src2
  | .vshufpsVex256C5 p dst src1 src2 _ => m.admitted && wfVexC5 m p dst src1 src2
  | .vshufpsVex256C4 p _ dst src1 src2 _ => m.admitted && wfVexC4 m p dst src1 src2
  | .vshufpsEvex128 p dst src1 src2 aaa z _ => m.admitted && wfEvex m p dst src1 src2 aaa z
  | .vshufpsEvex256 p dst src1 src2 aaa z _ => m.admitted && wfEvex m p dst src1 src2 aaa z
  | .vshufpsEvex512 p dst src1 src2 aaa z _ => m.admitted && wfEvex m p dst src1 src2 aaa z

end Sys2Proof
end

