-- ==== Sys2Proof/Decode.lean ====
section
/-! DEFINITION. From bytes to instructions and back: the decoder of 30_encoding.md R114, total on any bytes, the length of
an instruction (R108) and an encoder written from the same layouts. -/

namespace Sys2Proof

/-- Why the decoder gives bytes no meaning. Every one is a refusal of the spec, not a gap: the bytes are another
instruction or a spelling the spec says the model refuses. All are safe. -/
inductive DecodeRefusal where
  /-- Not one of the six forms (30_encoding.md R114, 00_scope.md R7). -/
  | otherInstruction
  /-- 66H before `0F C6`: SHUFPD (30_encoding.md R83, R112). -/
  | shufpd
  /-- VEX or EVEX with `pp = 01`: VSHUFPD (30_encoding.md R93, R98, R112). -/
  | vshufpd
  /-- More than one segment override, or a repeated 67H (30_encoding.md R82). -/
  | repeatedPrefix
  /-- 67H in Mode32: 16-bit address size (30_encoding.md R82, R112). -/
  | address16
  /-- A REX prefix not immediately before the opcode (30_encoding.md R88). -/
  | rexNotAdjacent
  /-- Mode32: a VEX or EVEX spelling that relies on an ignored bit (30_encoding.md R95, R102, R112). -/
  | ignoredBit
  /-- An operating mode other than Mode64 and Mode32 (00_scope.md R7). -/
  | unadmittedMode
  deriving DecidableEq, Repr

/-- What the decoder answers (30_encoding.md R114): one of the six forms with the bytes after it, #UD, a refusal, or that
the bytes end before the instruction does. -/
inductive Decoded where
  | ok (i : Instr) (rest : List Byte)
  | ud
  | refused (r : DecodeRefusal)
  | truncated
  deriving DecidableEq, Repr

/-! ### Legacy and REX prefixes (30_encoding.md R82, R83, R88)

Where several lines of the table of 30_encoding.md R112 apply to the same bytes the spec leaves open which outcome is meant. The
order of the decoder is the model's choice, point by point in assumption log 19 (DEDUCED from 60_exceptions.md R218): another
instruction by its opcode, map or VEX or EVEX `pp` is refused as soon as it is known; then the end of the bytes is looked for
(R218 (2)); then the #UD conditions are judged (R218 (3)); then spellings are refused, SHUFPD by its 66H among them. -/

/-- What the prefix bytes before an instruction hold. `rex` is a REX byte immediately before the byte that comes next;
`strayRex` tells of a REX byte that another prefix or REX byte followed (30_encoding.md R88). -/
structure PrefixScan where
  segs : List Seg
  addrSizes : Nat
  opSize : Bool
  rep : Bool
  lock : Bool
  rex : Option Byte
  strayRex : Bool
  deriving DecidableEq, Repr

/-- No prefix byte seen. -/
def PrefixScan.empty : PrefixScan := ⟨[], 0, false, false, false, none, false⟩

/-- The segment a segment-override byte names (30_encoding.md R82). -/
def segOfByte (b : Byte) : Option Seg :=
  if b = 0x26#8 then some .es
  else if b = 0x2E#8 then some .cs
  else if b = 0x36#8 then some .ss
  else if b = 0x3E#8 then some .ds
  else if b = 0x64#8 then some .fs
  else if b = 0x65#8 then some .gs
  else none

/-- A REX byte, 40H to 4FH (30_encoding.md R88). -/
def isRex (b : Byte) : Bool := b.extractLsb' 4 4 == 4#4

/-- Add one byte to the scan, if it is a legacy prefix byte (30_encoding.md R82, R83). -/
def PrefixScan.addLegacy (p : PrefixScan) (b : Byte) : Option PrefixScan :=
  match segOfByte b with
  | some g => some { p with segs := p.segs ++ [g] }
  | none =>
    if b = 0x67#8 then some { p with addrSizes := p.addrSizes + 1 }
    else if b = 0x66#8 then some { p with opSize := true }
    else if b = 0xF2#8 then some { p with rep := true }
    else if b = 0xF3#8 then some { p with rep := true }
    else if b = 0xF0#8 then some { p with lock := true }
    else none

/-- Add one byte to the scan, if it is a legacy prefix byte or, in Mode64, a REX byte. A REX byte before it is then no longer
immediately before the form (30_encoding.md R88); what comes of that is decided with the other prefixes (assumption log 19). -/
def PrefixScan.add (m : Mode) (p : PrefixScan) (b : Byte) : Option PrefixScan :=
  let q : PrefixScan := { p with rex := none, strayRex := p.strayRex || p.rex.isSome }
  if m = .mode64 ∧ isRex b then some { q with rex := some b } else q.addLegacy b

/-- Consume the prefix bytes at the front (30_encoding.md R114 (1), (2)). -/
def scanPrefixes (m : Mode) (p : PrefixScan) : List Byte → PrefixScan × List Byte
  | [] => (p, [])
  | b :: bs =>
    match p.add m b with
    | some q => scanPrefixes m q bs
    | none => (p, b :: bs)

/-- The admitted prefixes: at most one segment override, at most one 67H (30_encoding.md R82). -/
def PrefixScan.accept (p : PrefixScan) : Option Prefixes :=
  match p.segs with
  | [] => if p.addrSizes ≤ 1 then some ⟨none, decide (p.addrSizes = 1)⟩ else none
  | [g] => if p.addrSizes ≤ 1 then some ⟨some g, decide (p.addrSizes = 1)⟩ else none
  | _ :: _ :: _ => none

/-- Prefixes that make the legacy form #UD: LOCK, F2H, F3H (30_encoding.md R83). -/
def PrefixScan.udLegacy (p : PrefixScan) : Bool := p.lock || p.rep

/-- Prefixes that make a VEX or EVEX form #UD: 66H, F2H, F3H, LOCK, or a REX byte anywhere before it (30_encoding.md R83;
60_exceptions.md R203, R213). -/
def PrefixScan.udVex (p : PrefixScan) : Bool := p.lock || p.rep || p.opSize || p.rex.isSome || p.strayRex

/-! ### ModRM, SIB, displacement and immediate (30_encoding.md R89, R103 to R107) -/

/-- Four bytes, least significant first (20_memory.md R52, 30_encoding.md R104). -/
def takeDisp32 : List Byte → Option (BitVec 32 × List Byte)
  | b0 :: b1 :: b2 :: b3 :: bs => some (b3 ++ b2 ++ b1 ++ b0, bs)
  | _ => none

/-- The displacement that `mod` asks for (30_encoding.md R103). -/
def takeDisp (md : BitVec 2) (bs : List Byte) : Option (Disp × List Byte) :=
  if md = 0#2 then some (.absent, bs)
  else if md = 1#2 then
    match bs with
    | d :: r => some (.disp8 d, r)
    | [] => none
  else
    match takeDisp32 bs with
    | some (d, r) => some (.disp32 d, r)
    | none => none

/-- A SIB form after its SIB byte (30_encoding.md R107). -/
def decodeSib (md : BitVec 2) (x b : BitVec 1) (sib : Byte) (bs : List Byte) : Option (MemForm × List Byte) :=
  if sib.extractLsb' 0 3 = 5#3 ∧ md = 0#2 then
    match takeDisp32 bs with
    | some (d, r) => some (.sibNoBase (sib.extractLsb' 6 2) (x ++ sib.extractLsb' 3 3) d, r)
    | none => none
  else
    match takeDisp md bs with
    | some (d, r) => some (.sib (sib.extractLsb' 6 2) (x ++ sib.extractLsb' 3 3) (b ++ sib.extractLsb' 0 3) d, r)
    | none => none

/-- The memory operand of `mod` (not 11) and `r/m`, with the extension bits `X` and `B` (30_encoding.md R103). -/
def decodeMem (md : BitVec 2) (rm : BitVec 3) (x b : BitVec 1) (bs : List Byte) : Option (MemForm × List Byte) :=
  if rm = 4#3 then
    match bs with
    | sib :: r => decodeSib md x b sib r
    | [] => none
  else if rm = 5#3 ∧ md = 0#2 then
    match takeDisp32 bs with
    | some (d, r) => some (.dispOnly d, r)
    | none => none
  else
    match takeDisp md bs with
    | some (d, r) => some (.base (b ++ rm) d, r)
    | none => none

/-- The `r/m` operand before the form says how wide its register number is. -/
inductive TailRM where
  | reg (rm : BitVec 3)
  | mem (m : MemForm)
  deriving DecidableEq, Repr

/-- Everything after the opcode byte: ModRM, SIB, displacement, imm8 (30_encoding.md R81). -/
structure Tail where
  reg : BitVec 3
  rm : TailRM
  imm8 : BitVec 8
  rest : List Byte
  deriving DecidableEq, Repr

/-- Read ModRM, SIB, displacement and imm8 (30_encoding.md R114 (4), (5)). -/
def decodeTail (x b : BitVec 1) : List Byte → Option Tail
  | [] => none
  | modrm :: bs =>
    if modrm.extractLsb' 6 2 = 3#2 then
      match bs with
      | imm :: r => some ⟨modrm.extractLsb' 3 3, .reg (modrm.extractLsb' 0 3), imm, r⟩
      | [] => none
    else
      match decodeMem (modrm.extractLsb' 6 2) (modrm.extractLsb' 0 3) x b bs with
      | some (m, imm :: r) => some ⟨modrm.extractLsb' 3 3, .mem m, imm, r⟩
      | some (_, []) => none
      | none => none

/-- The legacy or VEX operand: register number `B*8 + r/m` (30_encoding.md R87, R94). -/
def TailRM.toRegMem (b : BitVec 1) : TailRM → RegMem
  | .reg rm => .reg (b ++ rm)
  | .mem m => .mem m

/-- The EVEX operand: register number `X*16 + B*8 + r/m`, or memory, broadcast when `EVEX.b = 1` (30_encoding.md R99, R101).
`b = 1` with a register is #UD before this is asked. -/
def TailRM.toRegMemBcst (x b : BitVec 1) (bc : Bool) : TailRM → RegMemBcst
  | .reg rm => .reg (x ++ b ++ rm)
  | .mem m => if bc then .bcst m else .mem m

/-- The `r/m` operand is a register, `mod = 11`. -/
def TailRM.isReg : TailRM → Bool
  | .reg _ => true
  | .mem _ => false

/-- The bytes of a displacement in the ModRM table of 16-bit addressing (30_encoding.md R107). -/
def disp16Length (md : BitVec 2) (rm : BitVec 3) : Nat :=
  if md = 0#2 then (if rm = 6#3 then 2 else 0) else if md = 1#2 then 1 else 2

/-- Read ModRM, displacement and imm8 with 16-bit addressing (30_encoding.md R107), only to find the end of the instruction:
whether `r/m` is a register. -/
def decodeTail16 : List Byte → Option Bool
  | [] => none
  | modrm :: bs =>
    if modrm.extractLsb' 6 2 = 3#2 then (if 1 ≤ bs.length then some true else none)
    else if disp16Length (modrm.extractLsb' 6 2) (modrm.extractLsb' 0 3) + 1 ≤ bs.length then some false else none

/-- Find the end of a form whose opcode has been recognised, then judge it: `ud` is whether it is #UD, given whether `r/m` is a
register, and `ref` the refusal of its own spelling, if any. An instruction whose bytes end too early is truncated before it is
anything else (60_exceptions.md R218 (2), (3)), and #UD comes before a refusal (assumption log 19). In Mode32 67H selects 16-bit
addressing and is refused (30_encoding.md R82). -/
def withTail (m : Mode) (p : PrefixScan) (ud : Bool → Bool) (ref : Option DecodeRefusal) (x b : BitVec 1) (bs : List Byte)
    (k : Prefixes → Tail → Decoded) : Decoded :=
  if m = .mode32 ∧ p.addrSizes ≠ 0 then
    match decodeTail16 bs with
    | none => .truncated
    | some isReg => if ud isReg then .ud else .refused .address16
  else
    match decodeTail x b bs with
    | none => .truncated
    | some t =>
      if ud t.rm.isReg then .ud
      else
        match ref with
        | some r => .refused r
        | none =>
          match p.accept with
          | none => .refused .repeatedPrefix
          | some q => k q t

/-! ### The three encoding families -/

/-- The `W`, `R`, `X`, `B` bits of a REX byte, all 0 when there is none (30_encoding.md R88). -/
def rexBit (rex : Option Byte) (i : Nat) : BitVec 1 :=
  match rex with
  | some v => v.extractLsb' i 1
  | none => 0#1

/-- The spellings of the legacy form that are refused: with 66H it is SHUFPD (30_encoding.md R83), and a REX byte must stand
immediately before the form (R88). -/
def PrefixScan.refusedLegacy (p : PrefixScan) : Option DecodeRefusal :=
  if p.opSize then some .shufpd else if p.strayRex then some .rexNotAdjacent else none

/-- The legacy form after `0F C6` (30_encoding.md R81, R83, R87). -/
def decodeLegacy (m : Mode) (p : PrefixScan) (bs : List Byte) : Decoded :=
  withTail m p (fun _ => p.udLegacy) p.refusedLegacy (rexBit p.rex 1) (rexBit p.rex 0) bs fun q t =>
    .ok (.shufps q (p.rex.map fun v => v.extractLsb' 3 1 == 1#1) (rexBit p.rex 2 ++ t.reg)
      (t.rm.toRegMem (rexBit p.rex 0)) t.imm8) t.rest

/-- After the escape byte 0FH: only C6H is a form of this spec (30_encoding.md R114 (2)). -/
def decodeEscape (m : Mode) (p : PrefixScan) : List Byte → Decoded
  | [] => .truncated
  | op :: bs => if op = 0xC6#8 then decodeLegacy m p bs else .refused .otherInstruction

/-- A VEX form once its fields are known. `pp = 01` is VSHUFPD, another instruction; `pp = 10` or `11` is #UD (30_encoding.md
R93), with the forbidden prefixes and, by the model's choice (assumption log 19), before the refusal `ref` of an ignored bit (R95).
`mk128` and `mk256` are the rows for `L = 0` and `L = 1`. -/
def decodeVexFields (m : Mode) (p : PrefixScan) (ref : Option DecodeRefusal) (r x b : BitVec 1) (vvvv : BitVec 4)
    (l : BitVec 1) (pp : BitVec 2) (mk128 mk256 : Prefixes → BitVec 4 → BitVec 4 → RegMem → BitVec 8 → Instr)
    (bs : List Byte) : Decoded :=
  if pp = 1#2 then .refused .vshufpd
  else
    withTail m p (fun _ => p.udVex || pp != 0#2) ref x b bs fun q t =>
      if l = 0#1 then .ok (mk128 q (r ++ t.reg) vvvv (t.rm.toRegMem b) t.imm8) t.rest
      else .ok (mk256 q (r ++ t.reg) vvvv (t.rm.toRegMem b) t.imm8) t.rest

/-- A two-byte VEX prefix after its C5H byte (30_encoding.md R91). It has no ignored bit: in Mode32 both inverted bits 7 and 6
are 1 or the byte is no prefix (R95). -/
def decodeVexC5 (m : Mode) (p : PrefixScan) : List Byte → Decoded
  | b1 :: op :: bs =>
    if op ≠ 0xC6#8 then .refused .otherInstruction
    else
      decodeVexFields m p none (~~~(b1.extractLsb' 7 1)) 0#1 0#1 (~~~(b1.extractLsb' 3 4)) (b1.extractLsb' 2 1)
        (b1.extractLsb' 0 2) .vshufpsVex128C5 .vshufpsVex256C5 bs
  | _ => .truncated

/-- The ignored bits of a three-byte VEX prefix in Mode32, `B` inverted and bit 3 of `vvvv` inverted, must be 1 (30_encoding.md
R95). -/
def ignoredVexC4 (m : Mode) (b1 b2 : Byte) : Option DecodeRefusal :=
  if m = .mode32 ∧ (b1.extractLsb' 5 1 = 0#1 ∨ b2.extractLsb' 6 1 = 0#1) then some .ignoredBit else none

/-- A three-byte VEX prefix after its C4H byte (30_encoding.md R92, R95). A Mode32 spelling that relies on an ignored bit is
refused only when it is not #UD by `pp` or by its prefixes: DEDUCED, assumption log 19. -/
def decodeVexC4 (m : Mode) (p : PrefixScan) : List Byte → Decoded
  | b1 :: b2 :: op :: bs =>
    if b1.extractLsb' 0 5 ≠ 1#5 ∨ op ≠ 0xC6#8 then .refused .otherInstruction
    else
      decodeVexFields m p (ignoredVexC4 m b1 b2) (~~~(b1.extractLsb' 7 1)) (~~~(b1.extractLsb' 6 1))
        (~~~(b1.extractLsb' 5 1)) (~~~(b2.extractLsb' 3 4)) (b2.extractLsb' 2 1) (b2.extractLsb' 0 2)
        (fun q => .vshufpsVex128C4 q (b2.extractLsb' 7 1 == 1#1)) (fun q => .vshufpsVex256C4 q (b2.extractLsb' 7 1 == 1#1))
        bs
  | _ => .truncated

/-- The row of an EVEX form by `L'L` (30_encoding.md R98). 11 is #UD before this is asked. -/
def evexRow (ll : BitVec 2) : Prefixes → BitVec 5 → BitVec 5 → RegMemBcst → BitVec 3 → Bool → BitVec 8 → Instr :=
  if ll = 0#2 then .vshufpsEvex128 else if ll = 1#2 then .vshufpsEvex256 else .vshufpsEvex512

/-- A fixed EVEX field is wrong: P0 bits 3:2 not 00, P1 bit 2 = 0, or `mm = 00` (30_encoding.md R98, R112). -/
def evexReserved (p0 p1 : Byte) : Bool :=
  p0.extractLsb' 2 2 != 0#2 || p1.extractLsb' 2 1 == 0#1 || p0.extractLsb' 0 2 == 0#2

/-- The #UD conditions of an EVEX form that its bytes show: forbidden prefixes, fixed fields, `W = 1`, `L'L = 11`, `z = 1`
with `aaa = 000`, `b = 1` with a register (30_encoding.md R112, 60_exceptions.md R213). -/
def evexUd (p : PrefixScan) (p0 p1 p2 : Byte) (isReg : Bool) : Bool :=
  p.udVex || evexReserved p0 p1 || p1.extractLsb' 7 1 == 1#1 || p2.extractLsb' 5 2 == 3#2 ||
    (p2.extractLsb' 7 1 == 1#1 && p2.extractLsb' 0 3 == 0#3) || (isReg && p2.extractLsb' 4 1 == 1#1)

/-- The ignored bits of an EVEX prefix in Mode32, `B`, `R'`, bit 3 of `vvvv` and `V'`, all inverted, must be 1 (30_encoding.md
R102). -/
def ignoredEvex (m : Mode) (p0 p1 p2 : Byte) : Option DecodeRefusal :=
  if m = .mode32 ∧ (p0.extractLsb' 4 2 ≠ 3#2 ∨ p1.extractLsb' 6 1 = 0#1 ∨ p2.extractLsb' 3 1 = 0#1) then some .ignoredBit
  else none

/-- The other instructions an EVEX prefix with right fixed fields may be: another map, VSHUFPD for `pp = 01` (30_encoding.md
R98), or `pp = 10` or `11`, of which the spec says nothing (assumption log 19). -/
def evexOther (p0 p1 : Byte) : Option DecodeRefusal :=
  if evexReserved p0 p1 then none
  else if p0.extractLsb' 0 2 ≠ 1#2 then some .otherInstruction
  else if p1.extractLsb' 0 2 = 1#2 then some .vshufpd
  else if p1.extractLsb' 0 2 ≠ 0#2 then some .otherInstruction
  else none

/-- An EVEX prefix after its 62H byte (30_encoding.md R97 to R102, R112). Another opcode byte is another instruction whatever the
fixed fields are, and a wrong fixed field is #UD whatever `pp` is and before an ignored bit is refused: DEDUCED, assumption log
19. -/
def decodeEvex (m : Mode) (p : PrefixScan) : List Byte → Decoded
  | p0 :: p1 :: p2 :: op :: bs =>
    if op ≠ 0xC6#8 then .refused .otherInstruction
    else
      match evexOther p0 p1 with
      | some r => .refused r
      | none =>
        withTail m p (evexUd p p0 p1 p2) (ignoredEvex m p0 p1 p2) (~~~(p0.extractLsb' 6 1)) (~~~(p0.extractLsb' 5 1)) bs
          fun q t =>
            .ok (evexRow (p2.extractLsb' 5 2) q (~~~(p0.extractLsb' 4 1) ++ ~~~(p0.extractLsb' 7 1) ++ t.reg)
              (~~~(p2.extractLsb' 3 1) ++ ~~~(p1.extractLsb' 3 4))
              (t.rm.toRegMemBcst (~~~(p0.extractLsb' 6 1)) (~~~(p0.extractLsb' 5 1)) (p2.extractLsb' 4 1 == 1#1))
              (p2.extractLsb' 0 3) (p2.extractLsb' 7 1 == 1#1) t.imm8) t.rest
  | _ => .truncated

/-- A C4H, C5H or 62H byte starts a VEX or EVEX prefix: always in Mode64, in Mode32 when bits 7:6 of the next byte are 11
(30_encoding.md R95, R102). -/
def vexMarked (m : Mode) : List Byte → Bool
  | [] => true
  | b :: _ => decide (m = .mode64) || b.extractLsb' 6 2 == 3#2

/-- The first byte after the prefixes selects the family (30_encoding.md R114 (2)). -/
def decodeFamily (m : Mode) (p : PrefixScan) : List Byte → Decoded
  | [] => .truncated
  | b0 :: bs =>
    if b0 = 0x0F#8 then decodeEscape m p bs
    else if b0 = 0xC5#8 ∧ vexMarked m bs then decodeVexC5 m p bs
    else if b0 = 0xC4#8 ∧ vexMarked m bs then decodeVexC4 m p bs
    else if b0 = 0x62#8 ∧ vexMarked m bs then decodeEvex m p bs
    else .refused .otherInstruction

/-- The decoder (30_encoding.md R114). -/
def decode (m : Mode) (bs : List Byte) : Decoded :=
  if m.admitted then
    let s := scanPrefixes m .empty bs
    decodeFamily m s.1 s.2
  else .refused .unadmittedMode

/-! ### Length (30_encoding.md R108) -/

/-- `P`, the number of legacy prefix bytes. -/
def Prefixes.length (p : Prefixes) : Nat := (if p.seg.isSome then 1 else 0) + (if p.addrSize then 1 else 0)

/-- `D`, the bytes of a displacement. -/
def Disp.length : Disp → Nat
  | .absent => 0
  | .disp8 _ => 1
  | .disp32 _ => 4

/-- `S + D`, the bytes of a memory form after ModRM. -/
def MemForm.length : MemForm → Nat
  | .base _ d => d.length
  | .sib _ _ _ d => 1 + d.length
  | .sibNoBase .. => 5
  | .dispOnly _ => 4

/-- `S + D` of an operand. -/
def RegMem.length : RegMem → Nat
  | .reg _ => 0
  | .mem m => m.length

/-- `S + D` of an operand. -/
def RegMemBcst.length : RegMemBcst → Nat
  | .reg _ => 0
  | .mem m => m.length
  | .bcst m => m.length

/-- `H` of the legacy form: 2, or 3 with a REX byte. -/
def rexHeader (rex : Option Bool) : Nat := if rex.isSome then 3 else 2

/-- `len = P + H + 1 (ModRM) + S + D + 1 (imm8)`. -/
def instrLength (p : Prefixes) (header sd : Nat) : Nat := p.length + header + 1 + sd + 1

/-- The length of an instruction in bytes. -/
def Instr.length : Instr → Nat
  | .shufps p rex _ src2 _ => instrLength p (rexHeader rex) src2.length
  | .vshufpsVex128C5 p _ _ src2 _ => instrLength p 3 src2.length
  | .vshufpsVex128C4 p _ _ _ src2 _ => instrLength p 4 src2.length
  | .vshufpsVex256C5 p _ _ src2 _ => instrLength p 3 src2.length
  | .vshufpsVex256C4 p _ _ _ src2 _ => instrLength p 4 src2.length
  | .vshufpsEvex128 p _ _ src2 _ _ _ => instrLength p 5 src2.length
  | .vshufpsEvex256 p _ _ src2 _ _ _ => instrLength p 5 src2.length
  | .vshufpsEvex512 p _ _ src2 _ _ _ => instrLength p 5 src2.length

/-! ### The encoder -/

/-- The segment-override byte of a segment (30_encoding.md R82). -/
def Seg.byte : Seg → Byte
  | .es => 0x26#8
  | .cs => 0x2E#8
  | .ss => 0x36#8
  | .ds => 0x3E#8
  | .fs => 0x64#8
  | .gs => 0x65#8

/-- The legacy prefix bytes, the segment override first (the order is free, 30_encoding.md R82). -/
def Prefixes.bytes (p : Prefixes) : List Byte :=
  (match p.seg with
   | some g => [g.byte]
   | none => []) ++ (if p.addrSize then [0x67#8] else [])

/-- A 32-bit displacement, least significant byte first (30_encoding.md R104). -/
def disp32Bytes (d : BitVec 32) : List Byte :=
  [d.extractLsb' 0 8, d.extractLsb' 8 8, d.extractLsb' 16 8, d.extractLsb' 24 8]

/-- `mod` for a displacement (30_encoding.md R103). -/
def Disp.md : Disp → BitVec 2
  | .absent => 0#2
  | .disp8 _ => 1#2
  | .disp32 _ => 2#2

/-- The bytes of a displacement. -/
def Disp.bytes : Disp → List Byte
  | .absent => []
  | .disp8 d => [d]
  | .disp32 d => disp32Bytes d

/-- ModRM, SIB and displacement of a memory operand (30_encoding.md R89, R103, R107). -/
def MemForm.bytes (reg : BitVec 3) : MemForm → List Byte
  | .base b d => (d.md ++ reg ++ low3 b) :: d.bytes
  | .sib sc i b d => (d.md ++ reg ++ 4#3) :: (sc ++ low3 i ++ low3 b) :: d.bytes
  | .sibNoBase sc i d => (0#2 ++ reg ++ 4#3) :: (sc ++ low3 i ++ 5#3) :: disp32Bytes d
  | .dispOnly d => (0#2 ++ reg ++ 5#3) :: disp32Bytes d

/-- Bit 3 of a 4-bit register number, its extension bit. -/
def ext4 (r : BitVec 4) : BitVec 1 := r.extractLsb' 3 1

/-- `X`, bit 3 of the index number, 0 where the form has no index (30_encoding.md R107). -/
def MemForm.x : MemForm → BitVec 1
  | .base _ _ => 0#1
  | .sib _ i _ _ => ext4 i
  | .sibNoBase _ i _ => ext4 i
  | .dispOnly _ => 0#1

/-- `B`, bit 3 of the base number, 0 where the form has no base (30_encoding.md R103, R107). -/
def MemForm.b : MemForm → BitVec 1
  | .base b _ => ext4 b
  | .sib _ _ b _ => ext4 b
  | .sibNoBase .. => 0#1
  | .dispOnly _ => 0#1

/-- `X` of a legacy or VEX operand; ignored for a register (30_encoding.md R94). -/
def RegMem.x : RegMem → BitVec 1
  | .reg _ => 0#1
  | .mem m => m.x

/-- `B` of a legacy or VEX operand (30_encoding.md R87, R94). -/
def RegMem.b : RegMem → BitVec 1
  | .reg r => ext4 r
  | .mem m => m.b

/-- ModRM, SIB and displacement of a legacy or VEX operand. -/
def RegMem.bytes (reg : BitVec 3) : RegMem → List Byte
  | .reg r => [3#2 ++ reg ++ low3 r]
  | .mem m => m.bytes reg

/-- `X` of an EVEX operand: bit 4 of a register number (30_encoding.md R101). -/
def RegMemBcst.x : RegMemBcst → BitVec 1
  | .reg r => r.extractLsb' 4 1
  | .mem m => m.x
  | .bcst m => m.x

/-- `B` of an EVEX operand: bit 3 of a register number (30_encoding.md R101). -/
def RegMemBcst.b : RegMemBcst → BitVec 1
  | .reg r => r.extractLsb' 3 1
  | .mem m => m.b
  | .bcst m => m.b

/-- `EVEX.b`: broadcast (30_encoding.md R99). -/
def RegMemBcst.bc : RegMemBcst → BitVec 1
  | .reg _ => 0#1
  | .mem _ => 0#1
  | .bcst _ => 1#1

/-- ModRM, SIB and displacement of an EVEX operand. -/
def RegMemBcst.bytes (reg : BitVec 3) : RegMemBcst → List Byte
  | .reg r => [3#2 ++ reg ++ r.extractLsb' 0 3]
  | .mem m => m.bytes reg
  | .bcst m => m.bytes reg

/-- The REX byte, if present (30_encoding.md R88). -/
def rexBytes (rex : Option Bool) (dst : BitVec 4) (src2 : RegMem) : List Byte :=
  match rex with
  | none => []
  | some w => [4#4 ++ BitVec.ofBool w ++ ext4 dst ++ src2.x ++ src2.b]

/-- The two-byte VEX prefix with `pp = 00` (30_encoding.md R91). -/
def vexC5Bytes (l : BitVec 1) (dst src1 : BitVec 4) : List Byte :=
  [0xC5#8, ~~~(ext4 dst) ++ ~~~src1 ++ l ++ 0#2]

/-- The three-byte VEX prefix with `mmmmm = 00001`, `pp = 00` (30_encoding.md R92). -/
def vexC4Bytes (w : Bool) (l : BitVec 1) (dst src1 : BitVec 4) (src2 : RegMem) : List Byte :=
  [0xC4#8, ~~~(ext4 dst) ++ ~~~src2.x ++ ~~~src2.b ++ 1#5, BitVec.ofBool w ++ ~~~src1 ++ l ++ 0#2]

/-- The EVEX prefix with `mm = 01`, `pp = 00`, `W = 0` (30_encoding.md R97). -/
def evexBytes (ll : BitVec 2) (dst src1 : BitVec 5) (src2 : RegMemBcst) (aaa : BitVec 3) (z : Bool) : List Byte :=
  [0x62#8,
   ~~~(dst.extractLsb' 3 1) ++ ~~~src2.x ++ ~~~src2.b ++ ~~~(dst.extractLsb' 4 1) ++ 0#2 ++ 1#2,
   0#1 ++ ~~~(src1.extractLsb' 0 4) ++ 1#1 ++ 0#2,
   BitVec.ofBool z ++ ll ++ src2.bc ++ ~~~(src1.extractLsb' 4 1) ++ aaa]

/-- The bytes after a legacy or VEX header: opcode, ModRM, SIB, displacement, imm8. -/
def opcodeBytes (dst : BitVec 4) (src2 : RegMem) (imm8 : BitVec 8) : List Byte :=
  0xC6#8 :: (src2.bytes (low3 dst) ++ [imm8])

/-- The bytes after an EVEX prefix: opcode, ModRM, SIB, displacement, imm8. -/
def opcodeBytesEvex (dst : BitVec 5) (src2 : RegMemBcst) (imm8 : BitVec 8) : List Byte :=
  0xC6#8 :: (src2.bytes (dst.extractLsb' 0 3) ++ [imm8])

/-- The legacy prefixes of an instruction. -/
def Instr.prefixes : Instr → Prefixes
  | .shufps p _ _ _ _ => p
  | .vshufpsVex128C5 p _ _ _ _ => p
  | .vshufpsVex128C4 p _ _ _ _ _ => p
  | .vshufpsVex256C5 p _ _ _ _ => p
  | .vshufpsVex256C4 p _ _ _ _ _ => p
  | .vshufpsEvex128 p _ _ _ _ _ _ => p
  | .vshufpsEvex256 p _ _ _ _ _ _ => p
  | .vshufpsEvex512 p _ _ _ _ _ _ => p

/-- The bytes of an instruction after its legacy prefixes (30_encoding.md R81, R90, R96). -/
def encodeBody : Instr → List Byte
  | .shufps _ rex dst src2 imm8 => rexBytes rex dst src2 ++ 0x0F#8 :: opcodeBytes dst src2 imm8
  | .vshufpsVex128C5 _ dst src1 src2 imm8 => vexC5Bytes 0#1 dst src1 ++ opcodeBytes dst src2 imm8
  | .vshufpsVex128C4 _ w dst src1 src2 imm8 => vexC4Bytes w 0#1 dst src1 src2 ++ opcodeBytes dst src2 imm8
  | .vshufpsVex256C5 _ dst src1 src2 imm8 => vexC5Bytes 1#1 dst src1 ++ opcodeBytes dst src2 imm8
  | .vshufpsVex256C4 _ w dst src1 src2 imm8 => vexC4Bytes w 1#1 dst src1 src2 ++ opcodeBytes dst src2 imm8
  | .vshufpsEvex128 _ dst src1 src2 aaa z imm8 => evexBytes 0#2 dst src1 src2 aaa z ++ opcodeBytesEvex dst src2 imm8
  | .vshufpsEvex256 _ dst src1 src2 aaa z imm8 => evexBytes 1#2 dst src1 src2 aaa z ++ opcodeBytesEvex dst src2 imm8
  | .vshufpsEvex512 _ dst src1 src2 aaa z imm8 => evexBytes 2#2 dst src1 src2 aaa z ++ opcodeBytesEvex dst src2 imm8

/-- The bytes of an instruction. Extension bits that the processor ignores for the operand and that no field of `Instr`
holds are written as those of number 0 (assumption log 20). -/
def encode (i : Instr) : List Byte := i.prefixes.bytes ++ encodeBody i

/-! ### The host's reading of one table word -/

/-- The bytes of a table word: the low `nbits` bits of `w`, byte 0 least significant, then zero bytes up to the longest
instruction. -/
def tableBytes (nbits w : Nat) : List Byte :=
  (List.range Config.maxInstrBytes).map fun i => BitVec.ofNat 8 ((w % 2 ^ nbits) / 256 ^ i)

/-- The instruction the Mode64 decoder reads from a table word (assumption log 5). -/
def decodeTableWord (nbits w : Nat) : Option Instr :=
  match decode .mode64 (tableBytes nbits w) with
  | .ok i _ => some i
  | .ud => none
  | .refused _ => none
  | .truncated => none

end Sys2Proof
end

