-- ==== Sys2Proof/Machine/State.lean ====
section
/-! DEFINITION. The state of the machine as plain data, the faults and refusals a step can end in, and the state right
after reset. INVENTORY.md lists every field with the rule of spec/ that names it. -/

namespace Sys2Proof.Machine

/-- Memory as (linear address, byte) pairs in one canonical form, `Memory.wf` of Machine/Ops.lean (20_memory.md R72). -/
abbrev Memory := List Host.Cell

/-- One case of the launch-state parameter `SegOk` of a segment (20_memory.md R56): its value for the effective addresses
`first` to `last`, for operands of `bytes` bytes or, with none given, of any size (assumption log 12). -/
structure SegRule where
  first : Nat
  last : Nat
  bytes : Option Nat
  legal : Bool
  deriving DecidableEq, Repr

/-- A segment register: what 20_memory.md R56 takes as launch-state parameters, `base(seg)` and `SegOk`. `SegOk` is held as a
list of cases, of which the first that applies decides, and for what no case covers as the data of a limit check (assumption
log 12). With no base and the one case `⟨0, 2^64 - 1, none, true⟩` it is the flat segment of R56. -/
structure Segment where
  selector : BitVec 16
  base : Word
  limit : BitVec 32
  readable : Bool
  expandDown : Bool
  rules : List SegRule
  deriving DecidableEq, Repr

/-- The six segment registers (10_state.md R32). -/
structure Segments where
  es : Segment
  cs : Segment
  ss : Segment
  ds : Segment
  fs : Segment
  gs : Segment
  deriving DecidableEq, Repr

/-- The x87 and MMX state (10_state.md R38), which no form reads or writes. -/
structure X87 where
  st : Vector (BitVec 80) 8
  control : BitVec 16
  status : BitVec 16
  tag : BitVec 16
  deriving DecidableEq, Repr

/-- The CPUID feature flags of the forms (00_scope.md R3, R9; 10_state.md R42). -/
structure Features where
  sse : Bool
  avx : Bool
  avx512f : Bool
  avx512vl : Bool
  deriving DecidableEq, Repr

/-- The faults of 60_exceptions.md R202. A step that meets one changes no state (R220). Each is what the spec says the
machine reports, so it is safe. `Translate` may report any of them (20_memory.md R57). -/
inductive Fault where
  /-- #UD, vector 6: the decoder (R112) and the enabling checks (R203, R213). -/
  | invalidOpcode
  /-- #NM, vector 7: `CR0.TS = 1` (R204, R214). -/
  | deviceNotAvailable
  /-- #SS(0), vector 12: an illegal address through SS (R205, R215). -/
  | stackSegment
  /-- #GP(0), vector 13: an illegal address, a misaligned legacy operand, an over-long instruction (R206, R215, R109). -/
  | generalProtection
  /-- #PF(code), vector 14, with the faulting linear address for CR2 (R207, R216; 20_memory.md R68). The spec gives the error code
  no width and names its bits 0 to 5; 32 bits are PRESUMED (assumption log 24). -/
  | pageFault (code : BitVec 32) (cr2 : Word)
  deriving DecidableEq, Repr

/-- What `Translate` answers for bytes of a data read (20_memory.md R57). -/
inductive Answer where
  /-- The bytes of memory. -/
  | readable
  /-- Paging faults the read: #PF with the error code of R68 from `P`, `RSVD`, `PK` and the privilege level, and the address of
  the byte for CR2. -/
  | paging (p rsvd pk : Bool)
  /-- Any other fault, with an error code and a CR2 value of its own. -/
  | fault (f : Fault)
  /-- Memory with read side effects (memory-mapped I/O): the access is refused (R63). -/
  | readSideEffects
  deriving DecidableEq, Repr

/-- One case of the open parameter `Translate` (20_memory.md R57): the answer for the linear addresses `first` to `last`, at the
privilege levels whose bits are set in `cpls`, for the operand of the address and size in `request` or, with none given, for
every operand. -/
structure Region where
  first : Nat
  last : Nat
  cpls : BitVec 4
  request : Option (Word × Nat)
  answer : Answer
  deriving DecidableEq, Repr

/-- Everything the spec gives the machine. -/
structure State where
  /-- ZMM0 to ZMM31; XMM and YMM registers are their low bits (10_state.md R20 to R22). -/
  zmm : Vector Zmm 32
  /-- Opmask registers k0 to k7, `KW = 64` (10_state.md R25; assumption log 7). -/
  k : Vector (BitVec 64) 8
  /-- General registers (10_state.md R30). -/
  gpr : Vector Word 16
  /-- Program counter; `eip` with bits 63:32 zero in Mode32 (10_state.md R33). -/
  rip : Word
  /-- EFLAGS (10_state.md R36). -/
  eflags : BitVec 32
  /-- MXCSR (10_state.md R37). -/
  mxcsr : BitVec 32
  /-- x87 and MMX (10_state.md R38). -/
  x87 : X87
  /-- Segment registers (10_state.md R32). -/
  segs : Segments
  /-- CR0 (10_state.md R40). -/
  cr0 : BitVec 32
  /-- CR4 (10_state.md R40). -/
  cr4 : BitVec 32
  /-- XCR0 (10_state.md R40). -/
  xcr0 : BitVec 64
  /-- Operating mode (10_state.md R41). -/
  mode : Mode
  /-- Current privilege level (10_state.md R41, 60_exceptions.md R230). -/
  cpl : BitVec 2
  /-- Features reported by CPUID (00_scope.md R9), constant along a run. -/
  features : Features
  /-- The fault side of `Translate`: for each byte the first case that applies; where none does the byte is readable
  (20_memory.md R57; assumption log 8). -/
  translation : List Region
  /-- The bytes `Translate` returns, by linear address (20_memory.md R57, R72). -/
  mem : Memory
  deriving DecidableEq, Repr

/-- Why the model gives a step no meaning. Every one is safe: the model stops where the spec says it refuses. -/
inductive Refusal where
  /-- An instruction that has no meaning in the model, by its mnemonic; raised by no arm of exec. -/
  | notModelled (mnemonic : String)
  /-- The bytes at `rip` are outside the spec (30_encoding.md R112, R114); raised by the fetch. -/
  | undecoded (r : DecodeRefusal)
  /-- A byte of the instruction lies where it cannot be fetched (10_state.md R35, 60_exceptions.md R218 (1)); raised by
  the fetch. -/
  | fetchOutside
  /-- An operating mode other than Mode64 and Mode32 (00_scope.md R7); raised by the fetch and by exec after its #UD and
  #NM checks. -/
  | unadmittedMode
  /-- A legacy-form memory access through a segment whose base is not a multiple of 16 (20_memory.md R59); raised by the
  alignment check. -/
  | segmentBaseUnaligned
  /-- A memory operand in memory with read side effects (20_memory.md R63); raised by the operand read. -/
  | readSideEffects
  deriving DecidableEq, Repr

/-- A result, a fault or a refusal: the three outcomes of a step, for the parts of a step too. -/
abbrev Res (α : Type) := Host.Outcome α Fault Refusal

/-- A segment register at reset other than CS. PRESUMED: the family's values (assumption log 3). -/
def Segment.reset : Segment := ⟨0x0000#16, 0#64, 0x0000FFFF#32, true, false, []⟩

/-- CS at reset (10_state.md R45). -/
def Segment.resetCs : Segment := ⟨0xF000#16, 0xFFFF0000#64, 0x0000FFFF#32, true, false, []⟩

/-- The x87 state at reset. PRESUMED: the family's values (assumption log 3). -/
def X87.reset : X87 := ⟨Vector.replicate 8 0#80, 0x0040#16, 0x0000#16, 0x5555#16⟩

/-- The machine right after reset: the table of 10_state.md R45 (R240, R241). Values the table calls unspecified or does
not give are zero (assumption logs 2, 3, 4, 6, 8). -/
def State.reset : State where
  zmm := Vector.replicate 32 0#512
  k := Vector.replicate 8 0#64
  gpr := Vector.replicate 16 0#64
  rip := 0x0000FFF0#64
  eflags := 0x00000002#32
  mxcsr := 0x1F80#32
  x87 := X87.reset
  segs := ⟨Segment.reset, Segment.resetCs, Segment.reset, Segment.reset, Segment.reset, Segment.reset⟩
  cr0 := 0x60000010#32
  cr4 := 0x00000000#32
  xcr0 := 0x0000000000000001#64
  mode := .realAddress
  cpl := 0#2
  features := ⟨true, true, true, true⟩
  translation := []
  mem := []

end Sys2Proof.Machine
end

