-- ==== Sys2Proof/Machine/Ops.lean ====
section
/-! DEFINITION. The named operations over registers, memory and faults that the meanings are written from, and the fetch
of an instruction's bytes. -/

namespace Sys2Proof.Machine

/-! ### Sequencing and faults -/

/-- Go on with a result; a fault or a refusal ends the instruction (00_scope.md R16: every check comes before any
write). -/
def andThen {α β : Type} (o : Res α) (f : α → Res β) : Res β :=
  match o with
  | .next a => f a
  | .fault r => .fault r
  | .refused r => .refused r

/-- Taking an exception, the one operation every fault goes through: the outcome `Fault(vector, error code, cr2?)` with no
change of state (60_exceptions.md R220; delivery through the IDT is out of scope, R221, 00_scope.md R7; assumption log
15). -/
def raise {α : Type} (f : Fault) : Res α := .fault f

/-- The vector number of a fault (60_exceptions.md R202). -/
def Fault.vector : Fault → Nat
  | .invalidOpcode => 6
  | .deviceNotAvailable => 7
  | .stackSegment => 12
  | .generalProtection => 13
  | .pageFault _ _ => 14

/-- The error code of a fault, if it has one (60_exceptions.md R202); 32 bits wide, PRESUMED (assumption log 24). -/
def Fault.errorCode : Fault → Option (BitVec 32)
  | .invalidOpcode => none
  | .deviceNotAvailable => none
  | .stackSegment => some 0#32
  | .generalProtection => some 0#32
  | .pageFault code _ => some code

/-- The value recorded for CR2, for a page fault only (60_exceptions.md R202). -/
def Fault.cr2 : Fault → Option Word
  | .invalidOpcode => none
  | .deviceNotAvailable => none
  | .stackSegment => none
  | .generalProtection => none
  | .pageFault _ a => some a

/-! ### Registers -/

/-- `zmm[r]` (10_state.md R20). -/
def State.vec (s : State) (r : BitVec 5) : Zmm := s.zmm[r.toNat]'r.isLt

/-- `zmm[r] <- v`, all `MAXVL` bits (00_scope.md R13). -/
def State.setVec (s : State) (r : BitVec 5) (v : Zmm) : State := { s with zmm := s.zmm.set r.toNat v r.isLt }

/-- The vector register number of a legacy or VEX operand, 0 to 15 (10_state.md R22). -/
def vreg (r : BitVec 4) : BitVec 5 := r.setWidth 5

/-- `k[r]` (10_state.md R25). -/
def State.mask (s : State) (r : BitVec 3) : BitVec 64 := s.k[r.toNat]'r.isLt

/-- `gpr[r]` (10_state.md R30). -/
def State.reg (s : State) (r : BitVec 4) : Word := s.gpr[r.toNat]'r.isLt

/-- `rip + len`, modulo 2^64 in Mode64 and modulo 2^32 in Mode32 (10_state.md R34). -/
def State.ripNext (s : State) (len : Nat) : Word :=
  if s.mode = .mode32 then low32 (s.rip + BitVec.ofNat 64 len) else s.rip + BitVec.ofNat 64 len

/-- `rip <- rip + len` (10_state.md R34). -/
def State.advance (s : State) (len : Nat) : State := { s with rip := s.ripNext len }

/-- The segment register (10_state.md R32). -/
def State.seg (s : State) (g : Seg) : Segment :=
  match g with
  | .es => s.segs.es
  | .cs => s.segs.cs
  | .ss => s.segs.ss
  | .ds => s.segs.ds
  | .fs => s.segs.fs
  | .gs => s.segs.gs

/-! ### The INIT signal -/

/-- What INIT leaves: the INIT column of the table of 10_state.md R45. CR0 keeps CD and NW, PRESUMED bits 30 and 29; what the
table does not give takes the value right after reset (segment registers, EDX, upper halves of general registers) or is
kept (x87, memory, translation): assumption log 26. No step performs it: it comes from outside the core (60_exceptions.md
R225). -/
def State.initSignal (s : State) : State :=
  { s with
    gpr := State.reset.gpr
    rip := State.reset.rip
    eflags := State.reset.eflags
    segs := State.reset.segs
    cr0 := 0x00000010#32 ||| (s.cr0 &&& 0x60000000#32)
    cr4 := State.reset.cr4
    mode := .realAddress
    cpl := 0#2 }

/-! ### Values built from equal parts -/

/-- The value whose part `j` (bits `w*j + w - 1 : w*j`) is `f j` for `j < n`, and whose other bits are 0. With `w = 8` it is
little-endian assembly of bytes (20_memory.md R52); with `w = 32` elements, with `w = 128` lanes. -/
def build (w : Nat) : Nat → (Nat → BitVec w) → Zmm
  | 0, _ => 0#512
  | n + 1, f => build w n f ||| ((f n).setWidth 512 <<< (w * n))

/-! ### Memory bytes -/

/-- What an unlisted address reads as. DESIGN CHOICE: the spec gives no contents (assumption log 4). -/
def Memory.unlisted : Byte := 0#8

/-- The byte at an address. -/
def Memory.read : Memory → Nat → Byte
  | [], _ => Memory.unlisted
  | (b, v) :: m, a => if a = b then v else Memory.read m a

/-- Set the byte at an address, keeping the canonical form. No instruction calls it (20_memory.md R50); it places a
program. -/
def Memory.write : Memory → Nat → Byte → Memory
  | [], a, v => if v = Memory.unlisted then [] else [(a, v)]
  | (b, u) :: m, a, v =>
    if a < b then (if v = Memory.unlisted then (b, u) :: m else (a, v) :: (b, u) :: m)
    else if a = b then (if v = Memory.unlisted then m else (a, v) :: m)
    else (b, u) :: Memory.write m a v

/-- Set consecutive bytes from an address, wrapping at the top of the address space. -/
def Memory.writeList (m : Memory) (a : Nat) : List Byte → Memory
  | [] => m
  | v :: vs => Memory.writeList (Memory.write m (a % 2 ^ 64) v) (a + 1) vs

/-- The canonical form from address `lo` on: addresses strictly rise and stay below 2^64, and no entry equals what an
unlisted address reads as. -/
def Memory.wfFrom (lo : Nat) : Memory → Bool
  | [] => true
  | (b, v) :: m => decide (lo ≤ b) && decide (b < 2 ^ 64) && v != Memory.unlisted && Memory.wfFrom (b + 1) m

/-- The canonical form of memory. -/
def Memory.wf (m : Memory) : Bool := Memory.wfFrom 0 m

/-! ### Reading data through `Translate` (20_memory.md R57, R61, R68) -/

/-- The linear address of byte `b` of an operand at `a`; addresses wrap at the top of the address space (20_memory.md R55,
R56; assumption log 11). -/
def State.byteAddr (s : State) (a : Word) (b : Nat) : Word :=
  if s.mode = .mode32 then low32 (a + BitVec.ofNat 64 b) else a + BitVec.ofNat 64 b

/-- The error code of a page fault by a data read: P bit 0, W/R bit 1 = 0, U/S bit 2, RSVD bit 3, I/D bit 4 = 0, PK bit 5
(20_memory.md R68). -/
def pageFaultCode (cpl : BitVec 2) (p rsvd pk : Bool) : BitVec 32 :=
  0#26 ++ BitVec.ofBool pk ++ 0#1 ++ BitVec.ofBool rsvd ++ BitVec.ofBool (cpl == 3#2) ++ 0#1 ++ BitVec.ofBool p

/-- The fault an answer of `Translate` is for the byte at `x`, if it is one (20_memory.md R57, R68). -/
def Answer.faultAt (cpl : BitVec 2) (x : Word) : Answer → Option Fault
  | .readable => none
  | .paging p rsvd pk => some (.pageFault (pageFaultCode cpl p rsvd pk) x)
  | .fault f => some f
  | .readSideEffects => none

/-- The case applies to the byte at `x` of an operand of `n` bytes at `a` (20_memory.md R57). -/
def Region.covers (r : Region) (cpl : BitVec 2) (a : Word) (n : Nat) (x : Word) : Bool :=
  decide (r.first ≤ x.toNat) && decide (x.toNat ≤ r.last) && r.cpls.getLsbD cpl.toNat &&
    (r.request == none || r.request == some (a, n))

/-- The case of `Translate` that applies to byte `b` of an operand of `n` bytes at `a`. -/
def State.regionAt (s : State) (a : Word) (n b : Nat) : Option Region :=
  s.translation.find? fun r => r.covers s.cpl a n (s.byteAddr a b)

/-- What `Translate` answers for byte `b` of an operand of `n` bytes at `a`; where no case applies the byte is readable, as in
the flat instance of 20_memory.md R57. -/
def State.answerAt (s : State) (a : Word) (n b : Nat) : Answer :=
  match s.regionAt a n b with
  | some r => r.answer
  | none => .readable

/-- The fault of byte `b` of an operand of `n` bytes at `a`, if it faults. -/
def State.byteFault (s : State) (a : Word) (n b : Nat) : Option Fault :=
  (s.answerAt a n b).faultAt s.cpl (s.byteAddr a b)

/-- The faults the pieces of an operand would report: one of each run of bytes under one case, that of its first byte
(20_memory.md R61; assumption log 10). -/
def State.faults (s : State) (a : Word) (n : Nat) : List Fault :=
  (List.range n).filterMap fun b =>
    if b ≠ 0 ∧ s.regionAt a n (b - 1) = s.regionAt a n b then none else s.byteFault a n b

/-- The fault of an operand of `n` bytes at `a`: any faulting byte faults the whole. Which of several faults is reported is a
free value (20_memory.md R61; assumption log 9). -/
def State.memFault (s : State) (a : Word) (n : Nat) : Option Fault :=
  match s.faults a n with
  | [] => none
  | [f] => some f
  | f :: g :: fs => (f :: g :: fs)[Config.reportedFault s.translation s.mem s.cpl a n % (fs.length + 2)]?

/-- A byte of the operand lies in memory with read side effects (20_memory.md R63). -/
def State.touchesIo (s : State) (a : Word) (n : Nat) : Bool :=
  (List.range n).any fun b => s.answerAt a n b == .readSideEffects

/-- The `n` bytes at `a` as a value, the byte at `a` in bits 7:0 (20_memory.md R52). -/
def State.bytesAt (s : State) (a : Word) (n : Nat) : Zmm :=
  build 8 n fun b => Memory.read s.mem (s.byteAddr a b).toNat

/-- `MemRead(a, n)` through `Translate` (20_memory.md R57): its fault, the refusal of R63, or the bytes. -/
def State.memRead (s : State) (a : Word) (n : Nat) : Res Zmm :=
  match s.memFault a n with
  | some f => raise f
  | none => if s.touchesIo a n then .refused .readSideEffects else .next (s.bytesAt a n)

/-- A linear address is canonical when bits 63:47 are all equal (20_memory.md R58). -/
def canonical (a : Word) : Bool :=
  a.extractLsb' (Config.law - 1) (65 - Config.law) == 0#(65 - Config.law) ||
    a.extractLsb' (Config.law - 1) (65 - Config.law) == BitVec.allOnes (65 - Config.law)

/-! ### Fetching an instruction (10_state.md R33, R35; 20_memory.md R60, R66, R72; assumption log 18) -/

/-- The linear address of instruction byte `i`, if it neither wraps past the top of the address space (2^64 in Mode64; 2^32 in
Mode32, where CS has a base) nor, in Mode64, is non-canonical (10_state.md R35). That an instruction whose last byte is the last of
the address space runs, and that the step after it begins where `rip` wrapped to (R34), is DEDUCED (assumption log 18). -/
def State.fetchAddr (s : State) (i : Nat) : Option Word :=
  match s.mode with
  | .mode64 =>
    if s.rip.toNat + i < 2 ^ 64 ∧ canonical (s.rip + BitVec.ofNat 64 i) then some (s.rip + BitVec.ofNat 64 i) else none
  | .mode32 =>
    if s.segs.cs.base.toNat + s.rip.toNat + i < 2 ^ 32 then some (s.segs.cs.base + s.rip + BitVec.ofNat 64 i) else none
  | .realAddress => none
  | .virtual8086 => none
  | .systemManagement => none

/-- Instruction byte `i`, if it has an address. Code is always fetchable there: `Translate` is asked for data reads only
(20_memory.md R57, R66; 60_exceptions.md R218 (1)). -/
def State.fetchByte (s : State) (i : Nat) : Option Byte :=
  match s.fetchAddr i with
  | some a => some (Memory.read s.mem a.toNat)
  | none => none

/-- The fetchable bytes from byte `i` on, at most `n`. -/
def State.fetchFrom (s : State) : Nat → Nat → List Byte
  | 0, _ => []
  | n + 1, i =>
    match s.fetchByte i with
    | some b => b :: s.fetchFrom n (i + 1)
    | none => []

/-- The bytes the decoder sees: up to 15 from `rip` (30_encoding.md R80). -/
def State.window (s : State) : List Byte := s.fetchFrom Config.maxInstrBytes 0

/-- Fetch and decode one instruction. An instruction that does not end within 15 bytes is #GP(0) (30_encoding.md R109); one
with a byte that cannot be fetched is refused (10_state.md R35, 60_exceptions.md R218 (1)). A spelling the decoder refuses is refused
here, before the #UD and #NM conditions that read state, which the meaning of an instruction checks (60_exceptions.md R203, R204,
R213, R214): DEDUCED, assumption log 19. -/
def State.fetch (s : State) : Res Instr :=
  if s.mode.admitted then
    match decode s.mode s.window with
    | .ok i _ => .next i
    | .ud => raise .invalidOpcode
    | .refused r => .refused (.undecoded r)
    | .truncated => if s.window.length = Config.maxInstrBytes then raise .generalProtection else .refused .fetchOutside
  else .refused .unadmittedMode

end Sys2Proof.Machine
end

