-- ==== Sys2Proof/Machine/Flags.lean ====
section
/-! DEFINITION. The flags and control bits the spec names, and the checks that read them. No form of the instruction
computes, reads or writes a status flag or an MXCSR bit (10_state.md R36, R37); the bits read are the nine of R40. -/

namespace Sys2Proof.Machine

/-! ### Status flags of EFLAGS (10_state.md R36) and fields of MXCSR (R37): names of bits, read by no instruction -/

/-- EFLAGS.CF, bit 0. -/
def State.cf (s : State) : Bool := s.eflags.getLsbD 0
/-- EFLAGS.PF, bit 2. -/
def State.pf (s : State) : Bool := s.eflags.getLsbD 2
/-- EFLAGS.AF, bit 4. -/
def State.af (s : State) : Bool := s.eflags.getLsbD 4
/-- EFLAGS.ZF, bit 6. -/
def State.zf (s : State) : Bool := s.eflags.getLsbD 6
/-- EFLAGS.SF, bit 7. -/
def State.sf (s : State) : Bool := s.eflags.getLsbD 7
/-- EFLAGS.OF, bit 11. -/
def State.of (s : State) : Bool := s.eflags.getLsbD 11
/-- MXCSR exception flags IE, DE, ZE, OE, UE, PE, bits 0 to 5. -/
def State.mxcsrFlags (s : State) : BitVec 6 := s.mxcsr.extractLsb' 0 6
/-- MXCSR.DAZ, bit 6. -/
def State.daz (s : State) : Bool := s.mxcsr.getLsbD 6
/-- MXCSR exception masks, bits 7 to 12. -/
def State.mxcsrMasks (s : State) : BitVec 6 := s.mxcsr.extractLsb' 7 6
/-- MXCSR.RC, bits 14:13. -/
def State.roundingControl (s : State) : BitVec 2 := s.mxcsr.extractLsb' 13 2
/-- MXCSR.FTZ, bit 15. -/
def State.ftz (s : State) : Bool := s.mxcsr.getLsbD 15

/-! ### Control bits (10_state.md R40; CR0.PE of R242) -/

/-- CR0.PE, bit 0: protected mode entered (70_reset_and_hazards.md R242). -/
def State.cr0PE (s : State) : Bool := s.cr0.getLsbD 0
/-- CR0.EM, bit 2. -/
def State.cr0EM (s : State) : Bool := s.cr0.getLsbD 2
/-- CR0.TS, bit 3. -/
def State.cr0TS (s : State) : Bool := s.cr0.getLsbD 3
/-- CR4.OSFXSR, bit 9. -/
def State.osfxsr (s : State) : Bool := s.cr4.getLsbD 9
/-- CR4.OSXSAVE, bit 18. -/
def State.osxsave (s : State) : Bool := s.cr4.getLsbD 18
/-- XCR0[2:1] = 11b: SSE and AVX state enabled. -/
def State.avxState (s : State) : Bool := s.xcr0.extractLsb' 1 2 == 3#2
/-- XCR0[7:5] = 111b: opmask, ZMM_Hi256 and Hi16_ZMM state enabled. -/
def State.avx512State (s : State) : Bool := s.xcr0.extractLsb' 5 3 == 7#3

/-! ### The enabling checks (60_exceptions.md R203, R204, R213, R214, R218) -/

/-- VEX and EVEX are not recognised in real-address and virtual-8086 mode (60_exceptions.md R203, R213). -/
def noVex (m : Mode) : Bool := decide (m = .realAddress) || decide (m = .virtual8086)

/-- The #UD conditions of the legacy form that read state (60_exceptions.md R203). -/
def State.udSse (s : State) : Bool := s.cr0EM || !s.osfxsr || !s.features.sse

/-- The #UD conditions of the VEX forms that read state (60_exceptions.md R203). -/
def State.udVex (s : State) : Bool := !s.osxsave || !s.avxState || noVex s.mode || !s.features.avx

/-- The #UD conditions that every EVEX form reads from state (60_exceptions.md R213). -/
def State.udEvex (s : State) : Bool :=
  !s.osxsave || !s.avxState || !s.avx512State || noVex s.mode || !s.features.avx512f

/-- The #UD conditions of a form that read state; the 128- and 256-bit EVEX forms also need AVX512VL
(60_exceptions.md R203, R213; 00_scope.md R3). -/
def State.udState (s : State) : Form → Bool
  | .sse => s.udSse
  | .vex128 => s.udVex
  | .vex256 => s.udVex
  | .evex128 => s.udEvex || !s.features.avx512vl
  | .evex256 => s.udEvex || !s.features.avx512vl
  | .evex512 => s.udEvex

/-- The checks before any operand is read, in the order of 60_exceptions.md R218: #UD, then #NM. Both are raised in any
mode; a mode outside the spec is refused after them (00_scope.md R7; assumption log 21). `ud` is a #UD condition of the
instruction's own fields. -/
def State.enabled (s : State) (f : Form) (ud : Bool) : Res Unit :=
  if s.udState f || ud then raise .invalidOpcode
  else if s.cr0TS then raise .deviceNotAvailable
  else if s.mode.admitted then .next ()
  else .refused .unadmittedMode

end Sys2Proof.Machine
end

