-- ==== Sys2Proof/Machine/Operands.lean ====
section
/-! DEFINITION. Operands: effective address, segment, linear address, alignment, and the value of the second source in
every form (30_encoding.md R103 to R107; 20_memory.md R50 to R59; 42_vshufps_evex.md R171). -/

namespace Sys2Proof.Machine

/-! ### Effective address (20_memory.md R55, 30_encoding.md R103) -/

/-- The address size is 32 bits: in Mode32, and in Mode64 with the prefix 67H (30_encoding.md R82). -/
def State.addr32 (s : State) (p : Prefixes) : Bool := decide (s.mode = .mode32) || p.addrSize

/-- Truncate to the address size and extend with zeros (30_encoding.md R103). -/
def truncAddr (a32 : Bool) (v : Word) : Word := if a32 then low32 v else v

/-- `regN(i)` (30_encoding.md R103). -/
def State.regN (s : State) (a32 : Bool) (i : BitVec 4) : Word := truncAddr a32 (s.reg i)

/-- A displacement, sign-extended; an 8-bit one multiplied by `n`, which is 1 for the legacy and VEX forms
(30_encoding.md R104, R106). -/
def dispValue (n : Nat) : Disp → Word
  | .absent => 0#64
  | .disp8 d => d.signExtend 64 * BitVec.ofNat 64 n
  | .disp32 d => d.signExtend 64

/-- `indexpart`: index number 4 is no index (30_encoding.md R107). -/
def State.indexPart (s : State) (a32 : Bool) (scale : BitVec 2) (i : BitVec 4) : Word :=
  if i = 4#4 then 0#64 else s.regN a32 i <<< scale.toNat

/-- The effective address of a memory form; `len` is the instruction's length, for RIP-relative addressing (30_encoding.md
R103, R105, R107), and `n` the factor of an 8-bit displacement (R106). -/
def State.effAddr (s : State) (a32 : Bool) (len n : Nat) : MemForm → Word
  | .base b d => truncAddr a32 (s.regN a32 b + dispValue n d)
  | .sib sc i b d => truncAddr a32 (s.regN a32 b + s.indexPart a32 sc i + dispValue n d)
  | .sibNoBase sc i d => truncAddr a32 (s.indexPart a32 sc i + d.signExtend 64)
  | .dispOnly d =>
    if s.mode = .mode64 then truncAddr a32 (s.rip + BitVec.ofNat 64 len + d.signExtend 64) else zext64 d

/-! ### Segment and linear address (10_state.md R32, 20_memory.md R56, R58) -/

/-- The default segment: SS when the base register is number 4 or 5, else DS (10_state.md R32, 30_encoding.md R103). -/
def defaultSeg : MemForm → Seg
  | .base b _ => if b = 4#4 ∨ b = 5#4 then .ss else .ds
  | .sib _ _ b _ => if b = 4#4 ∨ b = 5#4 then .ss else .ds
  | .sibNoBase .. => .ds
  | .dispOnly _ => .ds

/-- The segment of a memory operand: an override replaces the default; in Mode64 only FS and GS apply (30_encoding.md
R82). -/
def State.segFor (s : State) (p : Prefixes) (m : MemForm) : Seg :=
  match p.seg with
  | none => defaultSeg m
  | some g => if s.mode = .mode64 ∧ g ≠ .fs ∧ g ≠ .gs then defaultSeg m else g

/-- `base(seg)`: in Mode64 only FS and GS contribute a base (10_state.md R32, 20_memory.md R56). -/
def State.segBase (s : State) (g : Seg) : Word :=
  if s.mode = .mode64 ∧ g ≠ .fs ∧ g ≠ .gs then 0#64 else (s.seg g).base

/-- The case of `SegOk` that a segment lists for an operand of `n` bytes at `ea`, if it lists one (20_memory.md R56). -/
def Segment.ruleFor (g : Segment) (ea : Word) (n : Nat) : Option SegRule :=
  g.rules.find? fun r =>
    decide (r.first ≤ ea.toNat) && decide (ea.toNat ≤ r.last) && (r.bytes == none || r.bytes == some n)

/-- The rights and limit check on an operand of `n` bytes outside Mode64 (20_memory.md R56; assumption log 12). -/
def Segment.inLimit (g : Segment) (ea : Word) (n : Nat) : Bool :=
  g.readable &&
    (if g.expandDown then decide (g.limit.toNat < ea.toNat) && decide (ea.toNat + n ≤ 2 ^ 32)
     else decide (ea.toNat + n ≤ g.limit.toNat + 1))

/-- A null selector in DS, ES, FS or GS, through which no memory operand is legal outside Mode64 (60_exceptions.md R206
(b)). PRESUMED: the null selectors are 0 to 3, the family's (assumption log 12). -/
def nullSelector (g : Seg) (selector : BitVec 16) : Bool :=
  match g with
  | .es => decide (selector.toNat < 4)
  | .cs => false
  | .ss => false
  | .ds => decide (selector.toNat < 4)
  | .fs => decide (selector.toNat < 4)
  | .gs => decide (selector.toNat < 4)

/-- `SegOk(seg, ea, n)` (20_memory.md R56): what the launch state lists for it, else the limit, rights and null-selector check
of 60_exceptions.md R205, R206 (b) (assumption log 12). -/
def State.segOk (s : State) (g : Seg) (ea : Word) (n : Nat) : Bool :=
  match (s.seg g).ruleFor ea n with
  | some r => r.legal
  | none => !nullSelector g (s.seg g).selector && (s.seg g).inLimit ea n

/-- An illegal address faults with #SS(0) through SS, else #GP(0) (60_exceptions.md R205, R206, R215). -/
def segFault (g : Seg) : Fault := if g = .ss then .stackSegment else .generalProtection

/-- Every byte of the operand is at a canonical address (20_memory.md R58). -/
def State.allCanonical (s : State) (a : Word) (n : Nat) : Bool := (List.range n).all fun b => canonical (s.byteAddr a b)

/-- `LinAddr(seg, ea)` with the checks of an operand of `n` bytes (20_memory.md R56, R58). -/
def State.linAddr (s : State) (g : Seg) (ea : Word) (n : Nat) : Res Word :=
  if s.mode = .mode64 then
    if s.allCanonical (s.segBase g + ea) n then .next (s.segBase g + ea) else raise (segFault g)
  else
    if s.segOk g ea n then .next (low32 (s.segBase g + ea)) else raise (segFault g)

/-! ### Memory operands (20_memory.md R50, R51, R54; 60_exceptions.md R218) -/

/-- What a form asks of a memory operand: the bytes read, the factor of an 8-bit displacement and whether the address must
be 16-byte aligned. -/
structure Access where
  bytes : Nat
  dispScale : Nat
  align : Bool
  deriving DecidableEq, Repr

/-- The full memory operand of a form: `VL/8` bytes; `disp8*N` for EVEX; alignment for the legacy form (20_memory.md R51,
R59; 30_encoding.md R106). -/
def accessOf : Form → Access
  | .sse => ⟨16, 1, true⟩
  | .vex128 => ⟨16, 1, false⟩
  | .vex256 => ⟨32, 1, false⟩
  | .evex128 => ⟨16, 16, false⟩
  | .evex256 => ⟨32, 32, false⟩
  | .evex512 => ⟨64, 64, false⟩

/-- The broadcast operand `m32bcst`: 4 bytes, `N = 4` (20_memory.md R51, R54; 30_encoding.md R106). -/
def bcstAccess : Access := ⟨4, 4, false⟩

/-- The linear address of a memory operand after its checks. A legacy operand through a segment whose base is not a multiple of
16 is refused (20_memory.md R59), before any of its faults (DEDUCED, assumption log 13); then the segment and canonical checks and
the legacy form's alignment, a linear address that is a multiple of 16 or #GP(0) (R59), in the order of 60_exceptions.md R218 (5),
(6) (assumption log 14). -/
def State.operandAddr (s : State) (c : Access) (p : Prefixes) (len : Nat) (m : MemForm) : Res Word :=
  if c.align && (s.segBase (s.segFor p m)).toNat % 16 != 0 then .refused .segmentBaseUnaligned
  else
    andThen (s.linAddr (s.segFor p m) (s.effAddr (s.addr32 p) len c.dispScale m) c.bytes) fun a =>
      if c.align && a.toNat % 16 != 0 then raise .generalProtection else .next a

/-- The value of a memory operand, in the low `8 * bytes` bits. -/
def State.memOperand (s : State) (c : Access) (p : Prefixes) (len : Nat) (m : MemForm) : Res Zmm :=
  andThen (s.operandAddr c p len m) fun a => s.memRead a c.bytes

/-- The second source of a legacy or VEX form (40_shufps_sse.md R135, 41_vshufps_vex.md R150, R151). Of a register only the
low `VL` bits are used. -/
def State.source2 (s : State) (f : Form) (p : Prefixes) (len : Nat) : RegMem → Res Zmm
  | .reg r => .next (s.vec (vreg r))
  | .mem m => s.memOperand (accessOf f) p len m

/-- `S2` of an EVEX form: a register, a full memory operand, or a 32-bit memory operand in every element
(42_vshufps_evex.md R171). -/
def State.source2Evex (s : State) (f : Form) (p : Prefixes) (len : Nat) : RegMemBcst → Res Zmm
  | .reg r => .next (s.vec r)
  | .mem m => s.memOperand (accessOf f) p len m
  | .bcst m => andThen (s.memOperand bcstAccess p len m) fun d => .next (build 32 f.kl fun _ => d.extractLsb' 0 32)

end Sys2Proof.Machine
end

