-- ==== Sys2Proof/Machine/Shuffle.lean ====
section
/-! DEFINITION. The function the instruction computes (40_shufps_sse.md R130 to R134) and the writemask of the EVEX forms
(42_vshufps_evex.md R172 to R174). It moves 32-bit patterns and interprets none (R134). -/

namespace Sys2Proof.Machine

/-- Element `j` of a vector, bits `32j+31 : 32j` (00_scope.md R15). -/
def elem (v : Zmm) (j : Nat) : BitVec 32 := v.extractLsb' (32 * j) 32

/-- 128-bit lane `l` of a vector, bits `128l+127 : 128l` (00_scope.md R15). -/
def lane (v : Zmm) (l : Nat) : BitVec 128 := v.extractLsb' (128 * l) 128

/-- `Select4(SRC, control)` (40_shufps_sse.md R130). -/
def select4 (src : BitVec 128) (control : BitVec 2) : BitVec 32 :=
  if control = 0#2 then src.extractLsb' 0 32
  else if control = 1#2 then src.extractLsb' 32 32
  else if control = 2#2 then src.extractLsb' 64 32
  else src.extractLsb' 96 32

/-- The select control of destination element `p` of a lane, `imm8[2p+1:2p]` (30_encoding.md R110). -/
def control (imm8 : BitVec 8) (p : Nat) : BitVec 2 := imm8.extractLsb' (2 * p) 2

/-- `Shuf128(a, b, imm8)` (40_shufps_sse.md R131). -/
def shuf128 (a b : BitVec 128) (imm8 : BitVec 8) : BitVec 128 :=
  select4 b (control imm8 3) ++ select4 b (control imm8 2) ++ select4 a (control imm8 1) ++ select4 a (control imm8 0)

/-- The shuffle of the low `n` lanes, other bits 0 (40_shufps_sse.md R132). -/
def shuffle (n : Nat) (a b : Zmm) (imm8 : BitVec 8) : Zmm := build 128 n fun l => shuf128 (lane a l) (lane b l) imm8

/-- The legacy result: the low lane is written, bits 511:128 keep their value (40_shufps_sse.md R135, 10_state.md R24). -/
def legacyResult (old b : Zmm) (imm8 : BitVec 8) : Zmm := old.extractLsb' 128 384 ++ shuf128 (lane old 0) (lane b 0) imm8

/-- Whether destination element `j` is written: no writemask (`aaa = 0`) or mask bit `j` is 1 (42_vshufps_evex.md R172,
10_state.md R27). -/
def State.writes (s : State) (aaa : BitVec 3) (j : Nat) : Bool := aaa == 0#3 || (s.mask aaa).getLsbD j

/-- The masking loop over `kl` elements: an element not written is zeroed (`z`) or keeps its old value; bits at and above
`32 * kl` are 0 (42_vshufps_evex.md R172 to R174). -/
def State.masked (s : State) (kl : Nat) (aaa : BitVec 3) (z : Bool) (old t : Zmm) : Zmm :=
  build 32 kl fun j => if s.writes aaa j then elem t j else if z then 0#32 else elem old j

end Sys2Proof.Machine
end

