-- ==== Sys2Proof/Machine/ShufpsSse.lean ====
section
/-! DEFINITION. The meaning of the legacy SSE form (40_shufps_sse.md R135, R136). -/

namespace Sys2Proof.Machine

/-- `SHUFPS xmm1, xmm2/m128, imm8` (40_shufps_sse.md R135): both sources are read before the destination is written
(R133). -/
def execShufps (p : Prefixes) (rex : Option Bool) (dst : BitVec 4) (src2 : RegMem) (imm8 : BitVec 8) (s : State) :
    Res State :=
  let len := instrLength p (rexHeader rex) src2.length
  andThen (s.enabled .sse false) fun _ =>
    andThen (s.source2 .sse p len src2) fun b =>
      .next ((s.setVec (vreg dst) (legacyResult (s.vec (vreg dst)) b imm8)).advance len)

end Sys2Proof.Machine
end

