-- ==== Sys2Proof/Machine/VshufpsEvex.lean ====
section
/-! DEFINITION. The meanings of the EVEX forms (42_vshufps_evex.md R170 to R179), one definition per row of the opcode table
over one shared operation. -/

namespace Sys2Proof.Machine

/-- `EvexShufps` (42_vshufps_evex.md R178): the checks, the second source in full whatever the mask (20_memory.md R71), the
shuffle, the masking loop, one write, `rip` advanced. `z` without a writemask is #UD (60_exceptions.md R213). -/
def evexOp (f : Form) (p : Prefixes) (dst src1 : BitVec 5) (src2 : RegMemBcst) (aaa : BitVec 3) (z : Bool)
    (imm8 : BitVec 8) (s : State) : Res State :=
  let len := instrLength p 5 src2.length
  andThen (s.enabled f (z && aaa == 0#3)) fun _ =>
    andThen (s.source2Evex f p len src2) fun b =>
      .next ((s.setVec dst (s.masked f.kl aaa z (s.vec dst) (shuffle f.lanes (s.vec src1) b imm8))).advance len)

/-- `VSHUFPS` EVEX.128 (42_vshufps_evex.md R175). -/
def execEvex128 (p : Prefixes) (dst src1 : BitVec 5) (src2 : RegMemBcst) (aaa : BitVec 3) (z : Bool) (imm8 : BitVec 8)
    (s : State) : Res State :=
  evexOp .evex128 p dst src1 src2 aaa z imm8 s

/-- `VSHUFPS` EVEX.256 (42_vshufps_evex.md R176). -/
def execEvex256 (p : Prefixes) (dst src1 : BitVec 5) (src2 : RegMemBcst) (aaa : BitVec 3) (z : Bool) (imm8 : BitVec 8)
    (s : State) : Res State :=
  evexOp .evex256 p dst src1 src2 aaa z imm8 s

/-- `VSHUFPS` EVEX.512 (42_vshufps_evex.md R177). -/
def execEvex512 (p : Prefixes) (dst src1 : BitVec 5) (src2 : RegMemBcst) (aaa : BitVec 3) (z : Bool) (imm8 : BitVec 8)
    (s : State) : Res State :=
  evexOp .evex512 p dst src1 src2 aaa z imm8 s

end Sys2Proof.Machine
end

