-- ==== Sys2Proof/Machine/VshufpsVex.lean ====
section
/-! DEFINITION. The meanings of the VEX forms (41_vshufps_vex.md R150 to R152), one definition per row of the opcode table
over one shared operation. -/

namespace Sys2Proof.Machine

/-- What every VEX form does: the checks, the second source, the shuffle of the form's lanes, the bits above `VL` zeroed,
`rip` advanced (41_vshufps_vex.md R150, R151). -/
def vexOp (f : Form) (p : Prefixes) (len : Nat) (dst src1 : BitVec 4) (src2 : RegMem) (imm8 : BitVec 8) (s : State) :
    Res State :=
  andThen (s.enabled f false) fun _ =>
    andThen (s.source2 f p len src2) fun b =>
      .next ((s.setVec (vreg dst) (shuffle f.lanes (s.vec (vreg src1)) b imm8)).advance len)

/-- `VSHUFPS xmm1, xmm2, xmm3/m128, imm8`, two-byte VEX (41_vshufps_vex.md R150). -/
def execVex128C5 (p : Prefixes) (dst src1 : BitVec 4) (src2 : RegMem) (imm8 : BitVec 8) (s : State) : Res State :=
  vexOp .vex128 p (instrLength p 3 src2.length) dst src1 src2 imm8 s

/-- `VSHUFPS xmm1, xmm2, xmm3/m128, imm8`, three-byte VEX; `W` is ignored (41_vshufps_vex.md R150). -/
def execVex128C4 (p : Prefixes) (dst src1 : BitVec 4) (src2 : RegMem) (imm8 : BitVec 8) (s : State) : Res State :=
  vexOp .vex128 p (instrLength p 4 src2.length) dst src1 src2 imm8 s

/-- `VSHUFPS ymm1, ymm2, ymm3/m256, imm8`, two-byte VEX (41_vshufps_vex.md R151). -/
def execVex256C5 (p : Prefixes) (dst src1 : BitVec 4) (src2 : RegMem) (imm8 : BitVec 8) (s : State) : Res State :=
  vexOp .vex256 p (instrLength p 3 src2.length) dst src1 src2 imm8 s

/-- `VSHUFPS ymm1, ymm2, ymm3/m256, imm8`, three-byte VEX; `W` is ignored (41_vshufps_vex.md R151). -/
def execVex256C4 (p : Prefixes) (dst src1 : BitVec 4) (src2 : RegMem) (imm8 : BitVec 8) (s : State) : Res State :=
  vexOp .vex256 p (instrLength p 4 src2.length) dst src1 src2 imm8 s

end Sys2Proof.Machine
end

