-- ==== Sys2Proof/Machine/Dispatch.lean ====
section
/-! DEFINITION. One arm per constructor of `Instr`, each one call of its meaning. -/

namespace Sys2Proof.Machine

/-- The meaning of an instruction (30_encoding.md R127). -/
def exec (i : Instr) (s : State) : Host.Outcome State Fault Refusal :=
  match i with
  | .shufps p rex dst src2 imm8 => Sys2Proof.Machine.execShufps p rex dst src2 imm8 s
  | .vshufpsVex128C5 p dst src1 src2 imm8 => Sys2Proof.Machine.execVex128C5 p dst src1 src2 imm8 s
  | .vshufpsVex128C4 p _ dst src1 src2 imm8 => Sys2Proof.Machine.execVex128C4 p dst src1 src2 imm8 s
  | .vshufpsVex256C5 p dst src1 src2 imm8 => Sys2Proof.Machine.execVex256C5 p dst src1 src2 imm8 s
  | .vshufpsVex256C4 p _ dst src1 src2 imm8 => Sys2Proof.Machine.execVex256C4 p dst src1 src2 imm8 s
  | .vshufpsEvex128 p dst src1 src2 aaa z imm8 => Sys2Proof.Machine.execEvex128 p dst src1 src2 aaa z imm8 s
  | .vshufpsEvex256 p dst src1 src2 aaa z imm8 => Sys2Proof.Machine.execEvex256 p dst src1 src2 aaa z imm8 s
  | .vshufpsEvex512 p dst src1 src2 aaa z imm8 => Sys2Proof.Machine.execEvex512 p dst src1 src2 aaa z imm8 s

end Sys2Proof.Machine
end

