-- ==== Sys2Proof/Machine/Step.lean ====
section
/-! DEFINITION. One step of the machine (00_scope.md R16), and the placing of one instruction where the next step fetches
it. -/

namespace Sys2Proof.Machine

/-- One step: fetch and decode the instruction at `rip`, then its meaning, which advances `rip` itself (00_scope.md R16). -/
def step (s : State) : Host.Outcome State Fault Refusal := andThen s.fetch fun i => exec i s

/-- The launch state that runs one instruction next (assumption log 5): Mode64 with protected mode entered and every form
enabled (70_reset_and_hazards.md R242), and the bytes of the table word at `rip`. -/
def State.withFetchWord (s : State) (nbits w : Nat) : State :=
  { s with
    mode := .mode64
    cr0 := (s.cr0 ||| 0x00000001#32) &&& 0xFFFFFFF3#32
    cr4 := s.cr4 ||| 0x00040200#32
    xcr0 := s.xcr0 ||| 0xE7#64
    mem := Memory.writeList s.mem s.rip.toNat (tableBytes nbits w) }

end Sys2Proof.Machine
end

