-- ==== Sys2Proof/Safety.lean ====
section
/-! DEFINITION. What counts as a run within the spec, in the terms the claims use: the enabling premise of 70_reset_and_hazards.md
R242, when a second source can be read and what it then holds, what a step may change, and the invariant of the machine.
Each is written from the spec's words, beside the functions the meanings call. -/

namespace Sys2Proof.Machine

/-! ### The launch premise -/

/-- `ShufpsEnabled(form)`: with it no #UD and no #NM condition of the state holds (70_reset_and_hazards.md R242). -/
def ShufpsEnabled (f : Form) (s : State) : Prop :=
  (s.mode = .mode64 ∨ s.mode = .mode32) ∧ s.cr0.getLsbD 3 = false ∧
    match f with
    | .sse => s.features.sse = true ∧ s.cr0.getLsbD 2 = false ∧ s.cr4.getLsbD 9 = true
    | .vex128 => s.features.avx = true ∧ s.cr4.getLsbD 18 = true ∧ s.xcr0.extractLsb' 1 2 = 3#2
    | .vex256 => s.features.avx = true ∧ s.cr4.getLsbD 18 = true ∧ s.xcr0.extractLsb' 1 2 = 3#2
    | .evex128 =>
      s.features.avx512f = true ∧ s.features.avx512vl = true ∧ s.cr4.getLsbD 18 = true ∧ s.xcr0.extractLsb' 1 2 = 3#2 ∧
        s.xcr0.extractLsb' 5 3 = 7#3
    | .evex256 =>
      s.features.avx512f = true ∧ s.features.avx512vl = true ∧ s.cr4.getLsbD 18 = true ∧ s.xcr0.extractLsb' 1 2 = 3#2 ∧
        s.xcr0.extractLsb' 5 3 = 7#3
    | .evex512 =>
      s.features.avx512f = true ∧ s.cr4.getLsbD 18 = true ∧ s.xcr0.extractLsb' 1 2 = 3#2 ∧ s.xcr0.extractLsb' 5 3 = 7#3

/-! ### Operands -/

/-- The linear address of a memory operand, before any check (20_memory.md R56). -/
def State.linear (s : State) (c : Access) (p : Prefixes) (len : Nat) (m : MemForm) : Word :=
  let v := s.segBase (s.segFor p m) + s.effAddr (s.addr32 p) len c.dispScale m
  if s.mode = .mode64 then v else low32 v

/-- The address is legal: every byte canonical in Mode64, inside the segment in Mode32 (20_memory.md R56, R58). -/
def AddressLegal (s : State) (c : Access) (p : Prefixes) (len : Nat) (m : MemForm) : Prop :=
  if s.mode = .mode64 then ∀ b < c.bytes, canonical (s.byteAddr (s.linear c p len m) b) = true
  else s.segOk (s.segFor p m) (s.effAddr (s.addr32 p) len c.dispScale m) c.bytes = true

/-- The alignment the form asks for holds: for the legacy form a linear address and a segment base that are multiples of 16
(20_memory.md R59). -/
def AddressAligned (s : State) (c : Access) (p : Prefixes) (len : Nat) (m : MemForm) : Prop :=
  c.align = true → (s.segBase (s.segFor p m)).toNat % 16 = 0 ∧ (s.linear c p len m).toNat % 16 = 0

/-- No byte of the operand faults or has read side effects (20_memory.md R57, R63). -/
def BytesReadable (s : State) (c : Access) (p : Prefixes) (len : Nat) (m : MemForm) : Prop :=
  ∀ b < c.bytes, s.byteFault (s.linear c p len m) c.bytes b = none ∧
    s.answerAt (s.linear c p len m) c.bytes b ≠ .readSideEffects

/-- A memory operand that can be read: legal, aligned, readable (70_reset_and_hazards.md R242). -/
def OperandOk (s : State) (c : Access) (p : Prefixes) (len : Nat) (m : MemForm) : Prop :=
  AddressLegal s c p len m ∧ AddressAligned s c p len m ∧ BytesReadable s c p len m

/-- The doubleword at byte `4j` of a memory operand, little-endian (20_memory.md R52, R53). -/
def State.dword (s : State) (a : Word) (j : Nat) : BitVec 32 :=
  Memory.read s.mem (s.byteAddr a (4 * j + 3)).toNat ++ Memory.read s.mem (s.byteAddr a (4 * j + 2)).toNat ++
    Memory.read s.mem (s.byteAddr a (4 * j + 1)).toNat ++ Memory.read s.mem (s.byteAddr a (4 * j)).toNat

/-- The second source of a legacy or VEX form can be read, and its elements are `x` (40_shufps_sse.md R135,
41_vshufps_vex.md R150, R151): a register's elements, or the doublewords of the memory operand. -/
def Source2Is (s : State) (f : Form) (p : Prefixes) (len : Nat) (src2 : RegMem) (x : Nat → BitVec 32) : Prop :=
  match src2 with
  | .reg r => ∀ j < f.kl, x j = elem (s.vec (vreg r)) j
  | .mem m => OperandOk s (accessOf f) p len m ∧ ∀ j < f.kl, x j = s.dword (s.linear (accessOf f) p len m) j

/-- The second source of an EVEX form can be read, and its elements are `x` (42_vshufps_evex.md R171): a register's
elements, the doublewords of the memory operand, or one doubleword in every element. -/
def Source2EvexIs (s : State) (f : Form) (p : Prefixes) (len : Nat) (src2 : RegMemBcst) (x : Nat → BitVec 32) : Prop :=
  match src2 with
  | .reg r => ∀ j < f.kl, x j = elem (s.vec r) j
  | .mem m => OperandOk s (accessOf f) p len m ∧ ∀ j < f.kl, x j = s.dword (s.linear (accessOf f) p len m) j
  | .bcst m => OperandOk s bcstAccess p len m ∧ ∀ j < f.kl, x j = s.dword (s.linear bcstAccess p len m) 0

/-- Element `e` of the shuffle of sources with elements `a` and `b` (40_shufps_sse.md R132): position `p = e mod 4` in lane
`e div 4` takes the element of that lane that `imm8[2p+1:2p]` names, from the first source for `p < 2`, else from the
second. -/
def shuffledElem (a b : Nat → BitVec 32) (imm8 : BitVec 8) (e : Nat) : BitVec 32 :=
  if e % 4 < 2 then a (4 * (e / 4) + (imm8.extractLsb' (2 * (e % 4)) 2).toNat)
  else b (4 * (e / 4) + (imm8.extractLsb' (2 * (e % 4)) 2).toNat)

/-! ### What the parts of an instruction are -/

/-- The destination register number of an instruction. -/
def dstOf : Instr → BitVec 5
  | .shufps _ _ dst _ _ => vreg dst
  | .vshufpsVex128C5 _ dst _ _ _ => vreg dst
  | .vshufpsVex128C4 _ _ dst _ _ _ => vreg dst
  | .vshufpsVex256C5 _ dst _ _ _ => vreg dst
  | .vshufpsVex256C4 _ _ dst _ _ _ => vreg dst
  | .vshufpsEvex128 _ dst _ _ _ _ _ => dst
  | .vshufpsEvex256 _ dst _ _ _ _ _ => dst
  | .vshufpsEvex512 _ dst _ _ _ _ _ => dst

/-- The memory form of a legacy or VEX operand with its access. -/
def regMemAccess (f : Form) : RegMem → Option (Access × MemForm)
  | .reg _ => none
  | .mem m => some (accessOf f, m)

/-- The memory form of an EVEX operand with its access. -/
def regMemBcstAccess (f : Form) : RegMemBcst → Option (Access × MemForm)
  | .reg _ => none
  | .mem m => some (accessOf f, m)
  | .bcst m => some (bcstAccess, m)

/-- The memory operand of an instruction, if it has one: what it asks of it and its form (20_memory.md R50). -/
def memoryOf (i : Instr) : Option (Access × MemForm) :=
  match i with
  | .shufps _ _ _ src2 _ => regMemAccess i.form src2
  | .vshufpsVex128C5 _ _ _ src2 _ => regMemAccess i.form src2
  | .vshufpsVex128C4 _ _ _ _ src2 _ => regMemAccess i.form src2
  | .vshufpsVex256C5 _ _ _ src2 _ => regMemAccess i.form src2
  | .vshufpsVex256C4 _ _ _ _ src2 _ => regMemAccess i.form src2
  | .vshufpsEvex128 _ _ _ src2 _ _ _ => regMemBcstAccess i.form src2
  | .vshufpsEvex256 _ _ _ src2 _ _ _ => regMemBcstAccess i.form src2
  | .vshufpsEvex512 _ _ _ src2 _ _ _ => regMemBcstAccess i.form src2

/-- The writemask field and `z` of an EVEX instruction. -/
def maskFieldsOf : Instr → Option (BitVec 3 × Bool)
  | .shufps .. => none
  | .vshufpsVex128C5 .. => none
  | .vshufpsVex128C4 .. => none
  | .vshufpsVex256C5 .. => none
  | .vshufpsVex256C4 .. => none
  | .vshufpsEvex128 _ _ _ _ aaa z _ => some (aaa, z)
  | .vshufpsEvex256 _ _ _ _ aaa z _ => some (aaa, z)
  | .vshufpsEvex512 _ _ _ _ aaa z _ => some (aaa, z)

/-- The general registers an addressing form names: its base and its index, number 4 as index being none (10_state.md R31,
30_encoding.md R107). -/
def memAddrRegs : MemForm → List (BitVec 4)
  | .base b _ => [b]
  | .sib _ i b _ => if i = 4#4 then [b] else [i, b]
  | .sibNoBase _ i _ => if i = 4#4 then [] else [i]
  | .dispOnly _ => []

/-- The general registers an instruction reads (10_state.md R31). -/
def addrRegsOf (i : Instr) : List (BitVec 4) :=
  match memoryOf i with
  | some (_, m) => memAddrRegs m
  | none => []

/-- An instruction whose own fields raise #UD: `z` with no writemask (60_exceptions.md R213). -/
def FieldsUd (i : Instr) : Prop := maskFieldsOf i = some (0#3, true)

/-- The #UD conditions of an instruction that reach its meaning: the enabling state and the feature flags of its form, and its
own fields (60_exceptions.md R203, R213). -/
def Disabled (i : Instr) (s : State) : Prop :=
  FieldsUd i ∨
    match i.form with
    | .sse => s.cr0.getLsbD 2 = true ∨ s.cr4.getLsbD 9 = false ∨ s.features.sse = false
    | .vex128 => s.cr4.getLsbD 18 = false ∨ s.xcr0.extractLsb' 1 2 ≠ 3#2 ∨ s.features.avx = false ∨
        s.mode = .realAddress ∨ s.mode = .virtual8086
    | .vex256 => s.cr4.getLsbD 18 = false ∨ s.xcr0.extractLsb' 1 2 ≠ 3#2 ∨ s.features.avx = false ∨
        s.mode = .realAddress ∨ s.mode = .virtual8086
    | .evex128 => s.cr4.getLsbD 18 = false ∨ s.xcr0.extractLsb' 1 2 ≠ 3#2 ∨ s.xcr0.extractLsb' 5 3 ≠ 7#3 ∨
        s.features.avx512f = false ∨ s.features.avx512vl = false ∨ s.mode = .realAddress ∨ s.mode = .virtual8086
    | .evex256 => s.cr4.getLsbD 18 = false ∨ s.xcr0.extractLsb' 1 2 ≠ 3#2 ∨ s.xcr0.extractLsb' 5 3 ≠ 7#3 ∨
        s.features.avx512f = false ∨ s.features.avx512vl = false ∨ s.mode = .realAddress ∨ s.mode = .virtual8086
    | .evex512 => s.cr4.getLsbD 18 = false ∨ s.xcr0.extractLsb' 1 2 ≠ 3#2 ∨ s.xcr0.extractLsb' 5 3 ≠ 7#3 ∨
        s.features.avx512f = false ∨ s.mode = .realAddress ∨ s.mode = .virtual8086

/-- An instruction whose enabling checks pass (70_reset_and_hazards.md R242). -/
def Ready (i : Instr) (s : State) : Prop := ShufpsEnabled i.form s ∧ ¬ FieldsUd i

/-- A displacement as a signed number, an 8-bit one times `n` (30_encoding.md R104, R106). -/
def dispInt (n : Nat) : Disp → Int
  | .absent => 0
  | .disp8 d => d.toInt * n
  | .disp32 d => d.toInt

/-- The index part of a SIB form as a number: index number 4 is no index (30_encoding.md R107). -/
def indexNat (s : State) (scale : BitVec 2) (i : BitVec 4) : Nat := if i = 4#4 then 0 else (s.reg i).toNat * 2 ^ scale.toNat

/-- The legacy prefix bytes: segment overrides, 67H, 66H, LOCK, F2H and F3H (30_encoding.md R82, R83). -/
def legacyPrefixBytes : List Byte := [0x26, 0x2E, 0x36, 0x3E, 0x64, 0x65, 0x66, 0x67, 0xF0, 0xF2, 0xF3]

/-! ### Change and invariance -/

/-- Apply a change of state to a next state. -/
def mapNext (g : State → State) (o : Res State) : Res State :=
  match o with
  | .next t => .next (g t)
  | .fault r => .fault r
  | .refused r => .refused r

/-- Everything but vector register `dst` and `rip` is as before (10_state.md R46). -/
def SameExcept (dst : BitVec 5) (s t : State) : Prop :=
  (∀ r, r ≠ dst → t.vec r = s.vec r) ∧ t.k = s.k ∧ t.gpr = s.gpr ∧ t.eflags = s.eflags ∧ t.mxcsr = s.mxcsr ∧
    t.x87 = s.x87 ∧ t.segs = s.segs ∧ t.cr0 = s.cr0 ∧ t.cr4 = s.cr4 ∧ t.xcr0 = s.xcr0 ∧ t.mode = s.mode ∧ t.cpl = s.cpl ∧
    t.features = s.features ∧ t.translation = s.translation ∧ ∀ a, Memory.read t.mem a = Memory.read s.mem a

/-- The invariant of the machine: memory is in canonical form, `rip[63:32] = 0` in Mode32 (10_state.md R33), and the mode
agrees with CR0.PE: protected mode is entered in Mode64 and Mode32 (70_reset_and_hazards.md R242) and not in real-address
mode (10_state.md R45). -/
def Invariant (s : State) : Prop :=
  Memory.wf s.mem = true ∧ (s.mode = .mode32 → s.rip.toNat < 2 ^ 32) ∧
    (s.mode = .mode64 ∨ s.mode = .mode32 → s.cr0.getLsbD 0 = true) ∧
    (s.mode = .realAddress → s.cr0.getLsbD 0 = false)

end Sys2Proof.Machine
end

