-- ==== Sys2Proof/Certificates/Slice0/Obligations.lean ====
section
/-! DEFINITION. The statements for the provers, each a rule of spec/ said of this model. -/

open Sys2Proof Sys2Proof.Machine

/-! ### Encoding -/

/-- One word of each row, laid out from the spec's encodings (95_test_vectors.md section 2.8 and 30_encoding.md R91, R92, R97),
decodes to the instruction it stands for. -/
def Obligations.TableWordsDecode : Prop :=
  decode .mode64 [0x45, 0x0F, 0xC6, 0x44, 0x8D, 0x08, 0x39] =
      .ok (.shufps ⟨none, false⟩ (some false) 8 (.mem (.sib 2 1 13 (.disp8 0x08))) 0x39) [] ∧
  decode .mode64 [0xC5, 0xF8, 0xC6, 0xD1, 0x44] = .ok (.vshufpsVex128C5 ⟨none, false⟩ 2 0 (.reg 1) 0x44) [] ∧
  decode .mode64 [0xC5, 0xEC, 0xC6, 0x57, 0x20, 0x4E] =
      .ok (.vshufpsVex256C5 ⟨none, false⟩ 2 2 (.mem (.base 7 (.disp8 0x20))) 0x4E) [] ∧
  decode .mode64 [0xC4, 0xC1, 0x70, 0xC6, 0xC1, 0x1B] = .ok (.vshufpsVex128C4 ⟨none, false⟩ false 0 1 (.reg 9) 0x1B) [] ∧
  decode .mode64 [0xC4, 0xC1, 0xF4, 0xC6, 0xC1, 0x1B] = .ok (.vshufpsVex256C4 ⟨none, false⟩ true 0 1 (.reg 9) 0x1B) [] ∧
  decode .mode64 [0x62, 0xF1, 0x6C, 0x09, 0xC6, 0xCB, 0x1B] =
      .ok (.vshufpsEvex128 ⟨none, false⟩ 1 2 (.reg 3) 1 false 0x1B) [] ∧
  decode .mode64 [0x62, 0xF1, 0x74, 0x38, 0xC6, 0x40, 0x02, 0x00] =
      .ok (.vshufpsEvex256 ⟨none, false⟩ 0 1 (.bcst (.base 0 (.disp8 0x02))) 0 false 0x00) [] ∧
  decode .mode64 [0x62, 0xA1, 0x6C, 0x40, 0xC6, 0xCB, 0x72] =
      .ok (.vshufpsEvex512 ⟨none, false⟩ 17 18 (.reg 19) 0 false 0x72) []

/-- Decoding what the encoder writes for a well-formed instruction gives that instruction and the bytes after it, in either
mode, with every operand at every value (30_encoding.md R81 to R107, R114). -/
def Obligations.DecodeOfEncode : Prop :=
  ∀ (m : Mode) (i : Instr) (rest : List Byte), i.wf m = true → decode m (encode i ++ rest) = .ok i rest

/-- Whatever bytes decode to an instruction, it is well-formed for the mode and takes as many bytes as its length says
(30_encoding.md R108, R114). -/
def Obligations.DecodedIsWellFormed : Prop :=
  ∀ (m : Mode) (bs rest : List Byte) (i : Instr), decode m bs = .ok i rest →
    i.wf m = true ∧ bs.length = i.length + rest.length

/-- 30_encoding.md R83. A LOCK, F2H or F3H prefix anywhere among the prefixes makes every form #UD; 66H makes the legacy form
another instruction, which is refused, and a VEX or EVEX form #UD; so does, in Mode64, a REX byte anywhere among the prefixes of a
VEX or EVEX form. -/
def Obligations.ForbiddenPrefixes : Prop :=
  ∀ (m : Mode) (i : Instr) (l₁ l₂ rest : List Byte), i.wf m = true → i.prefixes.bytes = l₁ ++ l₂ →
    (∀ b ∈ ([0xF0, 0xF2, 0xF3] : List Byte), decode m (l₁ ++ b :: (l₂ ++ encodeBody i ++ rest)) = .ud) ∧
    (i.form = .sse → decode m (l₁ ++ 0x66 :: (l₂ ++ encodeBody i ++ rest)) = .refused .shufpd) ∧
    (i.form ≠ .sse → decode m (l₁ ++ 0x66 :: (l₂ ++ encodeBody i ++ rest)) = .ud) ∧
    (m = .mode64 → i.form ≠ .sse → ∀ r : Byte, 0x40#8 ≤ r → r ≤ 0x4F#8 →
      decode m (l₁ ++ r :: (l₂ ++ encodeBody i ++ rest)) = .ud)

/-- A forbidden prefix makes an instruction #UD whatever else stands before it: several segment overrides, repeated 67H, 67H in
Mode32, 66H, REX bytes that are not adjacent. That #UD comes before the refusals of 30_encoding.md R82, R83 and R88 is the model's
choice, log entry 19. -/
def Obligations.ForbiddenPrefixBeforeRefusals : Prop :=
  ∀ (m : Mode) (i : Instr) (l rest : List Byte), i.wf m = true →
    (∀ b ∈ l, b ∈ legacyPrefixBytes ∨ m = .mode64 ∧ 0x40#8 ≤ b ∧ b ≤ 0x4F#8) →
    (m = .mode32 → 0x67#8 ∈ l → 2 ≤ rest.length) →
    (0xF0#8 ∈ l ∨ 0xF2#8 ∈ l ∨ 0xF3#8 ∈ l ∨
      i.form ≠ .sse ∧ (0x66#8 ∈ l ∨ m = .mode64 ∧ ∃ b ∈ l, 0x40#8 ≤ b ∧ b ≤ 0x4F#8)) →
    decode m (l ++ (encodeBody i ++ rest)) = .ud

/-- The prefix spellings that are refused (30_encoding.md R82, R88): more than one segment override or more than one 67H, in
Mode32 any 67H (16-bit addressing), and in Mode64 a REX byte of the legacy form that another prefix or REX byte follows. Which refusal is answered where two apply (67H twice in Mode32, a
REX byte before two overrides) is the model's order, log entry 19, and so is that the end of a form with 67H in Mode32 is told by the
16-bit ModRM table; since that end may lie behind the 32-bit one, two bytes after the instruction are given there. -/
def Obligations.PrefixSpellingsRefused : Prop :=
  ∀ (m : Mode) (i : Instr) (l rest : List Byte), i.wf m = true →
    (∀ b ∈ l, b ∈ ([0x26, 0x2E, 0x36, 0x3E, 0x64, 0x65, 0x67] : List Byte)) →
    (m = .mode64 ∨ 0x67#8 ∉ l → 2 ≤ l.countP (· ≠ 0x67#8) ∨ 2 ≤ l.count 0x67#8 →
      decode m (l ++ (encodeBody i ++ rest)) = .refused .repeatedPrefix) ∧
    (m = .mode32 → 0x67#8 ∈ l → 2 ≤ rest.length → decode m (l ++ (encodeBody i ++ rest)) = .refused .address16) ∧
    (m = .mode64 → i.form = .sse → ∀ r : Byte, 0x40#8 ≤ r → r ≤ 0x4F#8 → l ≠ [] →
      decode m (r :: (l ++ (encodeBody i ++ rest))) = .refused .rexNotAdjacent) ∧
    (m = .mode64 → ∀ r r' : Byte, 0x40#8 ≤ r → r ≤ 0x4F#8 → 0x40#8 ≤ r' → r' ≤ 0x4F#8 → ∀ t : Tail,
      decodeTail (r'.extractLsb' 1 1) (r'.extractLsb' 0 1) rest = some t →
      decode m (r :: r' :: 0x0F :: 0xC6 :: rest) = .refused .rexNotAdjacent)

/-- In Mode64, and in Mode32 where the bytes are a VEX prefix (30_encoding.md R95), after any admitted prefixes and with the opcode
byte C6H: under map 00001 `pp = 01` is refused as VSHUFPD and `pp = 10` or `11` is #UD (R93), another map is another instruction,
refused (R112, R114). For #UD the rest of the instruction must be there, else the bytes end too early; that #UD comes before the
refusal of an ignored bit in Mode32 is the model's choice, log entry 19. -/
def Obligations.VexFieldValues : Prop :=
  ∀ (m : Mode) (p : Prefixes) (b₁ b₂ : Byte) (rest : List Byte), m = .mode64 ∨ m = .mode32 ∧ b₁.extractLsb' 6 2 = 3#2 →
    p.wf m = true →
    (b₁.extractLsb' 0 2 = 1#2 → decode m (p.bytes ++ 0xC5 :: b₁ :: 0xC6 :: rest) = .refused .vshufpd) ∧
    (b₁.extractLsb' 0 2 = 2#2 ∨ b₁.extractLsb' 0 2 = 3#2 → (decodeTail 0#1 0#1 rest).isSome = true →
      decode m (p.bytes ++ 0xC5 :: b₁ :: 0xC6 :: rest) = .ud) ∧
    (b₁.extractLsb' 0 5 = 1#5 →
      (b₂.extractLsb' 0 2 = 1#2 → decode m (p.bytes ++ 0xC4 :: b₁ :: b₂ :: 0xC6 :: rest) = .refused .vshufpd) ∧
      (b₂.extractLsb' 0 2 = 2#2 ∨ b₂.extractLsb' 0 2 = 3#2 → (decodeTail 0#1 0#1 rest).isSome = true →
        decode m (p.bytes ++ 0xC4 :: b₁ :: b₂ :: 0xC6 :: rest) = .ud)) ∧
    (b₁.extractLsb' 0 5 ≠ 1#5 → decode m (p.bytes ++ 0xC4 :: b₁ :: b₂ :: 0xC6 :: rest) = .refused .otherInstruction)

/-- In Mode64, and in Mode32 where the bytes are an EVEX prefix (30_encoding.md R102), after any admitted prefixes, with the opcode
byte C6H and the rest of the instruction there: a wrong fixed field, or `mm = 00`, is #UD; with the fixed fields, map and `pp = 00`
right, `W = 1` or `L'L = 11` is #UD (R98, R112). That #UD holds whatever `pp` and the other fields are, and in Mode32 comes before
the refusal of an ignored bit, is the model's choice, log entry 19. -/
def Obligations.EvexReservedFieldsAreUd : Prop :=
  ∀ (m : Mode) (p : Prefixes) (p₀ p₁ p₂ : Byte) (rest : List Byte), m = .mode64 ∨ m = .mode32 ∧ p₀.extractLsb' 6 2 = 3#2 →
    p.wf m = true → (decodeTail 0#1 0#1 rest).isSome = true →
    (p₀.extractLsb' 2 2 ≠ 0#2 ∨ p₁.extractLsb' 2 1 = 0#1 ∨ p₀.extractLsb' 0 2 = 0#2 →
      decode m (p.bytes ++ 0x62 :: p₀ :: p₁ :: p₂ :: 0xC6 :: rest) = .ud) ∧
    (p₀.extractLsb' 0 4 = 1#4 → p₁.extractLsb' 0 3 = 4#3 → (p₁.extractLsb' 7 1 = 1#1 ∨ p₂.extractLsb' 5 2 = 3#2) →
      decode m (p.bytes ++ 0x62 :: p₀ :: p₁ :: p₂ :: 0xC6 :: rest) = .ud)

/-- In Mode64, and in Mode32 where the bytes are an EVEX prefix (30_encoding.md R102), after any admitted prefixes: an opcode byte
other than C6H is another instruction, refused (R114). With C6H and the fixed fields right, so is a map other than 01 (R98, R114),
`pp = 01` is refused as VSHUFPD (R98, R112), and `pp = 10` or `11`, of which the spec says nothing, is refused as another
instruction. The last, and that these refusals come before the end of the bytes and every #UD (for the opcode byte, a wrong fixed
field included), are the model's choice, log entry 19. -/
def Obligations.EvexOtherInstructionsRefused : Prop :=
  ∀ (m : Mode) (p : Prefixes) (p₀ p₁ p₂ : Byte) (rest : List Byte), m = .mode64 ∨ m = .mode32 ∧ p₀.extractLsb' 6 2 = 3#2 →
    p.wf m = true →
    (∀ op : Byte, op ≠ 0xC6#8 → decode m (p.bytes ++ 0x62 :: p₀ :: p₁ :: p₂ :: op :: rest) = .refused .otherInstruction) ∧
    (p₀.extractLsb' 2 2 = 0#2 → p₁.extractLsb' 2 1 = 1#1 →
      (p₀.extractLsb' 0 2 = 2#2 ∨ p₀.extractLsb' 0 2 = 3#2 →
        decode m (p.bytes ++ 0x62 :: p₀ :: p₁ :: p₂ :: 0xC6 :: rest) = .refused .otherInstruction) ∧
      (p₀.extractLsb' 0 2 = 1#2 →
        (p₁.extractLsb' 0 2 = 1#2 → decode m (p.bytes ++ 0x62 :: p₀ :: p₁ :: p₂ :: 0xC6 :: rest) = .refused .vshufpd) ∧
        (p₁.extractLsb' 0 2 = 2#2 ∨ p₁.extractLsb' 0 2 = 3#2 →
          decode m (p.bytes ++ 0x62 :: p₀ :: p₁ :: p₂ :: 0xC6 :: rest) = .refused .otherInstruction)))

/-- In Mode64, and in Mode32 where the bytes are an EVEX prefix (30_encoding.md R102), after any admitted prefixes, with the fixed
EVEX fields right: `b = 1` with a register second source is #UD (R99), and `z = 1` with `aaa = 000` is #UD whatever the operand
(R100, R112). That #UD comes before the refusal of an ignored bit in Mode32 is the model's choice, log entry 19. -/
def Obligations.EvexOperandFieldsAreUd : Prop :=
  ∀ (m : Mode) (p : Prefixes) (p₀ p₁ p₂ : Byte), m = .mode64 ∨ m = .mode32 ∧ p₀.extractLsb' 6 2 = 3#2 → p.wf m = true →
    p₀.extractLsb' 0 4 = 1#4 → p₁.extractLsb' 0 3 = 4#3 → p₁.extractLsb' 7 1 = 0#1 → p₂.extractLsb' 5 2 ≠ 3#2 →
    (∀ (modrm imm8 : Byte) (rest : List Byte), modrm.extractLsb' 6 2 = 3#2 → p₂.extractLsb' 4 1 = 1#1 →
      decode m (p.bytes ++ 0x62 :: p₀ :: p₁ :: p₂ :: 0xC6 :: modrm :: imm8 :: rest) = .ud) ∧
    (∀ rest : List Byte, p₂.extractLsb' 7 1 = 1#1 → p₂.extractLsb' 0 3 = 0#3 → (decodeTail 0#1 0#1 rest).isSome = true →
      decode m (p.bytes ++ 0x62 :: p₀ :: p₁ :: p₂ :: 0xC6 :: rest) = .ud)

/-- Mode32 (30_encoding.md R95, R102, decision D17): a three-byte VEX or an EVEX spelling that is right in every other field but
relies on an ignored bit is refused: `B` inverted or bit 3 of `vvvv` inverted 0 under VEX; `B`, `R'`, bit 3 of `vvvv` or `V'`, all
inverted, 0 under EVEX. -/
def Obligations.IgnoredBitsRefused : Prop :=
  ∀ (p : Prefixes) (rest : List Byte) (t : Tail), p.wf .mode32 = true → decodeTail 0#1 0#1 rest = some t →
    (∀ b₁ b₂ : Byte, b₁.extractLsb' 6 2 = 3#2 → b₁.extractLsb' 0 5 = 1#5 → b₂.extractLsb' 0 2 = 0#2 →
      (b₁.extractLsb' 5 1 = 0#1 ∨ b₂.extractLsb' 6 1 = 0#1) →
      decode .mode32 (p.bytes ++ 0xC4 :: b₁ :: b₂ :: 0xC6 :: rest) = .refused .ignoredBit) ∧
    (∀ p₀ p₁ p₂ : Byte, p₀.extractLsb' 6 2 = 3#2 → p₀.extractLsb' 0 4 = 1#4 → p₁.extractLsb' 0 3 = 4#3 →
      p₁.extractLsb' 7 1 = 0#1 → p₂.extractLsb' 5 2 ≠ 3#2 → (p₂.extractLsb' 7 1 = 1#1 → p₂.extractLsb' 0 3 ≠ 0#3) →
      (t.rm.isReg = true → p₂.extractLsb' 4 1 = 0#1) →
      (p₀.extractLsb' 5 1 = 0#1 ∨ p₀.extractLsb' 4 1 = 0#1 ∨ p₁.extractLsb' 6 1 = 0#1 ∨ p₂.extractLsb' 3 1 = 0#1) →
      decode .mode32 (p.bytes ++ 0x62 :: p₀ :: p₁ :: p₂ :: 0xC6 :: rest) = .refused .ignoredBit)

/-! ### The step -/

/-- When the bytes at `rip` decode to an instruction, a step is that instruction's meaning at that state (00_scope.md R16). The
meaning itself advances `rip`; the step adds nothing. -/
def Obligations.StepRunsDecodedInstruction : Prop :=
  ∀ (s : State) (i : Instr) (rest : List Byte), s.mode.admitted = true → decode s.mode s.window = .ok i rest →
    step s = exec i s

/-- When the bytes fetched from `rip` on are the encoding of a well-formed instruction, whatever follows them, a step is that
instruction's meaning (00_scope.md R16, 30_encoding.md R80). -/
def Obligations.EncodedInstructionSteps : Prop :=
  ∀ (s : State) (i : Instr), i.wf s.mode = true → (∀ j < i.length, s.fetchByte j = (encode i)[j]?) → step s = exec i s

/-- Bytes of which the decoder still needs more after the fifteenth are #GP(0), as 15 prefix bytes show; no instruction of the
admitted subset is that long, the longest having 14 bytes (30_encoding.md R109). What counts as too long is the model's, log entries
18 and 19: another instruction, known by its opcode, map or VEX or EVEX `pp`, is refused before the end of the bytes is looked for,
and the end before any #UD or other refusal. -/
def Obligations.OverLongInstruction : Prop :=
  (∀ s : State, s.mode.admitted = true → s.window.length = 15 → decode s.mode s.window = .truncated →
    step s = .fault .generalProtection) ∧
  (∀ s : State, s.mode.admitted = true →
    (∀ j < 15, ∃ b, s.fetchByte j = some b ∧ b ∈ ([0x26, 0x2E, 0x36, 0x3E, 0x64, 0x65, 0x66, 0x67, 0xF0, 0xF2, 0xF3] : List Byte)) →
    step s = .fault .generalProtection) ∧
  (∀ (m : Mode) (i : Instr), i.wf m = true → i.length ≤ 14) ∧
  (∃ i : Instr, i.wf .mode64 = true ∧ i.length = 14)

/-- A form after so many prefix bytes that it is longer than 15 bytes is #GP(0) (30_encoding.md R109), before it is #UD by a
forbidden prefix (60_exceptions.md R218 (2), (3)) and before repeated prefixes are refused; the latter is the model's choice, log
entry 19. With 67H in Mode32, whose end the 16-bit ModRM table gives, nothing is said. -/
def Obligations.OverLongFormIsGp : Prop :=
  ∀ (s : State) (i : Instr) (l : List Byte), i.wf s.mode = true → (∀ b ∈ l, b ∈ legacyPrefixBytes) →
    (s.mode = .mode32 → 0x67#8 ∉ l) → 15 < l.length + (encodeBody i).length →
    (∀ j < 15, s.fetchByte j = (l ++ encodeBody i)[j]?) → step s = .fault .generalProtection

/-- An instruction byte has no address that can be fetched exactly when it wraps past the top of the address space or in Mode64 is
not canonical, and an instruction with such a byte is refused (10_state.md R35); elsewhere it is the byte of memory, whatever
`Translate` answers for data reads (20_memory.md R57, R66). The address itself is the model's choice, log entry 18: `rip` plus the
byte's number in Mode64, in Mode32 the CS base added too, with no reduction before the test and no check of the CS limit. -/
def Obligations.UnfetchableInstructionRefused : Prop :=
  (∀ (s : State) (j : Nat), s.mode = .mode64 →
    s.fetchByte j = if s.rip.toNat + j < 2 ^ 64 ∧ canonical (s.rip + BitVec.ofNat 64 j) = true then
      some (Memory.read s.mem (s.rip.toNat + j)) else none) ∧
  (∀ (s : State) (j : Nat), s.mode = .mode32 →
    s.fetchByte j = if s.segs.cs.base.toNat + s.rip.toNat + j < 2 ^ 32 then
      some (Memory.read s.mem (s.segs.cs.base.toNat + s.rip.toNat + j)) else none) ∧
  (∀ (s : State) (i : Instr) (n : Nat), i.wf s.mode = true → n < i.length → (∀ j < n, s.fetchByte j = (encode i)[j]?) →
    s.fetchByte n = none → step s = .refused .fetchOutside)

/-- A step that completes changes only one vector register and `rip`: the destination and the length are those of the instruction
the fetched bytes decode to (10_state.md R46, which the spec marks as derived; 30_encoding.md R108). -/
def Obligations.StepWritesOneVectorAndRip : Prop :=
  ∀ s t : State, step s = .next t → ∃ (i : Instr) (v : Zmm) (rest : List Byte), decode s.mode s.window = .ok i rest ∧
    i.wf s.mode = true ∧ 4 ≤ i.length ∧ i.length ≤ 14 ∧ t = (s.setVec (dstOf i) v).advance i.length

/-- Every step keeps the invariant: memory in canonical form, `rip[63:32] = 0` in Mode32 (10_state.md R33), the mode and CR0.PE
in agreement (70_reset_and_hazards.md R242, 10_state.md R45). -/
def Obligations.StepKeepsInvariant : Prop := ∀ s t : State, Invariant s → step s = .next t → Invariant t

/-- The invariant holds right after reset. -/
def Obligations.InvariantAtReset : Prop := Invariant State.reset

/-! ### Reset -/

/-- The values 10_state.md R45 and 70_reset_and_hazards.md R241 give for power-up; nothing is said of the values the table calls
unspecified or leaves out. -/
def Obligations.ResetValues : Prop :=
  (∀ r : BitVec 5, r.toNat < 16 → (State.reset.vec r).extractLsb' 0 128 = 0#128) ∧
  State.reset.mxcsr = 0x1F80#32 ∧ State.reset.eflags = 0x00000002#32 ∧ State.reset.rip = 0x0000FFF0#64 ∧
  State.reset.segs.cs.selector = 0xF000#16 ∧ State.reset.segs.cs.base = 0xFFFF0000#64 ∧
  State.reset.segs.cs.limit = 0xFFFF#32 ∧ State.reset.cr0 = 0x60000010#32 ∧ State.reset.cr4 = 0x00000000#32 ∧
  State.reset.xcr0 = 0x0000000000000001#64 ∧ State.reset.mode = .realAddress ∧ State.reset.cpl = 0#2 ∧
  (∀ r ∈ ([1, 3, 4, 5, 6, 7] : List (BitVec 4)), (State.reset.reg r).extractLsb' 0 32 = 0#32)

/-- After reset every form of the instruction raises #UD (70_reset_and_hazards.md R240, 10_state.md R45), and a step gives the
mode no meaning (00_scope.md R7). -/
def Obligations.ResetDisablesEveryForm : Prop :=
  (∀ i : Instr, exec i State.reset = .fault .invalidOpcode) ∧ step State.reset = .refused .unadmittedMode

/-- What INIT leaves, by the INIT column of 10_state.md R45: the vector and opmask registers, MXCSR and XCR0 unchanged, CR0 at
60000010H but for CD and NW, which are unchanged, and the rest of the table. That CD and NW are bits 30 and 29 is PRESUMED, log
entry 26. -/
def Obligations.InitSignalValues : Prop :=
  ∀ s t : State, t = s.initSignal →
    t.zmm = s.zmm ∧ t.k = s.k ∧ t.mxcsr = s.mxcsr ∧ t.xcr0 = s.xcr0 ∧ t.eflags = 0x00000002#32 ∧ t.rip = 0x0000FFF0#64 ∧
    t.segs.cs.selector = 0xF000#16 ∧ t.segs.cs.base = 0xFFFF0000#64 ∧ t.segs.cs.limit = 0xFFFF#32 ∧
    t.cr4 = 0x00000000#32 ∧ t.mode = .realAddress ∧
    (∀ j, j < 32 → t.cr0.getLsbD j =
      if j = 29 ∨ j = 30 then s.cr0.getLsbD j else (0x60000010#32).getLsbD j) ∧
    (∀ r : BitVec 4, r ≠ 2#4 → (t.reg r).extractLsb' 0 32 = 0#32) ∧ (∀ r : BitVec 4, 8 ≤ r.toNat → t.reg r = 0#64)

/-! ### The shuffle -/

/-- 40_shufps_sse.md R130: `Select4(SRC, c) = SRC[32c+31 : 32c]`, arm by arm as the source writes it. -/
def Obligations.SelectFour : Prop :=
  (∀ (src : BitVec 128) (c : BitVec 2), select4 src c = src.extractLsb' (32 * c.toNat) 32) ∧
  ∀ src : BitVec 128, select4 src 0 = src.extractLsb' 0 32 ∧ select4 src 1 = src.extractLsb' 32 32 ∧
    select4 src 2 = src.extractLsb' 64 32 ∧ select4 src 3 = src.extractLsb' 96 32

/-- Lane by lane and element by element what the shuffle computes, and that nothing is above its lanes (40_shufps_sse.md R132,
whose element formula the spec marks as derived). -/
def Obligations.ShuffleLanesAndElements : Prop :=
  ∀ (n : Nat) (a b : Zmm) (imm8 : BitVec 8), n ≤ 4 →
    (∀ l < n, lane (shuffle n a b imm8) l = shuf128 (lane a l) (lane b l) imm8) ∧
    (∀ e < 4 * n, elem (shuffle n a b imm8) e =
      elem (if e % 4 < 2 then a else b) (4 * (e / 4) + (imm8.extractLsb' (2 * (e % 4)) 2).toNat)) ∧
    (∀ i, 128 * n ≤ i → (shuffle n a b imm8).getLsbD i = false)

/-- No interpretation of the data (40_shufps_sse.md R134): whatever function is applied to every element of both sources, the
result has that function applied to every element. -/
def Obligations.ShuffleMovesPatterns : Prop :=
  ∀ (g : BitVec 32 → BitVec 32) (n : Nat) (a b a' b' : Zmm) (imm8 : BitVec 8), n ≤ 4 →
    (∀ j < 4 * n, elem a' j = g (elem a j)) → (∀ j < 4 * n, elem b' j = g (elem b j)) →
    ∀ e < 4 * n, elem (shuffle n a' b' imm8) e = g (elem (shuffle n a b imm8) e)

/-! ### Results: every instruction completes, and with which value -/

/-- SHUFPS completes whenever its form is enabled and its second source can be read, and writes the shuffle of the old
destination and the second source to bits 127:0, keeping bits 511:128 (40_shufps_sse.md R135). -/
def Obligations.ShufpsResult : Prop :=
  ∀ (p : Prefixes) (rex : Option Bool) (dst : BitVec 4) (src2 : RegMem) (imm8 : BitVec 8) (s : State) (x : Nat → BitVec 32),
    ShufpsEnabled .sse s → Source2Is s .sse p (Instr.shufps p rex dst src2 imm8).length src2 x →
    ∃ v : Zmm, exec (.shufps p rex dst src2 imm8) s =
        .next ((s.setVec (vreg dst) v).advance (Instr.shufps p rex dst src2 imm8).length) ∧
      (∀ e < 4, elem v e = shuffledElem (elem (s.vec (vreg dst))) x imm8 e) ∧
      v.extractLsb' 128 384 = (s.vec (vreg dst)).extractLsb' 128 384

/-- VSHUFPS VEX.128, in both spellings, completes whenever its form is enabled and its second source can be read, and writes the
shuffle of its sources to bits 127:0 and 0 above (41_vshufps_vex.md R150). -/
def Obligations.Vex128Result : Prop :=
  ∀ (i : Instr) (p : Prefixes) (w : Bool) (dst src1 : BitVec 4) (src2 : RegMem) (imm8 : BitVec 8) (s : State)
    (x : Nat → BitVec 32),
    i = .vshufpsVex128C5 p dst src1 src2 imm8 ∨ i = .vshufpsVex128C4 p w dst src1 src2 imm8 →
    ShufpsEnabled .vex128 s → Source2Is s .vex128 p i.length src2 x →
    ∃ v : Zmm, exec i s = .next ((s.setVec (vreg dst) v).advance i.length) ∧
      (∀ e < 4, elem v e = shuffledElem (elem (s.vec (vreg src1))) x imm8 e) ∧ v.extractLsb' 128 384 = 0#384

/-- VSHUFPS VEX.256, in both spellings, completes whenever its form is enabled and its second source can be read, and writes the
shuffle of its sources to bits 255:0 and 0 above (41_vshufps_vex.md R151). -/
def Obligations.Vex256Result : Prop :=
  ∀ (i : Instr) (p : Prefixes) (w : Bool) (dst src1 : BitVec 4) (src2 : RegMem) (imm8 : BitVec 8) (s : State)
    (x : Nat → BitVec 32),
    i = .vshufpsVex256C5 p dst src1 src2 imm8 ∨ i = .vshufpsVex256C4 p w dst src1 src2 imm8 →
    ShufpsEnabled .vex256 s → Source2Is s .vex256 p i.length src2 x →
    ∃ v : Zmm, exec i s = .next ((s.setVec (vreg dst) v).advance i.length) ∧
      (∀ e < 8, elem v e = shuffledElem (elem (s.vec (vreg src1))) x imm8 e) ∧ v.extractLsb' 256 256 = 0#256

/-- VSHUFPS EVEX.128 completes whenever its form is enabled, `z` comes with a writemask and its second source can be read. An
element is the shuffle's where there is no writemask or its mask bit is 1, else 0 under `z`, else the old one; bits above 127 are
0 (42_vshufps_evex.md R175, R178). -/
def Obligations.Evex128Result : Prop :=
  ∀ (p : Prefixes) (dst src1 : BitVec 5) (src2 : RegMemBcst) (aaa : BitVec 3) (z : Bool) (imm8 : BitVec 8) (s : State)
    (x : Nat → BitVec 32) (i : Instr), i = .vshufpsEvex128 p dst src1 src2 aaa z imm8 →
    ShufpsEnabled .evex128 s → (z = true → aaa ≠ 0#3) → Source2EvexIs s .evex128 p i.length src2 x →
    ∃ v : Zmm, exec i s = .next ((s.setVec dst v).advance i.length) ∧
      (∀ e < 4, elem v e =
        if aaa = 0#3 ∨ (s.mask aaa).getLsbD e = true then shuffledElem (elem (s.vec src1)) x imm8 e
        else if z = true then 0#32 else elem (s.vec dst) e) ∧
      v.extractLsb' 128 384 = 0#384

/-- VSHUFPS EVEX.256: as EVEX.128 with eight elements and bits above 255 zero (42_vshufps_evex.md R176, R178). -/
def Obligations.Evex256Result : Prop :=
  ∀ (p : Prefixes) (dst src1 : BitVec 5) (src2 : RegMemBcst) (aaa : BitVec 3) (z : Bool) (imm8 : BitVec 8) (s : State)
    (x : Nat → BitVec 32) (i : Instr), i = .vshufpsEvex256 p dst src1 src2 aaa z imm8 →
    ShufpsEnabled .evex256 s → (z = true → aaa ≠ 0#3) → Source2EvexIs s .evex256 p i.length src2 x →
    ∃ v : Zmm, exec i s = .next ((s.setVec dst v).advance i.length) ∧
      (∀ e < 8, elem v e =
        if aaa = 0#3 ∨ (s.mask aaa).getLsbD e = true then shuffledElem (elem (s.vec src1)) x imm8 e
        else if z = true then 0#32 else elem (s.vec dst) e) ∧
      v.extractLsb' 256 256 = 0#256

/-- VSHUFPS EVEX.512: as EVEX.128 with sixteen elements, the whole register (42_vshufps_evex.md R177, R178). -/
def Obligations.Evex512Result : Prop :=
  ∀ (p : Prefixes) (dst src1 : BitVec 5) (src2 : RegMemBcst) (aaa : BitVec 3) (z : Bool) (imm8 : BitVec 8) (s : State)
    (x : Nat → BitVec 32) (i : Instr), i = .vshufpsEvex512 p dst src1 src2 aaa z imm8 →
    ShufpsEnabled .evex512 s → (z = true → aaa ≠ 0#3) → Source2EvexIs s .evex512 p i.length src2 x →
    ∃ v : Zmm, exec i s = .next ((s.setVec dst v).advance i.length) ∧
      ∀ e < 16, elem v e =
        if aaa = 0#3 ∨ (s.mask aaa).getLsbD e = true then shuffledElem (elem (s.vec src1)) x imm8 e
        else if z = true then 0#32 else elem (s.vec dst) e

/-- SHUFPS with one register as both operands reads it before writing it (40_shufps_sse.md R133, R135 corner case (a)): E4H
leaves the register as it was, 1BH reverses its elements, 00H copies element 0 everywhere. -/
def Obligations.SelfShuffleReadsFirst : Prop :=
  ∀ (p : Prefixes) (rex : Option Bool) (d : BitVec 4) (s : State), ShufpsEnabled .sse s →
    exec (.shufps p rex d (.reg d) 0xE4) s = .next (s.advance (Instr.shufps p rex d (.reg d) 0xE4).length) ∧
    (∃ t, exec (.shufps p rex d (.reg d) 0x1B) s = .next t ∧
      ∀ e < 4, elem (t.vec (vreg d)) e = elem (s.vec (vreg d)) (3 - e)) ∧
    (∃ t, exec (.shufps p rex d (.reg d) 0x00) s = .next t ∧ ∀ e < 4, elem (t.vec (vreg d)) e = elem (s.vec (vreg d)) 0)

/-- EVEX.512 with an empty writemask (42_vshufps_evex.md R177 (b), (c)): under merging only `rip` changes, under zeroing the
destination becomes 0. -/
def Obligations.Evex512EmptyMask : Prop :=
  ∀ (p : Prefixes) (dst src1 : BitVec 5) (src2 : RegMemBcst) (aaa : BitVec 3) (imm8 : BitVec 8) (s : State)
    (x : Nat → BitVec 32), ShufpsEnabled .evex512 s → aaa ≠ 0#3 → (∀ j < 16, (s.mask aaa).getLsbD j = false) →
    Source2EvexIs s .evex512 p (instrLength p 5 src2.length) src2 x →
    exec (.vshufpsEvex512 p dst src1 src2 aaa false imm8) s = .next (s.advance (instrLength p 5 src2.length)) ∧
    exec (.vshufpsEvex512 p dst src1 src2 aaa true imm8) s =
      .next ((s.setVec dst 0#512).advance (instrLength p 5 src2.length))

/-- The unmasked EVEX.256 form on registers 0 to 15 leaves the vector registers that the VEX.256 form, in either spelling,
leaves on the same operands (42_vshufps_evex.md R176 (c), which the spec marks as derived). -/
def Obligations.Evex256AgreesWithVex256 : Prop :=
  ∀ (i : Instr) (p q : Prefixes) (w : Bool) (dst src1 : BitVec 4) (src2 : RegMem) (src2' : RegMemBcst) (imm8 : BitVec 8)
    (s : State) (x : Nat → BitVec 32),
    i = .vshufpsVex256C5 p dst src1 src2 imm8 ∨ i = .vshufpsVex256C4 p w dst src1 src2 imm8 →
    ShufpsEnabled .vex256 s → ShufpsEnabled .evex256 s → Source2Is s .vex256 p i.length src2 x →
    Source2EvexIs s .evex256 q (instrLength q 5 src2'.length) src2' x →
    ∃ t u, exec i s = .next t ∧ exec (.vshufpsEvex256 q (vreg dst) (vreg src1) src2' 0#3 false imm8) s = .next u ∧
      t.zmm = u.zmm

/-- With a broadcast second source `imm8[7:4]` has no effect (42_vshufps_evex.md R171 (c), which the spec marks as derived). -/
def Obligations.BroadcastIgnoresHighControls : Prop :=
  ∀ (p : Prefixes) (dst src1 : BitVec 5) (m : MemForm) (aaa : BitVec 3) (z : Bool) (imm₁ imm₂ : BitVec 8) (s : State),
    imm₁.extractLsb' 0 4 = imm₂.extractLsb' 0 4 →
    exec (.vshufpsEvex128 p dst src1 (.bcst m) aaa z imm₁) s = exec (.vshufpsEvex128 p dst src1 (.bcst m) aaa z imm₂) s ∧
    exec (.vshufpsEvex256 p dst src1 (.bcst m) aaa z imm₁) s = exec (.vshufpsEvex256 p dst src1 (.bcst m) aaa z imm₂) s ∧
    exec (.vshufpsEvex512 p dst src1 (.bcst m) aaa z imm₁) s = exec (.vshufpsEvex512 p dst src1 (.bcst m) aaa z imm₂) s

/-- `VEX.W` is ignored (30_encoding.md R90, R113): both values of the three-byte spelling have one meaning. -/
def Obligations.VexWIgnored : Prop :=
  ∀ (p : Prefixes) (w₁ w₂ : Bool) (dst src1 : BitVec 4) (src2 : RegMem) (imm8 : BitVec 8) (s : State),
    exec (.vshufpsVex128C4 p w₁ dst src1 src2 imm8) s = exec (.vshufpsVex128C4 p w₂ dst src1 src2 imm8) s ∧
    exec (.vshufpsVex256C4 p w₁ dst src1 src2 imm8) s = exec (.vshufpsVex256C4 p w₂ dst src1 src2 imm8) s

/-! ### Frames -/

/-- What every instruction leaves unchanged when it completes: every vector register but its destination, every opmask, general,
segment and control register, EFLAGS, MXCSR, the x87 state, the mode and the privilege level, the translation, and every byte of
memory, since no form stores (10_state.md R46, which the spec marks as derived; 20_memory.md R50). -/
def Obligations.InstructionFrame : Prop :=
  ∀ (i : Instr) (s t : State), exec i s = .next t → SameExcept (dstOf i) s t

/-- `rip` advances by the instruction's length, modulo 2^32 in Mode32 and modulo 2^64 in every other mode that completes
(10_state.md R34, a decision of the spec). -/
def Obligations.RipAdvance : Prop :=
  ∀ (i : Instr) (s t : State), exec i s = .next t →
    t.rip.toNat = if s.mode = .mode32 then (s.rip.toNat + i.length) % 2 ^ 32 else (s.rip.toNat + i.length) % 2 ^ 64

/-- 10_state.md R24. Bits of the destination above the vector length: unmodified by the legacy form, zero after every VEX and
EVEX form whatever the writemask is. -/
def Obligations.BitsAboveVectorLength : Prop :=
  ∀ (i : Instr) (s t : State), exec i s = .next t →
    (i.form = .sse → (t.vec (dstOf i)).extractLsb' 128 384 = (s.vec (dstOf i)).extractLsb' 128 384) ∧
    (i.form ≠ .sse → ∀ k, i.form.vl ≤ k → (t.vec (dstOf i)).getLsbD k = false)

/-- 42_vshufps_evex.md R173, R174. When a writemask is used and bit `j` is 0, element `j` keeps its old value under
merging-masking and becomes 0 under zeroing-masking; bits at and above `VL` become 0 whatever the mask and `z` are. -/
def Obligations.MaskedOffElements : Prop :=
  ∀ (i : Instr) (aaa : BitVec 3) (z : Bool) (s t : State), maskFieldsOf i = some (aaa, z) → exec i s = .next t →
    (∀ j < i.form.kl, aaa ≠ 0#3 → (s.mask aaa).getLsbD j = false →
      elem (t.vec (dstOf i)) j = if z = true then 0#32 else elem (s.vec (dstOf i)) j) ∧
    (∀ k, i.form.vl ≤ k → (t.vec (dstOf i)).getLsbD k = false)

/-! ### What the instruction reads -/

/-- 20_memory.md R51, R54. The bytes a memory second source reads are those of the table, 16, 32, 64 or, when broadcasting, 4: all
of them, since an instruction that completes has every one readable, and no other, since two memories that agree on them give the
same next state; a register second source reads none. A broadcast gives every element of the second source the doubleword at the
operand's address. -/
def Obligations.OperandBytesRead : Prop :=
  (∀ (i : Instr) (s t : State) (mem' : Memory),
    (∀ c m, memoryOf i = some (c, m) →
      ∀ b < c.bytes, Memory.read mem' (s.byteAddr (s.linear c i.prefixes i.length m) b).toNat =
        Memory.read s.mem (s.byteAddr (s.linear c i.prefixes i.length m) b).toNat) →
    exec i s = .next t → exec i { s with mem := mem' } = .next { t with mem := mem' }) ∧
  (∀ (i : Instr) (c : Access) (m : MemForm) (s t : State), memoryOf i = some (c, m) → exec i s = .next t →
    BytesReadable s c i.prefixes i.length m) ∧
  (∀ (f : Form) (p : Prefixes) (len : Nat) (m : MemForm) (s : State) (b : Zmm), s.source2Evex f p len (.bcst m) = .next b →
    ∀ j < f.kl, elem b j = s.dword (s.linear bcstAccess p len m) 0) ∧
  (accessOf .sse).bytes = 16 ∧ (accessOf .vex128).bytes = 16 ∧ (accessOf .vex256).bytes = 32 ∧
  (accessOf .evex128).bytes = 16 ∧ (accessOf .evex256).bytes = 32 ∧ (accessOf .evex512).bytes = 64 ∧ bcstAccess.bytes = 4

/-- The factor `N` of an 8-bit displacement (30_encoding.md R106): 1 for the legacy and VEX forms, `VL/8` for a full EVEX operand,
4 for a broadcast operand, as the access of every instruction with a memory operand carries it. -/
def Obligations.DisplacementScale : Prop :=
  (accessOf .sse).dispScale = 1 ∧ (accessOf .vex128).dispScale = 1 ∧ (accessOf .vex256).dispScale = 1 ∧
  (accessOf .evex128).dispScale = 16 ∧ (accessOf .evex256).dispScale = 32 ∧ (accessOf .evex512).dispScale = 64 ∧
  bcstAccess.dispScale = 4 ∧
  ∀ (i : Instr) (c : Access) (m : MemForm), memoryOf i = some (c, m) →
    c.dispScale = if maskFieldsOf i = none then 1 else c.bytes

/-- Only bits `KL-1:0` of the selected opmask register are read, none by the legacy and VEX forms or without a writemask, and
none is written (10_state.md R26, whose second sentence the spec marks as derived). -/
def Obligations.OpmaskBitsRead : Prop :=
  ∀ (i : Instr) (s : State) (k' : Vector (BitVec 64) 8),
    (∀ aaa z, maskFieldsOf i = some (aaa, z) → aaa ≠ 0#3 →
      ∀ j < i.form.kl, (State.mask { s with k := k' } aaa).getLsbD j = (s.mask aaa).getLsbD j) →
    exec i { s with k := k' } = mapNext (fun t => { t with k := k' }) (exec i s)

/-- A register form reads no general register; a memory form reads its base and its index register and no other; none is written
(10_state.md R31, which the spec marks as derived). -/
def Obligations.GeneralRegistersRead : Prop :=
  ∀ (i : Instr) (s : State) (g : Vector Word 16),
    (∀ r ∈ addrRegsOf i, State.reg { s with gpr := g } r = s.reg r) →
    exec i { s with gpr := g } = mapNext (fun t => { t with gpr := g }) (exec i s)

/-- EFLAGS, MXCSR and the x87 state are neither read nor written, and no form raises a SIMD floating-point exception, vector 19
(10_state.md R36, R37, R38, which the spec marks as derived; 60_exceptions.md R200). -/
def Obligations.FlagsAndFloatStateUntouched : Prop :=
  ∀ (i : Instr) (s : State) (e m : BitVec 32) (x : X87),
    exec i { s with eflags := e, mxcsr := m, x87 := x } =
      mapNext (fun t => { t with eflags := e, mxcsr := m, x87 := x }) (exec i s) ∧
    ∀ f, exec i s = .fault f → f.vector ≠ 19

/-- The instruction is not privileged and tests no privilege level (60_exceptions.md R230, D24). Where `Translate` answers alike at
every privilege level, what completes at one level completes at every other with the same effect, and what is refused is refused
alike; what faults faults, with the same fault where no answer of `Translate` is one (the U/S bit of a page-fault code, and which of
several faults is reported, may depend on the level). -/
def Obligations.PrivilegeIrrelevant : Prop :=
  ∀ (i : Instr) (s : State) (c : BitVec 2), (∀ r ∈ s.translation, r.cpls = 0#4 ∨ r.cpls = 15#4) →
    (∀ t, exec i s = .next t → exec i { s with cpl := c } = .next { t with cpl := c }) ∧
    (∀ r, exec i s = .refused r → exec i { s with cpl := c } = .refused r) ∧
    (∀ f, exec i s = .fault f → ∃ g, exec i { s with cpl := c } = .fault g) ∧
    ((∀ r ∈ s.translation, r.answer = .readable ∨ r.answer = .readSideEffects) →
      ∀ f, exec i s = .fault f → exec i { s with cpl := c } = .fault f)

/-- Byte order (20_memory.md R52, D4): byte `b` of a value read from memory is the byte at address `a + b`, nothing is above the
bytes read, and a 32-bit displacement is stored least significant byte first. -/
def Obligations.LittleEndian : Prop :=
  (∀ (s : State) (a : Word) (n : Nat) (v : Zmm), n ≤ 64 → s.memRead a n = .next v →
    (∀ b < n, v.extractLsb' (8 * b) 8 = Memory.read s.mem (s.byteAddr a b).toNat) ∧
    (∀ k, 8 * n ≤ k → v.getLsbD k = false)) ∧
  (∀ (b₀ b₁ b₂ b₃ : Byte) (rest : List Byte), ∃ d, takeDisp32 (b₀ :: b₁ :: b₂ :: b₃ :: rest) = some (d, rest) ∧
    d.extractLsb' 0 8 = b₀ ∧ d.extractLsb' 8 8 = b₁ ∧ d.extractLsb' 16 8 = b₂ ∧ d.extractLsb' 24 8 = b₃)

/-! ### Addresses -/

/-- The effective address is the exact sum of base, scaled index and signed displacement, modulo the address size (20_memory.md
R55; 30_encoding.md R103 to R107): the displacement of a RIP-relative form is relative to the next instruction. The address size is
32 bits in Mode32, and in Mode64 exactly with the prefix 67H (R82). -/
def Obligations.EffectiveAddressSum : Prop :=
  ∀ (s : State) (a32 : Bool) (len n : Nat) (size : Int), size = (if a32 = true then 2 ^ 32 else 2 ^ 64) →
    (∀ b d, ((s.effAddr a32 len n (.base b d)).toNat : Int) = ((s.reg b).toNat + dispInt n d) % size) ∧
    (∀ sc i b d, ((s.effAddr a32 len n (.sib sc i b d)).toNat : Int) =
      ((s.reg b).toNat + indexNat s sc i + dispInt n d) % size) ∧
    (∀ sc i d, ((s.effAddr a32 len n (.sibNoBase sc i d)).toNat : Int) = (indexNat s sc i + d.toInt) % size) ∧
    (∀ d, s.mode = .mode64 → ((s.effAddr a32 len n (.dispOnly d)).toNat : Int) = (s.rip.toNat + len + d.toInt) % size) ∧
    (∀ d, s.mode = .mode32 → (s.effAddr a32 len n (.dispOnly d)).toNat = d.toNat) ∧
    (∀ p, s.mode = .mode32 → s.addr32 p = true) ∧ (∀ p, s.mode = .mode64 → s.addr32 p = p.addrSize)

/-- The segment of a memory operand (10_state.md R32; 30_encoding.md R82, R103): by default SS for base number 4 or 5 and DS
otherwise; in Mode64 only an FS or GS override applies and only they contribute a base; in Mode32 every override and base does. -/
def Obligations.OperandSegment : Prop :=
  (∀ b d, defaultSeg (.base b d) = if b = 4#4 ∨ b = 5#4 then .ss else .ds) ∧
  (∀ sc i b d, defaultSeg (.sib sc i b d) = if b = 4#4 ∨ b = 5#4 then .ss else .ds) ∧
  (∀ sc i d, defaultSeg (.sibNoBase sc i d) = .ds) ∧ (∀ d, defaultSeg (.dispOnly d) = .ds) ∧
  ∀ (s : State) (m : MemForm) (a : Bool),
    s.segFor ⟨none, a⟩ m = defaultSeg m ∧ s.segFor ⟨some .fs, a⟩ m = .fs ∧ s.segFor ⟨some .gs, a⟩ m = .gs ∧
    (s.mode = .mode64 → ∀ g ∈ [Seg.es, .cs, .ss, .ds], s.segFor ⟨some g, a⟩ m = defaultSeg m ∧ s.segBase g = 0#64) ∧
    (s.mode = .mode64 → s.segBase .fs = s.segs.fs.base ∧ s.segBase .gs = s.segs.gs.base) ∧
    (s.mode = .mode32 → ∀ g, s.segFor ⟨some g, a⟩ m = g ∧ s.segBase g = (s.seg g).base)

/-! ### Faults and refusals -/

/-- The #UD conditions of 60_exceptions.md R203 and R213 that reach a meaning: each makes the instruction #UD, in any mode and
before every other fault (R218 (3)). -/
def Obligations.DisabledFormIsUd : Prop :=
  ∀ (i : Instr) (s : State), Disabled i s → exec i s = .fault .invalidOpcode

/-- With `CR0.TS = 1` and no #UD condition the instruction is #NM (60_exceptions.md R204, R214), in any mode (log entry 21) and before
any memory fault, the order R218 (3) to (7) decides (D16). -/
def Obligations.TaskSwitchedIsNm : Prop :=
  ∀ (i : Instr) (s : State), ¬ Disabled i s → s.cr0.getLsbD 3 = true → exec i s = .fault .deviceNotAvailable

/-- A mode outside Mode64 and Mode32 has no meaning (00_scope.md R7): the step refuses it, and so does an instruction whose #UD
and #NM checks pass. -/
def Obligations.OtherModesRefused : Prop :=
  ∀ (i : Instr) (s : State), s.mode.admitted = false →
    step s = .refused .unadmittedMode ∧
    (¬ Disabled i s → s.cr0.getLsbD 3 = false → exec i s = .refused .unadmittedMode)

/-- An address is canonical when bits 63:47 are all equal; in Mode64 a memory operand with any byte, after the FS or GS base is
added, at an address that is not canonical is #SS(0) through SS and #GP(0) through any other segment (20_memory.md R58). A legacy
operand through a base that is no multiple of 16 is left out, being refused (R59, log entry 13); that a misaligned legacy operand
through SS reports #SS(0) is the order of log entry 14. -/
def Obligations.NonCanonicalOperandFaults : Prop :=
  (∀ a : Word, canonical a = true ↔ ∀ k, 47 ≤ k → k < 64 → a.getLsbD k = a.getLsbD 63) ∧
  ∀ (i : Instr) (c : Access) (m : MemForm) (s : State), memoryOf i = some (c, m) → Ready i s → s.mode = .mode64 →
    (i.form = .sse → (s.segBase (s.segFor i.prefixes m)).toNat % 16 = 0) →
    (∃ b < c.bytes, canonical (s.segBase (s.segFor i.prefixes m) +
      s.effAddr (s.addr32 i.prefixes) i.length c.dispScale m + BitVec.ofNat 64 b) = false) →
    exec i s = .fault (if s.segFor i.prefixes m = .ss then .stackSegment else .generalProtection)

/-- In Mode32 a memory operand for which `SegOk` fails is #SS(0) through SS and #GP(0) through any other segment (20_memory.md R56,
60_exceptions.md R205, R206 (b)): the launch state lists it as illegal, or lists nothing for it and it fails the segment's rights,
its limit (for an expand-down segment at either end) or goes through a null DS, ES, FS or GS selector. The form of the check is the
model's choice, log entry 12. A legacy operand through a base that is no multiple of 16 is left out, being refused (R59, log entry
13); that a misaligned legacy operand through SS reports #SS(0) is the order of log entry 14. -/
def Obligations.SegmentCheckFaults : Prop :=
  ∀ (i : Instr) (c : Access) (m : MemForm) (s : State) (g : Seg) (ea : Word), memoryOf i = some (c, m) → Ready i s →
    s.mode = .mode32 → g = s.segFor i.prefixes m → ea = s.effAddr (s.addr32 i.prefixes) i.length c.dispScale m →
    (i.form = .sse → (s.segBase g).toNat % 16 = 0) →
    ((∃ r, (s.seg g).ruleFor ea c.bytes = some r ∧ r.legal = false) ∨
      (s.seg g).ruleFor ea c.bytes = none ∧
        ((s.seg g).readable = false ∨ ((s.seg g).expandDown = false ∧ (s.seg g).limit.toNat < ea.toNat + c.bytes - 1) ∨
          ((s.seg g).expandDown = true ∧ (ea.toNat ≤ (s.seg g).limit.toNat ∨ 2 ^ 32 < ea.toNat + c.bytes)) ∨
          (g ≠ .ss ∧ g ≠ .cs ∧ (s.seg g).selector.toNat < 4))) →
    exec i s = .fault (if g = .ss then .stackSegment else .generalProtection)

/-- Alignment (20_memory.md R59, decision D5): a legacy memory operand through a segment whose base is no multiple of 16 is refused
(before its other faults: log entry 13), and a legal one at a linear address that is no multiple of 16 is #GP(0), while a legal
VEX or EVEX operand completes at any address; no form raises #AC, vector 17. -/
def Obligations.AlignmentRule : Prop :=
  ∀ (i : Instr) (c : Access) (m : MemForm) (s : State), memoryOf i = some (c, m) → Ready i s →
    (i.form = .sse → (s.segBase (s.segFor i.prefixes m)).toNat % 16 ≠ 0 → exec i s = .refused .segmentBaseUnaligned) ∧
    (AddressLegal s c i.prefixes i.length m → i.form = .sse → (s.segBase (s.segFor i.prefixes m)).toNat % 16 = 0 →
      (s.linear c i.prefixes i.length m).toNat % 16 ≠ 0 → exec i s = .fault .generalProtection) ∧
    (AddressLegal s c i.prefixes i.length m → i.form ≠ .sse → BytesReadable s c i.prefixes i.length m →
      ∃ t, exec i s = .next t) ∧
    ∀ f, exec i s = .fault f → f.vector ≠ 17

/-- A fault of `Translate` on any byte of the operand is reported, whatever the writemask is (60_exceptions.md R207, R211, R216;
20_memory.md R57, R61, R71): it is the fault of some faulting byte and, where paging is the cause, #PF with the error code of R68 and
that byte's address for CR2. Of several faults the statement does not say which is reported (free value, log entry 9). Where one
paging answer covers the whole operand CR2 is the operand's address (log entry 10). -/
def Obligations.PageFaultReported : Prop :=
  ∀ (i : Instr) (c : Access) (m : MemForm) (s : State) (a : Word), memoryOf i = some (c, m) → Ready i s →
    AddressLegal s c i.prefixes i.length m → AddressAligned s c i.prefixes i.length m →
    a = s.linear c i.prefixes i.length m →
    ((∃ b < c.bytes, s.byteFault a c.bytes b ≠ none) →
      ∃ b < c.bytes, ∃ f, s.byteFault a c.bytes b = some f ∧ exec i s = .fault f ∧
        ∀ p rsvd pk, s.answerAt a c.bytes b = .paging p rsvd pk →
          f = .pageFault (pageFaultCode s.cpl p rsvd pk) (s.byteAddr a b)) ∧
    (∀ r p rsvd pk, r.answer = .paging p rsvd pk → (∀ b < c.bytes, s.regionAt a c.bytes b = some r) →
      exec i s = .fault (.pageFault (pageFaultCode s.cpl p rsvd pk) a))

/-- The error code of a page fault by a data read (20_memory.md R68): bit 0 is P, bit 1 (W/R) 0, bit 2 (U/S) 1 exactly at CPL 3,
bit 3 RSVD, bit 4 (I/D) 0, bit 5 PK; the other bits are 0, which R68 does not say (log entry 8). -/
def Obligations.PageFaultErrorCode : Prop :=
  ∀ (cpl : BitVec 2) (p rsvd pk : Bool) (code : BitVec 32), code = pageFaultCode cpl p rsvd pk →
    code.getLsbD 0 = p ∧ code.getLsbD 1 = false ∧ (code.getLsbD 2 = true ↔ cpl = 3#2) ∧ code.getLsbD 3 = rsvd ∧
    code.getLsbD 4 = false ∧ code.getLsbD 5 = pk ∧ ∀ k, 6 ≤ k → code.getLsbD k = false

/-- A memory operand that does not fault and of which a byte lies in memory with read side effects is refused (20_memory.md R63,
decision D6). -/
def Obligations.SideEffectMemoryRefused : Prop :=
  ∀ (i : Instr) (c : Access) (m : MemForm) (s : State), memoryOf i = some (c, m) → Ready i s →
    AddressLegal s c i.prefixes i.length m → AddressAligned s c i.prefixes i.length m →
    (∀ b < c.bytes, s.byteFault (s.linear c i.prefixes i.length m) c.bytes b = none) →
    (∃ b < c.bytes, s.answerAt (s.linear c i.prefixes i.length m) c.bytes b = .readSideEffects) →
    exec i s = .refused .readSideEffects

/-- The vector number, error code and recorded value of each fault, and that an instruction reports no other vector
(60_exceptions.md R202; that a fault changes no state is in the shape of the outcome, which holds none, R220). -/
def Obligations.FaultNumbers : Prop :=
  (Fault.invalidOpcode.vector = 6 ∧ Fault.invalidOpcode.errorCode = none ∧ Fault.invalidOpcode.cr2 = none) ∧
  (Fault.deviceNotAvailable.vector = 7 ∧ Fault.deviceNotAvailable.errorCode = none ∧ Fault.deviceNotAvailable.cr2 = none) ∧
  (Fault.stackSegment.vector = 12 ∧ Fault.stackSegment.errorCode = some 0#32 ∧ Fault.stackSegment.cr2 = none) ∧
  (Fault.generalProtection.vector = 13 ∧ Fault.generalProtection.errorCode = some 0#32 ∧
    Fault.generalProtection.cr2 = none) ∧
  (∀ code a, (Fault.pageFault code a).vector = 14 ∧ (Fault.pageFault code a).errorCode = some code ∧
    (Fault.pageFault code a).cr2 = some a) ∧
  ∀ (i : Instr) (s : State) (f : Fault), exec i s = .fault f → f.vector ∈ [6, 7, 12, 13, 14]
end

