-- ==== Sys2Proof/Laws/Build.lean ====
section
/-! SUPPORT. What the bits and parts of `build` are, and from it the elements of the shuffle and of the masking loop. -/

namespace Sys2Proof.Machine

/-- Bit `i` of a value built from `n` parts of `w` bits. -/
theorem build_getLsbD (w n : Nat) (f : Nat → BitVec w) (i : Nat) (hw : 0 < w) (h : w * n ≤ 512) :
    (build w n f).getLsbD i = (decide (i < w * n) && (f (i / w)).getLsbD (i % w)) := by
  induction n with
  | zero => simp [build]
  | succ n ih =>
    have hmul : w * (n + 1) = w * n + w := Nat.mul_succ w n
    have ih' := ih (by omega)
    simp only [build, BitVec.getLsbD_or, ih', BitVec.getLsbD_shiftLeft, BitVec.getLsbD_setWidth]
    by_cases h1 : i < w * n
    · simp [h1, show i < w * (n + 1) by omega]
    · by_cases h2 : i < w * (n + 1)
      · have hq : i / w = n := by
          refine Nat.div_eq_of_lt_le ?_ ?_
          · rw [Nat.mul_comm]; omega
          · rw [Nat.mul_comm]; omega
        have hr : i % w = i - w * n := by
          have := Nat.div_add_mod i w
          rw [hq] at this
          omega
        simp [h1, h2, hq, hr, show i < 512 by omega, show i - w * n < 512 by omega]
      · simp only [h1, h2, decide_false, Bool.false_and, Bool.false_or]
        have : ¬ (i - w * n < w) := by omega
        simp [BitVec.getLsbD_of_ge _ _ (Nat.le_of_not_lt this)]

/-- Part `j` of a value built from `n` parts. -/
theorem build_part (w n : Nat) (f : Nat → BitVec w) (j : Nat) (hw : 0 < w) (h : w * n ≤ 512) (hj : j < n) :
    (build w n f).extractLsb' (w * j) w = f j := by
  apply BitVec.eq_of_getLsbD_eq
  intro i hi
  have hlt : w * j + i < w * n := by
    have : w * (j + 1) ≤ w * n := Nat.mul_le_mul_left w hj
    rw [Nat.mul_succ] at this
    omega
  have hq : (w * j + i) / w = j := by
    rw [Nat.mul_add_div hw, Nat.div_eq_of_lt hi, Nat.add_zero]
  have hr : (w * j + i) % w = i := by
    rw [Nat.mul_add_mod, Nat.mod_eq_of_lt hi]
  simp [hi, build_getLsbD w n f _ hw h, hlt, hq, hr]

/-- The bits above the parts are 0. -/
theorem build_above (w n m : Nat) (f : Nat → BitVec w) (hw : 0 < w) (h : w * n ≤ 512) :
    (build w n f).extractLsb' (w * n) m = 0#m := by
  apply BitVec.eq_of_getLsbD_eq
  intro i hi
  simp [BitVec.getLsbD_extractLsb', build_getLsbD w n f _ hw h]

theorem elem_build (n : Nat) (f : Nat → BitVec 32) (j : Nat) (h : n ≤ 16) (hj : j < n) : elem (build 32 n f) j = f j :=
  build_part 32 n f j (by decide) (by omega) hj

/-- `Select4` is the element its control names (40_shufps_sse.md R130). -/
theorem select4_eq (src : BitVec 128) (c : BitVec 2) : select4 src c = src.extractLsb' (32 * c.toNat) 32 := by
  have hc : c = 0#2 ∨ c = 1#2 ∨ c = 2#2 ∨ c = 3#2 := by revert c; decide
  rcases hc with rfl | rfl | rfl | rfl <;> rfl

/-- An element of a lane is an element of the vector. -/
theorem lane_elem (v : Zmm) (l c : Nat) (hc : c < 4) : (lane v l).extractLsb' (32 * c) 32 = elem v (4 * l + c) := by
  apply BitVec.eq_of_getLsbD_eq
  intro i hi
  simp only [lane, elem, BitVec.getLsbD_extractLsb', hi, decide_true, Bool.true_and]
  rw [show 128 * l + (32 * c + i) = 32 * (4 * l + c) + i by omega]
  simp [show 32 * c + i < 128 by omega]

/-- Element `p` of the shuffle of one lane (40_shufps_sse.md R131). -/
theorem shuf128_elem (a b : BitVec 128) (imm8 : BitVec 8) (p : Nat) (hp : p < 4) :
    (shuf128 a b imm8).extractLsb' (32 * p) 32 =
      if p < 2 then select4 a (control imm8 p) else select4 b (control imm8 p) := by
  have h : p = 0 ∨ p = 1 ∨ p = 2 ∨ p = 3 := by omega
  rcases h with rfl | rfl | rfl | rfl <;> apply BitVec.eq_of_getLsbD_eq <;> intro i hi <;>
    simp only [shuf128, BitVec.getLsbD_extractLsb', hi, decide_true, Bool.true_and, BitVec.getLsbD_append]
  · simp [hi]
  · simp [hi, show ¬ (32 + i < 32) by omega, show 32 + i - 32 = i by omega]
  · simp [hi, show ¬ (64 + i < 32) by omega, show ¬ (64 + i - 32 < 32) by omega,
      show 64 + i - 32 - 32 = i by omega]
  · simp [hi, show ¬ (96 + i < 32) by omega, show ¬ (96 + i - 32 < 32) by omega,
      show ¬ (96 + i - 32 - 32 < 32) by omega, show 96 + i - 32 - 32 - 32 = i by omega]

/-- Element `e` of the shuffle of `n` lanes (40_shufps_sse.md R132). -/
theorem shuffle_elem (n : Nat) (a b : Zmm) (imm8 : BitVec 8) (e : Nat) (hn : n ≤ 4) (he : e < 4 * n) :
    elem (shuffle n a b imm8) e = shuffledElem (elem a) (elem b) imm8 e := by
  have hl := build_part 128 n (fun l => shuf128 (lane a l) (lane b l) imm8) (e / 4) (by decide) (by omega) (by omega)
  have h1 : elem (shuffle n a b imm8) e = (lane (shuffle n a b imm8) (e / 4)).extractLsb' (32 * (e % 4)) 32 := by
    rw [lane_elem _ _ _ (Nat.mod_lt _ (by decide)), Nat.div_add_mod]
  have h2 : lane (shuffle n a b imm8) (e / 4) = shuf128 (lane a (e / 4)) (lane b (e / 4)) imm8 := hl
  rw [h1, h2, shuf128_elem _ _ _ _ (Nat.mod_lt _ (by decide)), select4_eq, select4_eq, lane_elem _ _ _ (control imm8 (e % 4)).isLt,
    lane_elem _ _ _ (control imm8 (e % 4)).isLt]
  rfl

/-- The bits of the shuffle above its lanes are 0. -/
theorem shuffle_above (n m : Nat) (a b : Zmm) (imm8 : BitVec 8) (hn : n ≤ 4) :
    (shuffle n a b imm8).extractLsb' (128 * n) m = 0#m :=
  build_above 128 n m _ (by decide) (by omega)

/-- Element `j` of the masking loop (42_vshufps_evex.md R172, R173). -/
theorem masked_elem (s : State) (kl : Nat) (aaa : BitVec 3) (z : Bool) (old t : Zmm) (j : Nat) (hk : kl ≤ 16) (hj : j < kl) :
    elem (s.masked kl aaa z old t) j = if s.writes aaa j then elem t j else if z then 0#32 else elem old j :=
  elem_build kl _ j hk hj

/-- The bits above the masking loop are 0 (42_vshufps_evex.md R174). -/
theorem masked_above (s : State) (kl m : Nat) (aaa : BitVec 3) (z : Bool) (old t : Zmm) (hk : kl ≤ 16) :
    (s.masked kl aaa z old t).extractLsb' (32 * kl) m = 0#m :=
  build_above 32 kl m _ (by decide) (by omega)

/-- The elements of the legacy result (40_shufps_sse.md R135). -/
theorem legacyResult_elem (old b : Zmm) (imm8 : BitVec 8) (e : Nat) (he : e < 4) :
    elem (legacyResult old b imm8) e = shuffledElem (elem old) (elem b) imm8 e := by
  have h1 : elem (legacyResult old b imm8) e = (shuf128 (lane old 0) (lane b 0) imm8).extractLsb' (32 * e) 32 := by
    apply BitVec.eq_of_getLsbD_eq
    intro i hi
    simp only [elem, legacyResult, BitVec.getLsbD_extractLsb', hi, decide_true, Bool.true_and, BitVec.getLsbD_append]
    simp [show 32 * e + i < 128 by omega]
  rw [h1, shuf128_elem _ _ _ _ he, select4_eq, select4_eq, lane_elem _ _ _ (control imm8 e).isLt,
    lane_elem _ _ _ (control imm8 e).isLt]
  simp only [shuffledElem, Nat.mod_eq_of_lt he, Nat.div_eq_of_lt he]
  rfl

/-- The legacy result keeps bits 511:128 (10_state.md R24). -/
theorem legacyResult_above (old b : Zmm) (imm8 : BitVec 8) :
    (legacyResult old b imm8).extractLsb' 128 384 = old.extractLsb' 128 384 := by
  apply BitVec.eq_of_getLsbD_eq
  intro i hi
  simp only [legacyResult, BitVec.getLsbD_extractLsb', hi, decide_true, Bool.true_and, BitVec.getLsbD_append]
  simp [hi]

end Sys2Proof.Machine
end

