-- ==== Sys2Proof/Laws/Encode.lean ====
section
/-! SUPPORT. How many bytes the parts of an encoding have, what the prefix scan makes of the encoder's
bytes, where an instruction ends and what it takes to give one. -/

namespace Sys2Proof

/-! ### Lengths (30_encoding.md R108) -/

theorem prefixes_bytes_length (p : Prefixes) : p.bytes.length = p.length := by
  obtain ⟨g, a⟩ := p
  cases g <;> cases a <;> rfl

theorem disp_bytes_length (d : Disp) : d.bytes.length = d.length := by cases d <;> rfl

theorem memForm_bytes_length (reg : BitVec 3) (m : MemForm) : (m.bytes reg).length = 1 + m.length := by
  cases m <;> simp [MemForm.bytes, MemForm.length, disp_bytes_length, disp32Bytes] <;> omega

theorem regMem_bytes_length (reg : BitVec 3) (x : RegMem) : (x.bytes reg).length = 1 + x.length := by
  cases x with
  | reg r => rfl
  | mem m => exact memForm_bytes_length reg m

theorem regMemBcst_bytes_length (reg : BitVec 3) (x : RegMemBcst) : (x.bytes reg).length = 1 + x.length := by
  cases x with
  | reg r => rfl
  | mem m => exact memForm_bytes_length reg m
  | bcst m => exact memForm_bytes_length reg m

theorem prefixes_length_le (p : Prefixes) : p.length ≤ 2 := by
  obtain ⟨g, a⟩ := p
  cases g <;> cases a <;> simp [Prefixes.length]

theorem memForm_length_le (m : MemForm) : m.length ≤ 5 := by
  cases m with
  | base b d => cases d <;> simp [MemForm.length, Disp.length]
  | sib sc i b d => cases d <;> simp [MemForm.length, Disp.length]
  | sibNoBase sc i d => exact Nat.le_refl 5
  | dispOnly d => exact Nat.le_succ 4

theorem regMem_length_le (x : RegMem) : x.length ≤ 5 := by
  cases x with
  | reg r => exact Nat.zero_le 5
  | mem m => exact memForm_length_le m

theorem regMemBcst_length_le (x : RegMemBcst) : x.length ≤ 5 := by
  cases x with
  | reg r => exact Nat.zero_le 5
  | mem m => exact memForm_length_le m
  | bcst m => exact memForm_length_le m

theorem rexHeader_bounds (rex : Option Bool) : 2 ≤ rexHeader rex ∧ rexHeader rex ≤ 3 := by
  cases rex <;> simp [rexHeader]

theorem rexBytes_length (rex : Option Bool) (dst : BitVec 4) (src2 : RegMem) :
    (rexBytes rex dst src2).length + 2 = rexHeader rex := by
  cases rex <;> rfl

/-! ### The prefix scan reads the encoder's prefixes back (30_encoding.md R82) -/

/-- A byte that is no prefix ends the scan. -/
theorem scanPrefixes_stop (m : Mode) (p : PrefixScan) (b : Byte) (bs : List Byte) (h : p.add m b = none) :
    scanPrefixes m p (b :: bs) = (p, b :: bs) := by
  simp [scanPrefixes, h]

/-- Scanning on from a prefix byte. -/
theorem scanPrefixes_step (m : Mode) (p q : PrefixScan) (b : Byte) (bs : List Byte) (h : p.add m b = some q) :
    scanPrefixes m p (b :: bs) = scanPrefixes m q bs := by
  simp [scanPrefixes, h]

/-- What the encoder's prefix bytes add to a scan that holds no REX byte. -/
def PrefixScan.withPrefixes (s : PrefixScan) (p : Prefixes) : PrefixScan :=
  { s with
    segs := s.segs ++ p.seg.toList
    addrSizes := s.addrSizes + if p.addrSize then 1 else 0 }

theorem add_segByte (m : Mode) (s : PrefixScan) (g : Seg) (h : s.rex = none) :
    s.add m g.byte = some { s with segs := s.segs ++ [g] } := by
  obtain ⟨_, _, _, _, _, _, _⟩ := s
  cases h
  cases g <;> simp [PrefixScan.add, PrefixScan.addLegacy, Seg.byte, segOfByte, isRex]

theorem add_addrSize (m : Mode) (s : PrefixScan) (h : s.rex = none) :
    s.add m 0x67#8 = some { s with addrSizes := s.addrSizes + 1 } := by
  obtain ⟨_, _, _, _, _, _, _⟩ := s
  cases h
  simp [PrefixScan.add, PrefixScan.addLegacy, segOfByte, isRex]

/-- The scan reads the encoder's prefix bytes back. -/
theorem scanPrefixes_bytes (m : Mode) (s : PrefixScan) (p : Prefixes) (bs : List Byte) (h : s.rex = none) :
    scanPrefixes m s (p.bytes ++ bs) = scanPrefixes m (s.withPrefixes p) bs := by
  obtain ⟨g, a⟩ := p
  obtain ⟨_, _, _, _, _, _, _⟩ := s
  cases h
  cases g <;> cases a <;> simp [Prefixes.bytes, PrefixScan.withPrefixes, scanPrefixes, add_segByte, add_addrSize]

/-- The scan of the encoder's prefix bytes admits exactly those prefixes. -/
theorem admit_withPrefixes (p : Prefixes) : (PrefixScan.empty.withPrefixes p).accept = some p := by
  obtain ⟨g, a⟩ := p
  cases g <;> cases a <;> rfl

/-! ### What the end of an instruction depends on -/

/-- Where a memory operand ends does not depend on the extension bits of its registers. -/
theorem decodeMem_congr (md : BitVec 2) (rm : BitVec 3) (x b x' b' : BitVec 1) (bs : List Byte) :
    (decodeMem md rm x b bs).map Prod.snd = (decodeMem md rm x' b' bs).map Prod.snd := by
  unfold decodeMem
  split
  · cases bs with
    | nil => rfl
    | cons sib r =>
      simp only [decodeSib]
      split
      · cases takeDisp32 r <;> rfl
      · cases takeDisp md r <;> rfl
  · split
    · rfl
    · cases takeDisp md bs <;> rfl

/-- Where an instruction ends, and whether `r/m` is a register, does not depend on the extension bits. -/
theorem decodeTail_congr (x b x' b' : BitVec 1) (bs : List Byte) :
    (decodeTail x b bs).map (fun t => (t.rm.isReg, t.rest)) = (decodeTail x' b' bs).map (fun t => (t.rm.isReg, t.rest)) := by
  cases bs with
  | nil => rfl
  | cons modrm bs =>
    simp only [decodeTail]
    split
    · cases bs <;> rfl
    · have h := decodeMem_congr (modrm.extractLsb' 6 2) (modrm.extractLsb' 0 3) x b x' b' bs
      rcases h1 : decodeMem (modrm.extractLsb' 6 2) (modrm.extractLsb' 0 3) x b bs with _ | ⟨m, _ | ⟨v, r⟩⟩ <;>
        rcases h2 : decodeMem (modrm.extractLsb' 6 2) (modrm.extractLsb' 0 3) x' b' bs with _ | ⟨m', _ | ⟨v', r'⟩⟩ <;>
        simp_all [TailRM.isReg]

/-- What `withTail` needs to give an instruction. -/
theorem withTail_ok {m : Mode} {p : PrefixScan} {ud : Bool → Bool} {ref : Option DecodeRefusal} {x b : BitVec 1}
    {bs rest : List Byte} {k : Prefixes → Tail → Decoded} {i : Instr} (h : withTail m p ud ref x b bs k = .ok i rest) :
    ∃ t q, ¬ (m = .mode32 ∧ p.addrSizes ≠ 0) ∧ decodeTail x b bs = some t ∧ ud t.rm.isReg = false ∧ ref = none ∧
      p.accept = some q ∧ k q t = .ok i rest := by
  unfold withTail at h
  split at h
  · split at h
    · cases h
    · split at h <;> cases h
  · rename_i hm
    split at h
    · cases h
    · rename_i t ht
      split at h
      · cases h
      · rename_i hu
        split at h
        · cases h
        · split at h
          · cases h
          · rename_i q hq
            exact ⟨t, q, hm, ht, by simpa using hu, rfl, hq, h⟩

end Sys2Proof
end

