-- ==== Sys2Proof/Laws/State.lean ====
section
/-! SUPPORT. One lemma per field per update of the state, so that no later proof unfolds a record update. -/

namespace Sys2Proof.Machine

@[simp] theorem setVec_k (s : State) (r : BitVec 5) (v : Zmm) : (s.setVec r v).k = s.k := rfl
@[simp] theorem setVec_gpr (s : State) (r : BitVec 5) (v : Zmm) : (s.setVec r v).gpr = s.gpr := rfl
@[simp] theorem setVec_rip (s : State) (r : BitVec 5) (v : Zmm) : (s.setVec r v).rip = s.rip := rfl
@[simp] theorem setVec_eflags (s : State) (r : BitVec 5) (v : Zmm) : (s.setVec r v).eflags = s.eflags := rfl
@[simp] theorem setVec_mxcsr (s : State) (r : BitVec 5) (v : Zmm) : (s.setVec r v).mxcsr = s.mxcsr := rfl
@[simp] theorem setVec_x87 (s : State) (r : BitVec 5) (v : Zmm) : (s.setVec r v).x87 = s.x87 := rfl
@[simp] theorem setVec_segs (s : State) (r : BitVec 5) (v : Zmm) : (s.setVec r v).segs = s.segs := rfl
@[simp] theorem setVec_cr0 (s : State) (r : BitVec 5) (v : Zmm) : (s.setVec r v).cr0 = s.cr0 := rfl
@[simp] theorem setVec_cr4 (s : State) (r : BitVec 5) (v : Zmm) : (s.setVec r v).cr4 = s.cr4 := rfl
@[simp] theorem setVec_xcr0 (s : State) (r : BitVec 5) (v : Zmm) : (s.setVec r v).xcr0 = s.xcr0 := rfl
@[simp] theorem setVec_mode (s : State) (r : BitVec 5) (v : Zmm) : (s.setVec r v).mode = s.mode := rfl
@[simp] theorem setVec_cpl (s : State) (r : BitVec 5) (v : Zmm) : (s.setVec r v).cpl = s.cpl := rfl
@[simp] theorem setVec_features (s : State) (r : BitVec 5) (v : Zmm) : (s.setVec r v).features = s.features := rfl
@[simp] theorem setVec_translation (s : State) (r : BitVec 5) (v : Zmm) : (s.setVec r v).translation = s.translation := rfl
@[simp] theorem setVec_mem (s : State) (r : BitVec 5) (v : Zmm) : (s.setVec r v).mem = s.mem := rfl

@[simp] theorem advance_zmm (s : State) (n : Nat) : (s.advance n).zmm = s.zmm := rfl
@[simp] theorem advance_k (s : State) (n : Nat) : (s.advance n).k = s.k := rfl
@[simp] theorem advance_gpr (s : State) (n : Nat) : (s.advance n).gpr = s.gpr := rfl
@[simp] theorem advance_eflags (s : State) (n : Nat) : (s.advance n).eflags = s.eflags := rfl
@[simp] theorem advance_mxcsr (s : State) (n : Nat) : (s.advance n).mxcsr = s.mxcsr := rfl
@[simp] theorem advance_x87 (s : State) (n : Nat) : (s.advance n).x87 = s.x87 := rfl
@[simp] theorem advance_segs (s : State) (n : Nat) : (s.advance n).segs = s.segs := rfl
@[simp] theorem advance_cr0 (s : State) (n : Nat) : (s.advance n).cr0 = s.cr0 := rfl
@[simp] theorem advance_cr4 (s : State) (n : Nat) : (s.advance n).cr4 = s.cr4 := rfl
@[simp] theorem advance_xcr0 (s : State) (n : Nat) : (s.advance n).xcr0 = s.xcr0 := rfl
@[simp] theorem advance_mode (s : State) (n : Nat) : (s.advance n).mode = s.mode := rfl
@[simp] theorem advance_cpl (s : State) (n : Nat) : (s.advance n).cpl = s.cpl := rfl
@[simp] theorem advance_features (s : State) (n : Nat) : (s.advance n).features = s.features := rfl
@[simp] theorem advance_translation (s : State) (n : Nat) : (s.advance n).translation = s.translation := rfl
@[simp] theorem advance_mem (s : State) (n : Nat) : (s.advance n).mem = s.mem := rfl

@[simp] theorem advance_rip (s : State) (n : Nat) : (s.advance n).rip = s.ripNext n := rfl
@[simp] theorem setVec_ripNext (s : State) (r : BitVec 5) (v : Zmm) (n : Nat) : (s.setVec r v).ripNext n = s.ripNext n := rfl
@[simp] theorem advance_vec (s : State) (n : Nat) (r : BitVec 5) : (s.advance n).vec r = s.vec r := rfl
@[simp] theorem setVec_zmm (s : State) (r : BitVec 5) (v : Zmm) : (s.setVec r v).zmm = s.zmm.set r.toNat v r.isLt := rfl

@[simp] theorem setVec_vec_same (s : State) (r : BitVec 5) (v : Zmm) : (s.setVec r v).vec r = v := by
  simp [State.vec, State.setVec]

theorem setVec_vec_other (s : State) (r q : BitVec 5) (v : Zmm) (h : q ≠ r) : (s.setVec r v).vec q = s.vec q := by
  have h' : r.toNat ≠ q.toNat := fun e => h (BitVec.eq_of_toNat_eq e.symm)
  simp [State.vec, State.setVec, Vector.getElem_set_ne, h']

@[simp] theorem initSignal_zmm (s : State) : s.initSignal.zmm = s.zmm := rfl
@[simp] theorem initSignal_k (s : State) : s.initSignal.k = s.k := rfl
@[simp] theorem initSignal_mxcsr (s : State) : s.initSignal.mxcsr = s.mxcsr := rfl
@[simp] theorem initSignal_x87 (s : State) : s.initSignal.x87 = s.x87 := rfl
@[simp] theorem initSignal_xcr0 (s : State) : s.initSignal.xcr0 = s.xcr0 := rfl
@[simp] theorem initSignal_features (s : State) : s.initSignal.features = s.features := rfl
@[simp] theorem initSignal_translation (s : State) : s.initSignal.translation = s.translation := rfl
@[simp] theorem initSignal_mem (s : State) : s.initSignal.mem = s.mem := rfl
@[simp] theorem initSignal_gpr (s : State) : s.initSignal.gpr = State.reset.gpr := rfl
@[simp] theorem initSignal_rip (s : State) : s.initSignal.rip = State.reset.rip := rfl
@[simp] theorem initSignal_eflags (s : State) : s.initSignal.eflags = State.reset.eflags := rfl
@[simp] theorem initSignal_segs (s : State) : s.initSignal.segs = State.reset.segs := rfl
@[simp] theorem initSignal_cr0 (s : State) : s.initSignal.cr0 = 0x00000010#32 ||| (s.cr0 &&& 0x60000000#32) := rfl
@[simp] theorem initSignal_cr4 (s : State) : s.initSignal.cr4 = State.reset.cr4 := rfl
@[simp] theorem initSignal_mode (s : State) : s.initSignal.mode = .realAddress := rfl
@[simp] theorem initSignal_cpl (s : State) : s.initSignal.cpl = 0#2 := rfl

/-- The two updates of an instruction written as one record update. -/
theorem setVec_advance (s : State) (r : BitVec 5) (v : Zmm) (n : Nat) :
    (s.setVec r v).advance n = { s with zmm := s.zmm.set r.toNat v r.isLt, rip := s.ripNext n } := rfl

/-- What `rip + len` is: the sum modulo 2^64, or modulo 2^32 in Mode32. -/
theorem ripNext_toNat (s : State) (n : Nat) :
    (s.ripNext n).toNat = if s.mode = .mode32 then (s.rip.toNat + n) % 2 ^ 32 else (s.rip.toNat + n) % 2 ^ 64 := by
  unfold State.ripNext
  split
  · simp only [low32, BitVec.toNat_setWidth, BitVec.toNat_add, BitVec.toNat_ofNat]
    omega
  · simp only [BitVec.toNat_add, BitVec.toNat_ofNat]
    omega

end Sys2Proof.Machine
end

