-- ==== Sys2Proof/Laws/Ops.lean ====
section
/-! SUPPORT. What each shared operation can do, said once: sequencing, the enabling checks, page faults, memory operands and
the second source. -/

namespace Sys2Proof.Machine

/-! ### Sequencing -/

theorem andThen_next {α β : Type} (a : α) (f : α → Res β) : andThen (.next a) f = f a := rfl

theorem andThen_eq_next {α β : Type} {o : Res α} {f : α → Res β} {b : β} :
    andThen o f = .next b ↔ ∃ a, o = .next a ∧ f a = .next b := by
  cases o <;> simp [andThen]

theorem andThen_eq_fault {α β : Type} {o : Res α} {f : α → Res β} {r : Fault} :
    andThen o f = .fault r ↔ o = .fault r ∨ ∃ a, o = .next a ∧ f a = .fault r := by
  cases o <;> simp [andThen]

theorem andThen_eq_refused {α β : Type} {o : Res α} {f : α → Res β} {r : Refusal} :
    andThen o f = .refused r ↔ o = .refused r ∨ ∃ a, o = .next a ∧ f a = .refused r := by
  cases o <;> simp [andThen]

theorem andThen_assoc {α β γ : Type} (o : Res α) (f : α → Res β) (g : β → Res γ) :
    andThen (andThen o f) g = andThen o fun a => andThen (f a) g := by
  cases o <;> rfl

/-! ### The enabling checks (60_exceptions.md R218 (3), (4)) -/

/-- Everything the enabling checks can answer. -/
theorem enabled_cases (s : State) (f : Form) (ud : Bool) :
    ((s.udState f || ud) = true ∧ s.enabled f ud = .fault .invalidOpcode) ∨
    ((s.udState f || ud) = false ∧ s.cr0TS = true ∧ s.enabled f ud = .fault .deviceNotAvailable) ∨
    ((s.udState f || ud) = false ∧ s.cr0TS = false ∧ s.mode.admitted = true ∧ s.enabled f ud = .next ()) ∨
    ((s.udState f || ud) = false ∧ s.cr0TS = false ∧ s.mode.admitted = false ∧
      s.enabled f ud = .refused .unadmittedMode) := by
  unfold State.enabled
  cases h1 : (s.udState f || ud) <;> cases h2 : s.cr0TS <;> cases h3 : s.mode.admitted <;> simp [raise]

theorem enabled_ud (s : State) (f : Form) (ud : Bool) (h : (s.udState f || ud) = true) :
    s.enabled f ud = .fault .invalidOpcode := by
  simp [State.enabled, h, raise]

/-- With the launch premise the enabling checks pass (70_reset_and_hazards.md R242). -/
theorem enabled_of_premise (s : State) (f : Form) (h : ShufpsEnabled f s) : s.enabled f false = .next () := by
  obtain ⟨hm, hts, hf⟩ := h
  have hadm : s.mode.admitted = true := by rcases hm with e | e <;> rw [e] <;> rfl
  have hno : noVex s.mode = false := by rcases hm with e | e <;> rw [e] <;> rfl
  have hud : s.udState f = false := by
    cases f
    · obtain ⟨h1, h2, h3⟩ := hf
      change (s.cr0.getLsbD 2 || !s.cr4.getLsbD 9 || !s.features.sse) = false
      rw [h1, h2, h3]; rfl
    all_goals simp only [State.udState, State.udVex, State.udEvex, State.avxState, State.avx512State, State.osxsave, hno]
    all_goals simp [-BitVec.getLsbD_eq_getElem, hf]
  have hts' : s.cr0TS = false := hts
  simp [State.enabled, hud, hts', hadm]

/-- `Disabled` as the enabling checks compute it (60_exceptions.md R203, R213). -/
theorem disabled_iff (i : Instr) (s : State) :
    Disabled i s ↔ (s.udState i.form || maskFieldsOf i == some (0#3, true)) = true := by
  have hm : noVex s.mode = true ↔ s.mode = .realAddress ∨ s.mode = .virtual8086 := by simp [noVex]
  unfold Disabled FieldsUd State.udState
  rw [Bool.or_eq_true, beq_iff_eq, or_comm]
  apply or_congr_left
  cases i.form <;>
    simp [-BitVec.getLsbD_eq_getElem, State.udSse, State.udVex, State.udEvex, State.cr0EM, State.osfxsr, State.osxsave,
      State.avxState, State.avx512State, hm, or_assoc, or_comm, or_left_comm]

/-! ### Reading through `Translate` (20_memory.md R57, R61) -/

/-- A fault listed for an operand is the fault of one of its bytes. -/
theorem mem_faults {s : State} {a : Word} {n : Nat} {f : Fault} (h : f ∈ s.faults a n) :
    ∃ b < n, s.byteFault a n b = some f := by
  obtain ⟨b, hb, h⟩ := List.mem_filterMap.mp h
  refine ⟨b, List.mem_range.mp hb, ?_⟩
  split at h
  · cases h
  · exact h

/-- Bytes under one case of `Translate` fault together. -/
theorem byteFault_none_congr {s : State} {a : Word} {n b c : Nat} (h : s.regionAt a n b = s.regionAt a n c)
    (hc : s.byteFault a n c = none) : s.byteFault a n b = none := by
  unfold State.byteFault State.answerAt at hc ⊢
  rw [h]
  cases hr : s.regionAt a n c with
  | none => rfl
  | some r => rw [hr] at hc; cases ha : r.answer <;> simp_all [Answer.faultAt]

/-- An operand with nothing listed has no faulting byte. -/
theorem faults_eq_nil {s : State} {a : Word} {n : Nat} (h : s.faults a n = []) : ∀ b < n, s.byteFault a n b = none := by
  have h' := List.filterMap_eq_nil_iff.mp h
  intro b
  induction b with
  | zero => intro hb; simpa using h' 0 (List.mem_range.mpr hb)
  | succ b ih =>
    intro hb
    have e := h' (b + 1) (List.mem_range.mpr hb)
    split at e
    · rename_i hc
      exact byteFault_none_congr hc.2.symm (ih (by omega))
    · exact e

/-- The reported fault is a listed one, and there is one whenever any is listed. -/
theorem memFault_cases (s : State) (a : Word) (n : Nat) :
    (s.faults a n = [] ∧ s.memFault a n = none) ∨ ∃ f ∈ s.faults a n, s.memFault a n = some f := by
  unfold State.memFault
  rcases h : s.faults a n with _ | ⟨f, _ | ⟨g, fs⟩⟩
  · simp
  · simp
  · right
    have hk := Nat.mod_lt (Config.reportedFault s.translation s.mem s.cpl a n) (show 0 < fs.length + 2 by omega)
    exact ⟨_, List.getElem_mem (l := f :: g :: fs) hk, List.getElem?_eq_getElem _⟩

/-- A fault of an operand is the fault of one of its bytes (20_memory.md R61). -/
theorem memFault_some {s : State} {a : Word} {n : Nat} {f : Fault} (h : s.memFault a n = some f) :
    ∃ b < n, s.byteFault a n b = some f := by
  rcases memFault_cases s a n with ⟨-, e⟩ | ⟨g, hg, e⟩
  · rw [e] at h; cases h
  · rw [e] at h; cases h; exact mem_faults hg

/-- An operand does not fault exactly when none of its bytes does (20_memory.md R61). -/
theorem memFault_eq_none (s : State) (a : Word) (n : Nat) :
    s.memFault a n = none ↔ ∀ b < n, s.byteFault a n b = none := by
  rcases memFault_cases s a n with ⟨h, e⟩ | ⟨f, hf, e⟩
  · simp only [e, true_iff]
    exact faults_eq_nil h
  · obtain ⟨b, hb, h⟩ := mem_faults hf
    simp only [e, reduceCtorEq, false_iff]
    intro hn
    rw [hn b hb] at h
    cases h

/-- No byte of the operand has read side effects. -/
theorem touchesIo_eq_false (s : State) (a : Word) (n : Nat) :
    s.touchesIo a n = false ↔ ∀ b < n, s.answerAt a n b ≠ .readSideEffects := by
  simp [State.touchesIo, List.any_eq_false]

/-- Everything the operand read can answer. -/
theorem memRead_cases (s : State) (a : Word) (n : Nat) :
    (∃ f, s.memFault a n = some f ∧ s.memRead a n = .fault f) ∨
    (s.memFault a n = none ∧ s.touchesIo a n = true ∧ s.memRead a n = .refused .readSideEffects) ∨
    (s.memFault a n = none ∧ s.touchesIo a n = false ∧ s.memRead a n = .next (s.bytesAt a n)) := by
  unfold State.memRead
  cases h1 : s.memFault a n with
  | some f => exact .inl ⟨f, rfl, rfl⟩
  | none => cases h2 : s.touchesIo a n <;> simp

/-- The operand read gives the bytes exactly when no byte faults or has side effects. -/
theorem memRead_next_iff (s : State) (a : Word) (n : Nat) (v : Zmm) :
    s.memRead a n = .next v ↔
      (∀ b < n, s.byteFault a n b = none ∧ s.answerAt a n b ≠ .readSideEffects) ∧ v = s.bytesAt a n := by
  rw [show (∀ b < n, s.byteFault a n b = none ∧ s.answerAt a n b ≠ .readSideEffects) ↔
      s.memFault a n = none ∧ s.touchesIo a n = false by
    rw [memFault_eq_none, touchesIo_eq_false]
    exact ⟨fun h => ⟨fun b hb => (h b hb).1, fun b hb => (h b hb).2⟩, fun h b hb => ⟨h.1 b hb, h.2 b hb⟩⟩]
  rcases memRead_cases s a n with ⟨f, h1, h2⟩ | ⟨h1, h2, h3⟩ | ⟨h1, h2, h3⟩
  · simp [h1, h2]
  · simp [h2, h3]
  · simp [h1, h2, h3, eq_comm]

/-- The address of byte `b` of an operand: the sum modulo the address space. -/
theorem byteAddr_toNat (s : State) (a : Word) (b : Nat) :
    (s.byteAddr a b).toNat = if s.mode = .mode32 then (a.toNat + b) % 2 ^ 32 else (a.toNat + b) % 2 ^ 64 := by
  unfold State.byteAddr
  split
  · simp only [low32, BitVec.toNat_setWidth, BitVec.toNat_add, BitVec.toNat_ofNat]
    omega
  · simp only [BitVec.toNat_add, BitVec.toNat_ofNat]
    omega

/-! ### Memory operands (20_memory.md R50 to R59) -/

/-- A linear address fits 32 bits in Mode32. -/
theorem linear_lt (s : State) (c : Access) (p : Prefixes) (len : Nat) (m : MemForm) (h : s.mode = .mode32) :
    (s.linear c p len m).toNat < 2 ^ 32 := by
  simp only [State.linear, h, reduceCtorEq, if_false, low32, BitVec.toNat_setWidth]
  omega

theorem low32_low32 (v : Word) : low32 (low32 v) = low32 v := by
  apply BitVec.eq_of_toNat_eq
  simp only [low32, BitVec.toNat_setWidth]
  omega

/-- Byte 0 of an operand is at the operand's linear address. -/
theorem byteAddr_linear_zero (s : State) (c : Access) (p : Prefixes) (len : Nat) (m : MemForm) :
    s.byteAddr (s.linear c p len m) 0 = s.linear c p len m := by
  unfold State.byteAddr State.linear
  by_cases h : s.mode = .mode32
  · simp [h, low32_low32]
  · simp [h]

/-- A legal address passes the segment and canonical checks. -/
theorem linAddr_next (s : State) (c : Access) (p : Prefixes) (len : Nat) (m : MemForm) (hl : AddressLegal s c p len m) :
    s.linAddr (s.segFor p m) (s.effAddr (s.addr32 p) len c.dispScale m) c.bytes = .next (s.linear c p len m) := by
  by_cases hm : s.mode = .mode64
  · simp only [AddressLegal, hm, if_true] at hl
    have hall : s.allCanonical (s.linear c p len m) c.bytes = true := by
      simpa [State.allCanonical, List.all_eq_true] using hl
    have hlin : s.linear c p len m = s.segBase (s.segFor p m) + s.effAddr (s.addr32 p) len c.dispScale m := by
      simp [State.linear, hm]
    rw [hlin] at hall ⊢
    simp [State.linAddr, hm, hall]
  · simp only [AddressLegal, hm, if_false] at hl
    simp [State.linAddr, State.linear, hm, hl]

/-- A legal, aligned address passes every check before the read. -/
theorem operandAddr_next (s : State) (c : Access) (p : Prefixes) (len : Nat) (m : MemForm) (hl : AddressLegal s c p len m)
    (ha : AddressAligned s c p len m) : s.operandAddr c p len m = .next (s.linear c p len m) := by
  unfold State.operandAddr
  rw [linAddr_next s c p len m hl, andThen_next]
  cases hc : c.align with
  | false => simp
  | true => simp [ha hc]

/-- A legacy operand through a segment whose base is no multiple of 16 is refused before any other check (20_memory.md R59). -/
theorem operandAddr_base (s : State) (c : Access) (p : Prefixes) (len : Nat) (m : MemForm) (hc : c.align = true)
    (hb : (s.segBase (s.segFor p m)).toNat % 16 ≠ 0) : s.operandAddr c p len m = .refused .segmentBaseUnaligned := by
  simp [State.operandAddr, hc, hb]

/-- A segment or canonical fault, unless the segment base is refused first. -/
theorem operandAddr_illegal (s : State) (c : Access) (p : Prefixes) (len : Nat) (m : MemForm) (f : Fault)
    (hb : c.align = true → (s.segBase (s.segFor p m)).toNat % 16 = 0)
    (h : s.linAddr (s.segFor p m) (s.effAddr (s.addr32 p) len c.dispScale m) c.bytes = .fault f) :
    s.operandAddr c p len m = .fault f := by
  unfold State.operandAddr
  rw [h]
  cases hc : c.align with
  | false => rfl
  | true => simp [hb hc, andThen]

/-- The only address the checks let through is the linear address. -/
theorem operandAddr_eq (s : State) (c : Access) (p : Prefixes) (len : Nat) (m : MemForm) (a : Word)
    (h : s.operandAddr c p len m = .next a) : a = s.linear c p len m := by
  unfold State.operandAddr at h
  split at h
  · cases h
  · obtain ⟨b, hb, h⟩ := andThen_eq_next.mp h
    have e : b = s.linear c p len m := by
      unfold State.linAddr at hb
      unfold State.linear
      split at hb <;> split at hb <;> simp_all [raise]
    split at h
    · cases h
    · cases h
      exact e

/-- A memory operand that can be read is read in full. -/
theorem memOperand_next (s : State) (c : Access) (p : Prefixes) (len : Nat) (m : MemForm) (h : OperandOk s c p len m) :
    s.memOperand c p len m = .next (s.bytesAt (s.linear c p len m) c.bytes) := by
  obtain ⟨hl, ha, hr⟩ := h
  unfold State.memOperand
  rw [operandAddr_next s c p len m hl ha, andThen_next, memRead_next_iff]
  exact ⟨hr, rfl⟩

/-- An element built from four bytes, the lowest byte least significant (20_memory.md R52). -/
theorem elem_build_bytes (n : Nat) (f : Nat → Byte) (j : Nat) (hn : n ≤ 64) (hj : 4 * j + 3 < n) :
    elem (build 8 n f) j = f (4 * j + 3) ++ f (4 * j + 2) ++ f (4 * j + 1) ++ f (4 * j) := by
  apply BitVec.eq_of_getLsbD_eq
  intro i hi
  simp only [elem, BitVec.getLsbD_extractLsb', hi, decide_true, Bool.true_and, build_getLsbD 8 n f _ (by decide) (show 8 * n ≤ 512 by omega),
    show 32 * j + i < 8 * n by omega, BitVec.getLsbD_append]
  have hq : (32 * j + i) / 8 = 4 * j + i / 8 := by omega
  have hr : (32 * j + i) % 8 = i % 8 := by omega
  rw [hq, hr]
  by_cases h0 : i < 8
  · simp [h0, show i / 8 = 0 by omega, show i % 8 = i by omega]
  · by_cases h1 : i < 16
    · simp [h0, show i - 8 < 8 by omega, show i / 8 = 1 by omega, show i % 8 = i - 8 by omega]
    · by_cases h2 : i < 24
      · simp [h0, show ¬ i - 8 < 8 by omega, show i - 8 - 8 < 8 by omega, show i / 8 = 2 by omega,
          show i % 8 = i - 8 - 8 by omega]
      · simp [h0, show ¬ i - 8 < 8 by omega, show ¬ i - 8 - 8 < 8 by omega, show i / 8 = 3 by omega,
          show i % 8 = i - 8 - 8 - 8 by omega]

/-- Element `j` of a memory operand is the doubleword at byte `4j` (20_memory.md R53). -/
theorem elem_bytesAt (s : State) (a : Word) (n j : Nat) (hn : n ≤ 64) (hj : 4 * j + 3 < n) :
    elem (s.bytesAt a n) j = s.dword a j :=
  elem_build_bytes n _ j hn hj

theorem accessOf_bytes (f : Form) : (accessOf f).bytes = 4 * f.kl ∧ 0 < (accessOf f).bytes ∧ (accessOf f).bytes ≤ 64 := by
  cases f <;> decide

/-- A second source that can be read is read, with the elements the premise names. -/
theorem source2_next (s : State) (f : Form) (p : Prefixes) (len : Nat) (src2 : RegMem) (x : Nat → BitVec 32)
    (h : Source2Is s f p len src2 x) : ∃ b, s.source2 f p len src2 = .next b ∧ ∀ j < f.kl, elem b j = x j := by
  cases src2 with
  | reg r => exact ⟨_, rfl, fun j hj => (h j hj).symm⟩
  | mem m =>
    obtain ⟨hb, hp, h64⟩ := accessOf_bytes f
    refine ⟨_, memOperand_next s _ p len m h.1, fun j hj => ?_⟩
    rw [elem_bytesAt s _ _ j h64 (by omega), h.2 j hj]

/-- A second source of an EVEX form that can be read is read, with the elements the premise names. -/
theorem source2Evex_next (s : State) (f : Form) (p : Prefixes) (len : Nat) (src2 : RegMemBcst) (x : Nat → BitVec 32)
    (h : Source2EvexIs s f p len src2 x) : ∃ b, s.source2Evex f p len src2 = .next b ∧ ∀ j < f.kl, elem b j = x j := by
  have hk : f.kl ≤ 16 := by cases f <;> decide
  cases src2 with
  | reg r => exact ⟨_, rfl, fun j hj => (h j hj).symm⟩
  | mem m =>
    obtain ⟨hb, hp, h64⟩ := accessOf_bytes f
    refine ⟨_, memOperand_next s _ p len m h.1, fun j hj => ?_⟩
    rw [elem_bytesAt s _ _ j h64 (by omega), h.2 j hj]
  | bcst m =>
    refine ⟨build 32 f.kl fun _ => (s.bytesAt (s.linear bcstAccess p len m) 4).extractLsb' 0 32, ?_, fun j hj => ?_⟩
    · simp only [State.source2Evex, memOperand_next s bcstAccess p len m h.1, andThen_next]
      rfl
    · rw [elem_build f.kl _ j hk hj, h.2 j hj]
      exact elem_bytesAt s _ 4 0 (by decide) (by decide)

end Sys2Proof.Machine
end

