-- ==== Sys2Proof/Laws/Exec.lean ====
section
/-! SUPPORT. What an instruction and a step can do: every next state is the old one with the destination vector register and
`rip` written (10_state.md R46). -/

namespace Sys2Proof.Machine

theorem vexOp_next {f : Form} {p : Prefixes} {len : Nat} {dst src1 : BitVec 4} {src2 : RegMem} {imm8 : BitVec 8} {s t : State}
    (h : vexOp f p len dst src1 src2 imm8 s = .next t) :
    ∃ b, s.enabled f false = .next () ∧ s.source2 f p len src2 = .next b ∧
      t = (s.setVec (vreg dst) (shuffle f.lanes (s.vec (vreg src1)) b imm8)).advance len := by
  obtain ⟨u, hu, h⟩ := andThen_eq_next.mp h
  obtain ⟨b, hb, h⟩ := andThen_eq_next.mp h
  exact ⟨b, hu, hb, (Host.Outcome.next.inj h).symm⟩

theorem evexOp_next {f : Form} {p : Prefixes} {dst src1 : BitVec 5} {src2 : RegMemBcst} {aaa : BitVec 3} {z : Bool}
    {imm8 : BitVec 8} {s t : State} (h : evexOp f p dst src1 src2 aaa z imm8 s = .next t) :
    ∃ b, s.enabled f (z && aaa == 0#3) = .next () ∧ s.source2Evex f p (instrLength p 5 src2.length) src2 = .next b ∧
      t = (s.setVec dst (s.masked f.kl aaa z (s.vec dst) (shuffle f.lanes (s.vec src1) b imm8))).advance
        (instrLength p 5 src2.length) := by
  obtain ⟨u, hu, h⟩ := andThen_eq_next.mp h
  obtain ⟨b, hb, h⟩ := andThen_eq_next.mp h
  exact ⟨b, hu, hb, (Host.Outcome.next.inj h).symm⟩

theorem execShufps_next {p : Prefixes} {rex : Option Bool} {dst : BitVec 4} {src2 : RegMem} {imm8 : BitVec 8} {s t : State}
    (h : execShufps p rex dst src2 imm8 s = .next t) :
    ∃ b, s.enabled .sse false = .next () ∧ s.source2 .sse p (instrLength p (rexHeader rex) src2.length) src2 = .next b ∧
      t = (s.setVec (vreg dst) (legacyResult (s.vec (vreg dst)) b imm8)).advance
        (instrLength p (rexHeader rex) src2.length) := by
  obtain ⟨u, hu, h⟩ := andThen_eq_next.mp h
  obtain ⟨b, hb, h⟩ := andThen_eq_next.mp h
  exact ⟨b, hu, hb, (Host.Outcome.next.inj h).symm⟩

/-- Every next state of an instruction. -/
theorem exec_next {i : Instr} {s t : State} (h : exec i s = .next t) :
    ∃ v, t = (s.setVec (dstOf i) v).advance i.length := by
  cases i with
  | shufps p rex dst src2 imm8 => obtain ⟨b, -, -, rfl⟩ := execShufps_next h; exact ⟨_, rfl⟩
  | vshufpsVex128C5 p dst src1 src2 imm8 => obtain ⟨b, -, -, rfl⟩ := vexOp_next h; exact ⟨_, rfl⟩
  | vshufpsVex128C4 p w dst src1 src2 imm8 => obtain ⟨b, -, -, rfl⟩ := vexOp_next h; exact ⟨_, rfl⟩
  | vshufpsVex256C5 p dst src1 src2 imm8 => obtain ⟨b, -, -, rfl⟩ := vexOp_next h; exact ⟨_, rfl⟩
  | vshufpsVex256C4 p w dst src1 src2 imm8 => obtain ⟨b, -, -, rfl⟩ := vexOp_next h; exact ⟨_, rfl⟩
  | vshufpsEvex128 p dst src1 src2 aaa z imm8 => obtain ⟨b, -, -, rfl⟩ := evexOp_next h; exact ⟨_, rfl⟩
  | vshufpsEvex256 p dst src1 src2 aaa z imm8 => obtain ⟨b, -, -, rfl⟩ := evexOp_next h; exact ⟨_, rfl⟩
  | vshufpsEvex512 p dst src1 src2 aaa z imm8 => obtain ⟨b, -, -, rfl⟩ := evexOp_next h; exact ⟨_, rfl⟩

/-- Every next state of a step comes from the instruction the fetch gives. -/
theorem step_next {s t : State} (h : step s = .next t) : ∃ i, s.fetch = .next i ∧ exec i s = .next t :=
  andThen_eq_next.mp h

/-- The fetch gives an instruction only when the window decodes to it in an admitted mode. -/
theorem fetch_next {s : State} {i : Instr} (h : s.fetch = .next i) :
    s.mode.admitted = true ∧ ∃ rest, decode s.mode s.window = .ok i rest := by
  unfold State.fetch at h
  cases hm : s.mode.admitted with
  | false => simp [hm] at h
  | true =>
    refine ⟨rfl, ?_⟩
    cases hd : decode s.mode s.window with
    | ok j rest =>
      simp [hm, hd] at h
      exact ⟨rest, by rw [h]⟩
    | ud => simp [hm, hd, raise] at h
    | refused r => simp [hm, hd] at h
    | truncated =>
      simp only [hm, hd, if_true] at h
      split at h <;> simp [raise] at h

/-- A register form reads no memory and cannot fault there: the second source is the register. -/
theorem source2_reg (s : State) (f : Form) (p : Prefixes) (len : Nat) (r : BitVec 4) :
    s.source2 f p len (.reg r) = .next (s.vec (vreg r)) := rfl

theorem source2Evex_reg (s : State) (f : Form) (p : Prefixes) (len : Nat) (r : BitVec 5) :
    s.source2Evex f p len (.reg r) = .next (s.vec r) := rfl

/-! ### Instructions with a memory operand -/

theorem maskUd_some (aaa : BitVec 3) (z : Bool) : (some (aaa, z) == some (0#3, true)) = (z && aaa == 0#3) := by
  cases z <;> simp

/-- What an instruction with a memory operand does: the enabling checks, the operand, and a next state. -/
theorem exec_memory {i : Instr} {c : Access} {m : MemForm} (s : State) (h : memoryOf i = some (c, m)) :
    ∃ k : Zmm → State, exec i s = andThen (s.enabled i.form (maskFieldsOf i == some (0#3, true))) fun _ =>
      andThen (s.memOperand c i.prefixes i.length m) fun b => .next (k b) := by
  cases i with
  | shufps p rex dst src2 imm8 =>
    cases src2 <;> cases h
    exact ⟨_, rfl⟩
  | vshufpsVex128C5 p dst src1 src2 imm8 =>
    cases src2 <;> cases h
    exact ⟨_, rfl⟩
  | vshufpsVex128C4 p w dst src1 src2 imm8 =>
    cases src2 <;> cases h
    exact ⟨_, rfl⟩
  | vshufpsVex256C5 p dst src1 src2 imm8 =>
    cases src2 <;> cases h
    exact ⟨_, rfl⟩
  | vshufpsVex256C4 p w dst src1 src2 imm8 =>
    cases src2 <;> cases h
    exact ⟨_, rfl⟩
  | vshufpsEvex128 p dst src1 src2 aaa z imm8 =>
    cases src2 <;> cases h <;> rw [show maskFieldsOf (.vshufpsEvex128 p dst src1 _ aaa z imm8) = some (aaa, z) from rfl, maskUd_some]
    · exact ⟨_, rfl⟩
    · simp only [exec, execEvex128, evexOp, State.source2Evex, andThen_assoc, andThen_next]
      exact ⟨_, rfl⟩
  | vshufpsEvex256 p dst src1 src2 aaa z imm8 =>
    cases src2 <;> cases h <;> rw [show maskFieldsOf (.vshufpsEvex256 p dst src1 _ aaa z imm8) = some (aaa, z) from rfl, maskUd_some]
    · exact ⟨_, rfl⟩
    · simp only [exec, execEvex256, evexOp, State.source2Evex, andThen_assoc, andThen_next]
      exact ⟨_, rfl⟩
  | vshufpsEvex512 p dst src1 src2 aaa z imm8 =>
    cases src2 <;> cases h <;> rw [show maskFieldsOf (.vshufpsEvex512 p dst src1 _ aaa z imm8) = some (aaa, z) from rfl, maskUd_some]
    · exact ⟨_, rfl⟩
    · simp only [exec, execEvex512, evexOp, State.source2Evex, andThen_assoc, andThen_next]
      exact ⟨_, rfl⟩

/-- A ready instruction with a memory operand is decided by that operand. -/
theorem exec_ready {i : Instr} {c : Access} {m : MemForm} {s : State} (h : memoryOf i = some (c, m)) (hr : Ready i s) :
    ∃ k : Zmm → State, exec i s = andThen (s.memOperand c i.prefixes i.length m) fun b => .next (k b) := by
  obtain ⟨k, hk⟩ := exec_memory s h
  have hud : (maskFieldsOf i == some (0#3, true)) = false := beq_eq_false_iff_ne.mpr hr.2
  rw [hud, enabled_of_premise s i.form hr.1, andThen_next] at hk
  exact ⟨k, hk⟩

/-- The access of a memory operand: between 4 and 64 bytes, and aligned exactly for the legacy form. -/
theorem memoryOf_access {i : Instr} {c : Access} {m : MemForm} (h : memoryOf i = some (c, m)) :
    4 ≤ c.bytes ∧ c.bytes ≤ 64 ∧ (c.align = true ↔ i.form = .sse) := by
  cases i with
  | shufps p rex dst src2 imm8 => (cases src2 <;> cases h); simp [accessOf, Instr.form]
  | vshufpsVex128C5 p dst src1 src2 imm8 => (cases src2 <;> cases h); simp [accessOf, Instr.form]
  | vshufpsVex128C4 p w dst src1 src2 imm8 => (cases src2 <;> cases h); simp [accessOf, Instr.form]
  | vshufpsVex256C5 p dst src1 src2 imm8 => (cases src2 <;> cases h); simp [accessOf, Instr.form]
  | vshufpsVex256C4 p w dst src1 src2 imm8 => (cases src2 <;> cases h); simp [accessOf, Instr.form]
  | vshufpsEvex128 p dst src1 src2 aaa z imm8 => cases src2 <;> cases h <;> simp [accessOf, bcstAccess, Instr.form]
  | vshufpsEvex256 p dst src1 src2 aaa z imm8 => cases src2 <;> cases h <;> simp [accessOf, bcstAccess, Instr.form]
  | vshufpsEvex512 p dst src1 src2 aaa z imm8 => cases src2 <;> cases h <;> simp [accessOf, bcstAccess, Instr.form]

end Sys2Proof.Machine
end

