-- ==== Sys2Proof/Laws/Memory.lean ====
section
/-! SUPPORT. Every memory operation keeps the canonical form, and a read after a write gives what was written. -/

namespace Sys2Proof.Machine

theorem wfFrom_mono (m : Memory) {lo lo' : Nat} (h : lo' ≤ lo) (hm : Memory.wfFrom lo m = true) :
    Memory.wfFrom lo' m = true := by
  cases m with
  | nil => rfl
  | cons c m =>
    obtain ⟨b, v⟩ := c
    simp only [Memory.wfFrom, Bool.and_eq_true, decide_eq_true_eq] at hm ⊢
    exact ⟨⟨⟨by omega, hm.1.1.2⟩, hm.1.2⟩, hm.2⟩

theorem write_wfFrom (m : Memory) (lo a : Nat) (v : Byte) (hlo : lo ≤ a) (ha : a < 2 ^ 64)
    (hm : Memory.wfFrom lo m = true) : Memory.wfFrom lo (Memory.write m a v) = true := by
  induction m generalizing lo with
  | nil =>
    by_cases hv : v = Memory.unlisted <;> simp [-Nat.reducePow, Memory.write, hv, Memory.wfFrom, hlo, ha]
  | cons c m ih =>
    obtain ⟨b, u⟩ := c
    simp only [Memory.wfFrom, Bool.and_eq_true, decide_eq_true_eq] at hm
    obtain ⟨⟨⟨h1, h2⟩, h3⟩, h4⟩ := hm
    by_cases hab : a < b
    · by_cases hv : v = Memory.unlisted
      · simp [-Nat.reducePow, Memory.write, hab, hv, Memory.wfFrom, h1, h2, h4, h3]
      · simp [-Nat.reducePow, Memory.write, hab, hv, Memory.wfFrom, hlo, ha, h2, h3, h4, Nat.succ_le_of_lt hab]
    · by_cases he : a = b
      · subst he
        by_cases hv : v = Memory.unlisted
        · simpa [Memory.write, hv] using wfFrom_mono m (by omega) h4
        · simp [-Nat.reducePow, Memory.write, hv, Memory.wfFrom, h1, h2, h4]
      · simp [-Nat.reducePow, Memory.write, hab, he, Memory.wfFrom, h1, h2, h3, ih (b + 1) (by omega) h4]

/-- Writing a byte below 2^64 keeps the canonical form. -/
theorem write_wf (m : Memory) (a : Nat) (v : Byte) (ha : a < 2 ^ 64) (hm : Memory.wf m = true) :
    Memory.wf (Memory.write m a v) = true :=
  write_wfFrom m 0 a v (Nat.zero_le a) ha hm

/-- Writing consecutive bytes keeps the canonical form. -/
theorem writeList_wf (vs : List Byte) (m : Memory) (a : Nat) (hm : Memory.wf m = true) :
    Memory.wf (Memory.writeList m a vs) = true := by
  induction vs generalizing m a with
  | nil => exact hm
  | cons v vs ih => exact ih _ _ (write_wf m _ v (Nat.mod_lt _ (by decide)) hm)

/-- Placing a program keeps the canonical form. -/
theorem withFetchWord_wf (s : State) (nbits w : Nat) (hm : Memory.wf s.mem = true) :
    Memory.wf (s.withFetchWord nbits w).mem = true :=
  writeList_wf _ _ _ hm

theorem reset_wf : Memory.wf State.reset.mem = true := rfl

theorem read_below (m : Memory) (lo a : Nat) (h : a < lo) (hm : Memory.wfFrom lo m = true) :
    Memory.read m a = Memory.unlisted := by
  induction m generalizing lo with
  | nil => rfl
  | cons c m ih =>
    obtain ⟨b, v⟩ := c
    simp only [Memory.wfFrom, Bool.and_eq_true, decide_eq_true_eq] at hm
    obtain ⟨⟨⟨h1, -⟩, -⟩, h4⟩ := hm
    have hne : a ≠ b := by omega
    simpa [Memory.read, hne] using ih (b + 1) (by omega) h4

theorem read_write_from (m : Memory) (lo a c : Nat) (v : Byte) (hm : Memory.wfFrom lo m = true) :
    Memory.read (Memory.write m a v) c = if c = a then v else Memory.read m c := by
  induction m generalizing lo with
  | nil => by_cases hv : v = Memory.unlisted <;> by_cases hc : c = a <;> simp [Memory.write, Memory.read, hv, hc]
  | cons d m ih =>
    obtain ⟨b, u⟩ := d
    simp only [Memory.wfFrom, Bool.and_eq_true, decide_eq_true_eq] at hm
    obtain ⟨⟨⟨h1, -⟩, -⟩, h4⟩ := hm
    by_cases hab : a < b
    · by_cases hv : v = Memory.unlisted
      · by_cases hc : c = a
        · subst hc
          have hne : c ≠ b := by omega
          simp [Memory.write, hab, hv, Memory.read, hne, read_below m (b + 1) c (by omega) h4]
        · simp [Memory.write, hab, hv, hc]
      · simp [Memory.write, hab, hv, Memory.read]
    · by_cases he : a = b
      · subst he
        by_cases hv : v = Memory.unlisted
        · by_cases hc : c = a
          · subst hc
            simp [Memory.write, hv, read_below m (c + 1) c (by omega) h4]
          · simp [Memory.write, hv, Memory.read, hc]
        · by_cases hc : c = a <;> simp [Memory.write, hv, Memory.read, hc]
      · by_cases hc : c = b
        · have hne : c ≠ a := fun e => he (e.symm.trans hc)
          simp [Memory.write, hab, he, Memory.read, hc]
          intro e
          exact absurd e.symm he
        · simp [Memory.write, hab, he, Memory.read, hc, ih (b + 1) h4]

/-- A read after a write: the byte written at its address, every other byte as before. -/
theorem read_write (m : Memory) (a c : Nat) (v : Byte) (hm : Memory.wf m = true) :
    Memory.read (Memory.write m a v) c = if c = a then v else Memory.read m c :=
  read_write_from m 0 a c v hm

end Sys2Proof.Machine
end

