-- ==== Sys2Proof/Laws/PerInstr.lean ====
section
/-! SUPPORT. Statements made per instruction: the family EncodeLength. -/

namespace Sys2Proof.Laws.EncodeLength

open Sys2Proof

/-- The encoder writes as many bytes as the length rule counts, between the shortest and the longest admitted spelling
(30_encoding.md R108, R109). -/
def Statement (i : Instr) : Prop := (encode i).length = i.length ∧ 4 ≤ i.length ∧ i.length ≤ 14

/-- The bounds of a length from the bounds of its parts. -/
theorem bounds (p : Prefixes) (h sd : Nat) (h1 : 2 ≤ h) (h2 : h ≤ 5) (h3 : sd ≤ 5) :
    4 ≤ instrLength p h sd ∧ instrLength p h sd ≤ 14 := by
  have := prefixes_length_le p
  unfold instrLength
  omega

theorem shufps (p : Prefixes) (rex : Option Bool) (dst : BitVec 4) (src2 : RegMem) (imm8 : BitVec 8) :
    Statement (.shufps p rex dst src2 imm8) := by
  refine ⟨?_, bounds p _ _ (rexHeader_bounds rex).1 (Nat.le_trans (rexHeader_bounds rex).2 (by decide)) (regMem_length_le src2)⟩
  have h := rexBytes_length rex dst src2
  simp only [encode, encodeBody, opcodeBytes, Instr.prefixes, Instr.length, instrLength, List.length_append, List.length_cons,
    prefixes_bytes_length, regMem_bytes_length, List.length_nil]
  omega

theorem vshufpsVex128C5 (p : Prefixes) (dst src1 : BitVec 4) (src2 : RegMem) (imm8 : BitVec 8) :
    Statement (.vshufpsVex128C5 p dst src1 src2 imm8) := by
  refine ⟨?_, bounds p _ _ (by decide) (by decide) (regMem_length_le src2)⟩
  simp only [encode, encodeBody, opcodeBytes, vexC5Bytes, Instr.prefixes, Instr.length, instrLength, List.length_append,
    List.length_cons, prefixes_bytes_length, regMem_bytes_length, List.length_nil]
  omega

theorem vshufpsVex128C4 (p : Prefixes) (w : Bool) (dst src1 : BitVec 4) (src2 : RegMem) (imm8 : BitVec 8) :
    Statement (.vshufpsVex128C4 p w dst src1 src2 imm8) := by
  refine ⟨?_, bounds p _ _ (by decide) (by decide) (regMem_length_le src2)⟩
  simp only [encode, encodeBody, opcodeBytes, vexC4Bytes, Instr.prefixes, Instr.length, instrLength, List.length_append,
    List.length_cons, prefixes_bytes_length, regMem_bytes_length, List.length_nil]
  omega

theorem vshufpsVex256C5 (p : Prefixes) (dst src1 : BitVec 4) (src2 : RegMem) (imm8 : BitVec 8) :
    Statement (.vshufpsVex256C5 p dst src1 src2 imm8) := by
  refine ⟨?_, bounds p _ _ (by decide) (by decide) (regMem_length_le src2)⟩
  simp only [encode, encodeBody, opcodeBytes, vexC5Bytes, Instr.prefixes, Instr.length, instrLength, List.length_append,
    List.length_cons, prefixes_bytes_length, regMem_bytes_length, List.length_nil]
  omega

theorem vshufpsVex256C4 (p : Prefixes) (w : Bool) (dst src1 : BitVec 4) (src2 : RegMem) (imm8 : BitVec 8) :
    Statement (.vshufpsVex256C4 p w dst src1 src2 imm8) := by
  refine ⟨?_, bounds p _ _ (by decide) (by decide) (regMem_length_le src2)⟩
  simp only [encode, encodeBody, opcodeBytes, vexC4Bytes, Instr.prefixes, Instr.length, instrLength, List.length_append,
    List.length_cons, prefixes_bytes_length, regMem_bytes_length, List.length_nil]
  omega

theorem vshufpsEvex128 (p : Prefixes) (dst src1 : BitVec 5) (src2 : RegMemBcst) (aaa : BitVec 3) (z : Bool)
    (imm8 : BitVec 8) : Statement (.vshufpsEvex128 p dst src1 src2 aaa z imm8) := by
  refine ⟨?_, bounds p _ _ (by decide) (by decide) (regMemBcst_length_le src2)⟩
  simp only [encode, encodeBody, opcodeBytesEvex, evexBytes, Instr.prefixes, Instr.length, instrLength, List.length_append,
    List.length_cons, prefixes_bytes_length, regMemBcst_bytes_length, List.length_nil]
  omega

theorem vshufpsEvex256 (p : Prefixes) (dst src1 : BitVec 5) (src2 : RegMemBcst) (aaa : BitVec 3) (z : Bool)
    (imm8 : BitVec 8) : Statement (.vshufpsEvex256 p dst src1 src2 aaa z imm8) := by
  refine ⟨?_, bounds p _ _ (by decide) (by decide) (regMemBcst_length_le src2)⟩
  simp only [encode, encodeBody, opcodeBytesEvex, evexBytes, Instr.prefixes, Instr.length, instrLength, List.length_append,
    List.length_cons, prefixes_bytes_length, regMemBcst_bytes_length, List.length_nil]
  omega

theorem vshufpsEvex512 (p : Prefixes) (dst src1 : BitVec 5) (src2 : RegMemBcst) (aaa : BitVec 3) (z : Bool)
    (imm8 : BitVec 8) : Statement (.vshufpsEvex512 p dst src1 src2 aaa z imm8) := by
  refine ⟨?_, bounds p _ _ (by decide) (by decide) (regMemBcst_length_le src2)⟩
  simp only [encode, encodeBody, opcodeBytesEvex, evexBytes, Instr.prefixes, Instr.length, instrLength, List.length_append,
    List.length_cons, prefixes_bytes_length, regMemBcst_bytes_length, List.length_nil]
  omega

end Sys2Proof.Laws.EncodeLength
end

