-- ==== Sys2Proof/Tests/Slice0.lean ====
section
/-! SUPPORT. Tests with expected results taken from spec/ (mostly 95_test_vectors.md), and for every obligation that has hypotheses
a witness that meets them together. -/

namespace Sys2Proof.Tests

open Sys2Proof Sys2Proof.Machine

-- The tests below are checked one after the other: elaborated together, their kernel evaluations hold too many threads at once.
set_option Elab.async false

/-! ### Helpers -/

/-- No legacy prefix. -/
def np : Prefixes := ⟨none, false⟩

/-- The next state of an outcome. -/
def nextOf (o : Res State) : Option State :=
  match o with
  | .next t => some t
  | .fault _ => none
  | .refused _ => none

/-- The fault of an outcome. -/
def faultOf (o : Res State) : Option Fault :=
  match o with
  | .next _ => none
  | .fault f => some f
  | .refused _ => none

/-- The refusal of an outcome. -/
def refusalOf (o : Res State) : Option Refusal :=
  match o with
  | .next _ => none
  | .fault _ => none
  | .refused r => some r

/-- An outcome is a next state or a result. -/
def isNext {α : Type} (o : Res α) : Bool :=
  match o with
  | .next _ => true
  | .fault _ => false
  | .refused _ => false

theorem next_of {α : Type} {o : Res α} (h : isNext o = true) : ∃ t, o = .next t := by
  cases o with
  | next t => exact ⟨t, rfl⟩
  | fault f => cases h
  | refused r => cases h

/-- Elements 0 to `n - 1` of a vector, element 0 first. -/
def elems (n : Nat) (v : Zmm) : List (BitVec 32) := (List.range n).map (elem v)

/-- A vector with element `j` equal to `t + j`. -/
def ramp (t : Nat) : Zmm := build 32 16 fun j => BitVec.ofNat 32 (t + j)

/-- A flat 32-bit segment. -/
def flat : Segment := ⟨0x0023, 0, 0xFFFFFFFF, true, false, []⟩

/-- The launch state of 70_reset_and_hazards.md R242 in a mode: every form enabled, flat segments, `rip = 1000H`; zmm1 to zmm3 and
zmm5 are ramps from A00H, B00H, D00H, 500H; k1 = 0101b, k3 = FF00H, k4 = 0; rsi = 5000H, rdi = 6008H, rbx = 8000H. -/
def on (m : Mode) : State :=
  { State.reset with
    mode := m, cr0 := 0x00000011, cr4 := 0x00040200, xcr0 := 0xE7, rip := 0x1000
    segs := ⟨flat, flat, flat, flat, flat, flat⟩
    gpr := #v[0, 0, 0, 0x8000, 0x7000, 0, 0x5000, 0x6008, 0, 0, 0, 0, 0, 0, 0, 0]
    k := #v[0, 5, 0, 0xFF00, 0, 0, 0, 0x0F0F]
    zmm := ((((Vector.replicate 32 0#512).set 1 (ramp 0xA00)).set 2 (ramp 0xB00)).set 3 (ramp 0xD00)).set 5 (ramp 0x500) }

/-- The launch state in Mode64. -/
def s64 : State := on .mode64

/-- The launch state in Mode32. -/
def s32 : State := on .mode32

/-- Bytes placed in memory. -/
def put (s : State) (a : Nat) (bs : List Byte) : State := { s with mem := Memory.writeList s.mem a bs }

/-- The 4096 bytes from an address with one answer of `Translate`, at every privilege level and for every operand. -/
def paged (s : State) (a : Nat) (t : Answer) : State := { s with translation := [⟨a, a + 4095, 15, none, t⟩] }

/-- Page not present. -/
def absent : Answer := .paging false false false

/-- One step from the launch state with these bytes at `rip`. -/
def go (s : State) (bs : List Byte) : Option State := nextOf (step (put s 0x1000 bs))

/-- A register's elements after one step. -/
def goElems (s : State) (bs : List Byte) (r : BitVec 5) (n : Nat) : Option (List (BitVec 32)) :=
  (go s bs).map fun t => elems n (t.vec r)

/-! ### Well-formedness: an ill-formed term for each check -/

theorem test_wf_good :
    (Instr.shufps np none 0 (.reg 0) 0x1B).wf .mode64 = true ∧
    (Instr.shufps ⟨some .fs, true⟩ (some true) 9 (.mem (.sib 2 1 13 (.disp8 8))) 0).wf .mode64 = true ∧
    (Instr.vshufpsEvex512 np 17 18 (.reg 19) 7 true 0x72).wf .mode64 = true ∧
    (Instr.vshufpsVex256C4 np true 7 7 (.mem (.sibNoBase 0 4 0)) 0).wf .mode32 = true := by decide

/-- The mode has no instructions (00_scope.md R7). -/
theorem test_wf_mode_refused :
    (Instr.shufps np none 0 (.reg 0) 0x1B).wf .realAddress = false ∧ (Instr.shufps np none 0 (.reg 0) 0x1B).wf .virtual8086 = false ∧
    (Instr.shufps np none 0 (.reg 0) 0x1B).wf .systemManagement = false := by decide

/-- 67H outside Mode64 (30_encoding.md R82). -/
theorem test_wf_address_size_refused : (Instr.shufps ⟨none, true⟩ none 0 (.reg 0) 0).wf .mode32 = false := by decide

/-- A REX byte outside Mode64, and an extended register without one (30_encoding.md R88). -/
theorem test_wf_rex_refused :
    (Instr.shufps np (some false) 0 (.reg 0) 0).wf .mode32 = false ∧ (Instr.shufps np none 8 (.reg 0) 0).wf .mode64 = false ∧
    (Instr.shufps np none 0 (.mem (.base 9 .absent)) 0).wf .mode64 = false := by decide

/-- Base 100 without SIB, base 101 without displacement (30_encoding.md R103, R107). -/
theorem test_wf_memory_form_refused :
    (Instr.shufps np none 0 (.mem (.base 4 .absent)) 0).wf .mode64 = false ∧
    (Instr.shufps np none 0 (.mem (.base 5 .absent)) 0).wf .mode64 = false ∧
    (Instr.shufps np none 0 (.mem (.sib 0 0 5 .absent)) 0).wf .mode64 = false ∧
    (Instr.vshufpsEvex128 np 0 0 (.bcst (.base 12 .absent)) 0 false 0).wf .mode64 = false := by decide

/-- An operand extension in the two-byte VEX form, registers 8 and up in Mode32 (30_encoding.md R91, R95, R102). -/
theorem test_wf_registers_refused :
    (Instr.vshufpsVex128C5 np 0 0 (.reg 8) 0).wf .mode64 = false ∧ (Instr.vshufpsVex256C5 np 0 0 (.mem (.base 8 .absent)) 0).wf .mode64 = false ∧
    (Instr.vshufpsVex128C4 np false 0 8 (.reg 0) 0).wf .mode32 = false ∧ (Instr.vshufpsVex256C4 np false 8 0 (.reg 0) 0).wf .mode32 = false ∧
    (Instr.vshufpsEvex256 np 0 0 (.reg 16) 0 false 0).wf .mode32 = false := by decide

/-- Zeroing without a writemask (30_encoding.md R100). -/
theorem test_wf_zeroing_refused : (Instr.vshufpsEvex512 np 0 0 (.reg 0) 0 true 0).wf .mode64 = false := by decide

/-! ### Decoding: words written out from the layouts (95_test_vectors.md section 2.8) -/

theorem test_decode_shufps :
    decode .mode64 [0x0F, 0xC6, 0xC0, 0x1B] = .ok (.shufps np none 0 (.reg 0) 0x1B) [] ∧
    decode .mode32 [0x0F, 0xC6, 0xCA, 0x4E] = .ok (.shufps np none 1 (.reg 2) 0x4E) [] ∧
    decode .mode64 [0x0F, 0xC6, 0x00, 0x4E] = .ok (.shufps np none 0 (.mem (.base 0 .absent)) 0x4E) [] ∧
    decode .mode64 [0x0F, 0xC6, 0x46, 0x10, 0xE4] = .ok (.shufps np none 0 (.mem (.base 6 (.disp8 0x10))) 0xE4) [] ∧
    decode .mode64 [0x45, 0x0F, 0xC6, 0xCC, 0x00] = .ok (.shufps np (some false) 9 (.reg 12) 0) [] ∧
    decode .mode64 [0x45, 0x0F, 0xC6, 0x44, 0x8D, 0x08, 0x39] =
      .ok (.shufps np (some false) 8 (.mem (.sib 2 1 13 (.disp8 8))) 0x39) [] ∧
    decode .mode64 [0x0F, 0xC6, 0x0D, 0xF8, 0x00, 0x00, 0x00, 0x1B] = .ok (.shufps np none 1 (.mem (.dispOnly 0xF8)) 0x1B) [] := by
  decide

theorem test_decode_vex_c5 :
    decode .mode64 [0xC5, 0xF8, 0xC6, 0xD1, 0x44] = .ok (.vshufpsVex128C5 np 2 0 (.reg 1) 0x44) [] ∧
    decode .mode32 [0xC5, 0xF0, 0xC6, 0x07, 0x00] = .ok (.vshufpsVex128C5 np 0 1 (.mem (.base 7 .absent)) 0) [] ∧
    decode .mode64 [0xC5, 0xDC, 0xC6, 0xDD, 0xB1] = .ok (.vshufpsVex256C5 np 3 4 (.reg 5) 0xB1) [] ∧
    decode .mode64 [0xC5, 0xEC, 0xC6, 0x57, 0x20, 0x4E] = .ok (.vshufpsVex256C5 np 2 2 (.mem (.base 7 (.disp8 0x20))) 0x4E) [] := by
  decide

/-- The 128-bit word is the 256-bit one of the table with `L = 0` (30_encoding.md R92). -/
theorem test_decode_vex_c4 :
    decode .mode64 [0xC4, 0xC1, 0x74, 0xC6, 0xC1, 0x1B] = .ok (.vshufpsVex256C4 np false 0 1 (.reg 9) 0x1B) [] ∧
    decode .mode64 [0xC4, 0xC1, 0xF4, 0xC6, 0xC1, 0x1B] = .ok (.vshufpsVex256C4 np true 0 1 (.reg 9) 0x1B) [] ∧
    decode .mode64 [0xC4, 0xC1, 0x70, 0xC6, 0xC1, 0x1B] = .ok (.vshufpsVex128C4 np false 0 1 (.reg 9) 0x1B) [] := by decide

theorem test_decode_evex :
    decode .mode64 [0x62, 0xF1, 0x6C, 0x09, 0xC6, 0xCB, 0x1B] = .ok (.vshufpsEvex128 np 1 2 (.reg 3) 1 false 0x1B) [] ∧
    decode .mode32 [0x62, 0xF1, 0x6C, 0xC9, 0xC6, 0xCB, 0x1B] = .ok (.vshufpsEvex512 np 1 2 (.reg 3) 1 true 0x1B) [] ∧
    decode .mode64 [0x62, 0xF1, 0x74, 0x38, 0xC6, 0x00, 0x4E] =
      .ok (.vshufpsEvex256 np 0 1 (.bcst (.base 0 .absent)) 0 false 0x4E) [] ∧
    decode .mode64 [0x62, 0xF1, 0x74, 0x5A, 0xC6, 0x00, 0xE4] =
      .ok (.vshufpsEvex512 np 0 1 (.bcst (.base 0 .absent)) 2 false 0xE4) [] ∧
    decode .mode64 [0x62, 0xA1, 0x6C, 0x40, 0xC6, 0xCB, 0x72] = .ok (.vshufpsEvex512 np 17 18 (.reg 19) 0 false 0x72) [] ∧
    decode .mode64 [0x62, 0xF1, 0x74, 0x28, 0xC6, 0x40, 0x02, 0x00] =
      .ok (.vshufpsEvex256 np 0 1 (.mem (.base 0 (.disp8 2))) 0 false 0) [] ∧
    decode .mode64 [0x62, 0xF1, 0x54, 0xDB, 0xC6, 0x6B, 0x01, 0x1B] =
      .ok (.vshufpsEvex512 np 5 5 (.bcst (.base 3 (.disp8 1))) 3 true 0x1B) [] := by decide

/-- The negative vectors of section 2.8. -/
theorem test_decode_ud :
    decode .mode64 [0xF0, 0x0F, 0xC6, 0xC0, 0x1B] = .ud ∧ decode .mode64 [0xF3, 0x0F, 0xC6, 0xC0, 0x1B] = .ud ∧
    decode .mode64 [0xF2, 0x0F, 0xC6, 0xC0, 0x1B] = .ud ∧ decode .mode64 [0x66, 0xC5, 0xF8, 0xC6, 0xD1, 0x44] = .ud ∧
    decode .mode64 [0xC5, 0xFA, 0xC6, 0xD1, 0x44] = .ud ∧ decode .mode64 [0xC5, 0xFB, 0xC6, 0xD1, 0x44] = .ud ∧
    decode .mode64 [0x62, 0xF1, 0x6C, 0x88, 0xC6, 0xCB, 0x1B] = .ud ∧ decode .mode64 [0x62, 0xF1, 0x6C, 0x19, 0xC6, 0xCB, 0x1B] = .ud ∧
    decode .mode64 [0x62, 0xF1, 0x6C, 0x69, 0xC6, 0xCB, 0x1B] = .ud ∧ decode .mode64 [0x62, 0xF1, 0xEC, 0x09, 0xC6, 0xCB, 0x1B] = .ud ∧
    decode .mode64 [0x62, 0xF5, 0x6C, 0x09, 0xC6, 0xCB, 0x1B] = .ud ∧ decode .mode64 [0x62, 0xF1, 0x68, 0x09, 0xC6, 0xCB, 0x1B] = .ud := by
  decide

/-- What the spec refuses: SHUFPD, VSHUFPD, repeated prefixes, REX before a prefix, 16-bit addressing, ignored bits in Mode32, LES,
another opcode, and bytes that end too early (30_encoding.md R82, R88, R95, R102, R112, R114). -/
theorem test_decode_refused :
    decode .mode64 [0x66, 0x0F, 0xC6, 0xC0, 0x01] = .refused .shufpd ∧ decode .mode64 [0xC5, 0xF9, 0xC6, 0xD1, 0x01] = .refused .vshufpd ∧
    decode .mode64 [0x62, 0xF1, 0xED, 0x09, 0xC6, 0xCB, 0x1B] = .refused .vshufpd ∧
    decode .mode64 [0x64, 0x65, 0x0F, 0xC6, 0xC0, 0x01] = .refused .repeatedPrefix ∧
    decode .mode64 [0x67, 0x67, 0x0F, 0xC6, 0xC0, 0x01] = .refused .repeatedPrefix ∧
    decode .mode64 [0x48, 0x64, 0x0F, 0xC6, 0xC0, 0x01] = .refused .rexNotAdjacent ∧
    decode .mode32 [0x67, 0x0F, 0xC6, 0xC0, 0x01] = .refused .address16 ∧
    decode .mode32 [0xC4, 0xC1, 0x74, 0xC6, 0xC1, 0x1B] = .refused .ignoredBit ∧
    decode .mode32 [0x62, 0xD1, 0x6C, 0x09, 0xC6, 0xCB, 0x1B] = .refused .ignoredBit ∧
    decode .mode32 [0xC4, 0x81, 0x74, 0xC6, 0xC1, 0x1B] = .refused .otherInstruction ∧
    decode .mode64 [0x0F, 0xC7, 0xC0, 0x01] = .refused .otherInstruction ∧ decode .mode64 [0x0F, 0xC6, 0xC0] = .truncated := by
  decide

/-- Sixteen bytes, of which the first fifteen are seen: too long before a reserved field, LOCK or a repeated prefix is judged
(60_exceptions.md R218 (2), (3)). -/
theorem test_decode_overlong :
    decode .mode64 [0x64, 0x67, 0x66, 0xF0, 0x62, 0xF1, 0xEC, 0x09, 0xC6, 0x84, 0x24, 1, 2, 3, 4] = .truncated ∧
    decode .mode64 [0x2E, 0x67, 0x66, 0xF0, 0x62, 0xF1, 0xF4, 0x48, 0xC6, 0x84, 0x8D, 1, 2, 3, 4] = .truncated ∧
    decode .mode32 [0x2E, 0x2E, 0x2E, 0x2E, 0x2E, 0x2E, 0x2E, 0xF0, 0x67, 0xC5, 0xF0, 0xC6, 0x86, 1, 2] = .truncated := by decide

/-- Where several lines of R112 apply (assumption log 19): `pp = 10` before an ignored bit, LOCK or 66H before a stray REX, a reserved field
before an ignored bit, SHUFPD before a repeated prefix. -/
theorem test_decode_order :
    decode .mode32 [0xC4, 0xC1, 0x76, 0xC6, 0xC1, 0x1B] = .ud ∧ decode .mode64 [0xF0, 0x48, 0x2E, 0x0F, 0xC6, 0xC0, 0x1B] = .ud ∧
    decode .mode64 [0x48, 0x66, 0xC5, 0xF8, 0xC6, 0xD1, 0x44] = .ud ∧ decode .mode32 [0x62, 0xD5, 0x6C, 0x09, 0xC6, 0xCB, 0x1B] = .ud ∧
    decode .mode64 [0x64, 0x66, 0x65, 0x0F, 0xC6, 0xC0, 0x1B] = .refused .shufpd := by decide

/-- The encoder writes the spec's words. -/
theorem test_encode :
    encode (.shufps np (some false) 8 (.mem (.sib 2 1 13 (.disp8 8))) 0x39) = [0x45, 0x0F, 0xC6, 0x44, 0x8D, 0x08, 0x39] ∧
    encode (.vshufpsVex256C4 np true 0 1 (.reg 9) 0x1B) = [0xC4, 0xC1, 0xF4, 0xC6, 0xC1, 0x1B] ∧
    encode (.vshufpsVex128C5 np 0 1 (.mem (.sib 0 4 4 .absent)) 0) = [0xC5, 0xF0, 0xC6, 0x04, 0x24, 0x00] ∧
    encode (.vshufpsEvex512 np 17 18 (.reg 19) 0 false 0x72) = [0x62, 0xA1, 0x6C, 0x40, 0xC6, 0xCB, 0x72] := by decide

/-! ### One step (95_test_vectors.md sections 2.2 to 2.9 and 3) -/

/-- L-2: `shufps xmm1, xmm1, 1BH` reverses, reading before writing; bits 511:128 keep their value (L-1). -/
theorem test_shufps_reverse :
    goElems s64 [0x0F, 0xC6, 0xC9, 0x1B] 1 5 = some [0xA03, 0xA02, 0xA01, 0xA00, 0xA04] := by decide +kernel

/-- P4 step 2: `shufps xmm0, [rsi+8], E4H` with rsi = 5000H is #GP(0). -/
theorem test_shufps_misaligned :
    faultOf (step (put s64 0x1000 [0x0F, 0xC6, 0x46, 0x08, 0xE4])) = some .generalProtection := by decide +kernel

/-- V-1: `vshufps xmm2, xmm1, xmm2, 44H`: low halves of both, bits above 127 zero; `rip` advances by 5. -/
theorem test_vex128_c5 :
    goElems s64 [0xC5, 0xF0, 0xC6, 0xD2, 0x44] 2 5 = some [0xA00, 0xA01, 0xB00, 0xB01, 0] ∧
    (go s64 [0xC5, 0xF0, 0xC6, 0xD2, 0x44]).map (fun t => t.rip) = some 0x1005 := by decide +kernel

/-- X-9: `vshufps xmm0, xmm1, [rsp], 0` with a non-canonical rsp is #SS(0). -/
theorem test_vex128_c5_stack :
    faultOf (step (put { s64 with gpr := s64.gpr.set 4 0x0000800000000000 } 0x1000 [0xC5, 0xF0, 0xC6, 0x04, 0x24, 0x00])) =
      some .stackSegment := by decide +kernel

/-- V-6: `vshufps xmm0, xmm1, [rdi], 4EH` at an address that is 8 modulo 16, with the bytes of section 2.7. -/
theorem test_vex128_c4_memory :
    goElems (put s64 0x6008 [0, 0, 0x80, 0x3F, 0, 0, 0, 0x40, 0, 0, 0x40, 0x40, 0, 0, 0x80, 0x40]) [0xC4, 0xE1, 0x70, 0xC6, 0x07, 0x4E] 0 5 =
      some [0xA02, 0xA03, 0x3F800000, 0x40000000, 0] := by decide +kernel

/-- V-3: `vshufps ymm3, ymm1, ymm2, B1H`. -/
theorem test_vex256_c5 :
    goElems s64 [0xC5, 0xF4, 0xC6, 0xDA, 0xB1] 3 9 = some [0xA01, 0xA00, 0xB03, 0xB02, 0xA05, 0xA04, 0xB07, 0xB06, 0] := by
  decide +kernel

/-- V-7 in the three-byte spelling: `vshufps ymm1, ymm1, ymm1, E4H` only zeroes bits 511:256. -/
theorem test_vex256_c4 :
    goElems s64 [0xC4, 0xE1, 0x74, 0xC6, 0xC9, 0xE4] 1 9 =
      some [0xA00, 0xA01, 0xA02, 0xA03, 0xA04, 0xA05, 0xA06, 0xA07, 0] := by decide +kernel

/-- M-1 with the ramps D in zmm3, A in zmm1, B in zmm2: `vshufps xmm3 with k1, xmm1, xmm2, 1BH`, k1 = 0101b. -/
theorem test_evex128_merge :
    goElems s64 [0x62, 0xF1, 0x74, 0x09, 0xC6, 0xDA, 0x1B] 3 5 = some [0xA03, 0xD01, 0xB01, 0xD03, 0] := by decide +kernel

/-- M-2: the same with zeroing. -/
theorem test_evex128_zero :
    goElems s64 [0x62, 0xF1, 0x74, 0x89, 0xC6, 0xDA, 0x1B] 3 5 = some [0xA03, 0, 0xB01, 0, 0] := by decide +kernel

/-- B-1: `vshufps ymm0, ymm1, dword ptr [rbx+8] broadcast, 4EH`: disp8 is 2 times 4. -/
theorem test_evex256_broadcast :
    goElems (put s64 0x8008 [0x0D, 0xF0, 0xFE, 0xCA]) [0x62, 0xF1, 0x74, 0x38, 0xC6, 0x43, 0x02, 0x4E] 0 9 =
      some [0xA02, 0xA03, 0xCAFEF00D, 0xCAFEF00D, 0xA06, 0xA07, 0xCAFEF00D, 0xCAFEF00D, 0] := by decide +kernel

/-- M-9 with k7 = 0F0FH: `vshufps zmm3 with k7, zmm1, zmm2, 72H`. -/
theorem test_evex512_merge :
    goElems s64 [0x62, 0xF1, 0x74, 0x4F, 0xC6, 0xDA, 0x72] 3 16 =
      some [0xA02, 0xA00, 0xB03, 0xB01, 0xD04, 0xD05, 0xD06, 0xD07, 0xA0A, 0xA08, 0xB0B, 0xB09, 0xD0C, 0xD0D, 0xD0E, 0xD0F] := by
  decide +kernel

/-- B-5 and X-10: an empty mask does not suppress the fault of bytes 32 to 63, on a page not present: `vshufps zmm0 with k4, zmm1,
[rsi-32], 72H` by disp32; CR2 is the first byte that faults. At CPL 3 the code is 4. -/
theorem test_evex512_page_fault :
    faultOf (step (put (paged { s64 with cpl := 3 } 0x5000 absent) 0x1000
      [0x62, 0xF1, 0x74, 0x4C, 0xC6, 0x86, 0xE0, 0xFF, 0xFF, 0xFF, 0x72])) = some (.pageFault 4 0x5000) := by decide +kernel

/-- R57: any answer of `Translate` can be held: at CPL 0 a protection fault with code 1 and the last byte's address for CR2, for one
operand only, and none for the next. -/
theorem test_translate_request :
    let s := { s64 with translation := [⟨0, 2 ^ 64 - 1, 1, some (0x5000, 16), .fault (.pageFault 1 0x500F)⟩] }
    faultOf (step (put s 0x1000 [0x0F, 0xC6, 0x06, 0x00])) = some (.pageFault 1 0x500F) ∧
    faultOf (step (put s 0x1000 [0x0F, 0xC6, 0x46, 0x10, 0x00])) = none := by decide +kernel

/-- R66: code is fetchable where a data read faults. -/
theorem test_fetch_ignores_translation :
    isNext (step (put (paged s64 0x1000 absent) 0x1000 [0x0F, 0xC6, 0xC9, 0x1B])) = true := by decide +kernel

/-- R35: in Mode32 an instruction whose linear address wraps past 2^32 is refused. -/
theorem test_mode32_wrap_refused :
    refusalOf (step (put { s32 with rip := 0x10000, segs := { s32.segs with cs := ⟨0x23, 0xFFFF0000, 0xFFFFFFFF, true, false, []⟩ } } 0
      [0x0F, 0xC6, 0xC9, 0x1B])) = some .fetchOutside := by decide +kernel

/-- R56: the flat instance, `SegOk` true everywhere, reads an operand that a limit check would fault. -/
theorem test_segment_always_legal :
    let s := { s32 with gpr := s32.gpr.set 6 0xFFFFFFF8, segs := { s32.segs with ds := ⟨0, 0, 0, false, false, [⟨0, 2 ^ 64 - 1, none, true⟩]⟩ } }
    isNext (step (put s 0x1000 [0xC5, 0xF0, 0xC6, 0x06, 0x00])) = true := by decide +kernel

/-- R59: through a segment base of 8 the legacy operand is refused although it also fails the limit. -/
theorem test_base_refused_first :
    refusalOf (step (put { s32 with segs := { s32.segs with ds := ⟨0x23, 8, 0, true, false, []⟩ } } 0x1000 [0x0F, 0xC6, 0x06, 0x00])) =
      some .segmentBaseUnaligned := by decide +kernel

/-! ### Reset and the placing of a program -/

/-- A program placed at reset runs at the next step (70_reset_and_hazards.md R242). -/
theorem test_withFetchWord : (nextOf (step (State.reset.withFetchWord 16 0xC60F))).isSome = true ∧
    decodeTableWord 16 0xC60F = some (.shufps np none 0 (.mem (.base 0 .absent)) 0) := by decide +kernel

/-- Memory after reset has the canonical form. -/
theorem test_reset_memory : Memory.wf State.reset.mem = true := rfl

/-! ### Witnesses: encoding -/

theorem witness_DecodeOfEncode :
    (Instr.vshufpsEvex512 ⟨some .gs, true⟩ 31 31 (.bcst (.sib 3 15 15 (.disp32 0xFFFFFFFF))) 7 true 0xFF).wf .mode64 = true ∧
    (Instr.vshufpsVex128C4 ⟨some .ss, false⟩ true 7 7 (.mem (.sibNoBase 3 7 0x80000000)) 0).wf .mode32 = true := by decide

theorem witness_DecodedIsWellFormed :
    decode .mode64 [0x0F, 0xC6, 0xC0, 0x1B, 0x90] = .ok (.shufps np none 0 (.reg 0) 0x1B) [0x90] := by decide

/-- Every clause: a legacy and a VEX form, the forbidden prefix before, between and after the admitted ones. -/
theorem witness_ForbiddenPrefixes :
    (Instr.shufps ⟨some .fs, true⟩ none 0 (.reg 0) 0).wf .mode64 = true ∧ (Instr.shufps ⟨some .fs, true⟩ none 0 (.reg 0) 0).form = .sse ∧
    (⟨some .fs, true⟩ : Prefixes).bytes = [] ++ [0x64, 0x67] ∧ (⟨some .fs, true⟩ : Prefixes).bytes = [0x64] ++ [0x67] ∧
    (⟨some .fs, true⟩ : Prefixes).bytes = [0x64, 0x67] ++ [] ∧
    (Instr.vshufpsVex128C5 ⟨some .fs, true⟩ 0 0 (.reg 0) 0).wf .mode64 = true ∧
    (Instr.vshufpsVex128C5 ⟨some .fs, true⟩ 0 0 (.reg 0) 0).form ≠ .sse ∧ 0x40#8 ≤ 0x40#8 ∧ 0x4F#8 ≤ 0x4F#8 := by decide

/-- LOCK with two overrides and a REX byte in Mode64; LOCK with 67H in Mode32. -/
theorem witness_ForbiddenPrefixBeforeRefusals :
    (Instr.shufps np none 0 (.reg 0) 0).wf .mode64 = true ∧ (Instr.shufps np none 0 (.reg 0) 0).wf .mode32 = true ∧
    (Instr.vshufpsVex128C5 np 0 0 (.reg 0) 0).wf .mode64 = true ∧ (Instr.vshufpsVex128C5 np 0 0 (.reg 0) 0).form ≠ .sse ∧
    (∀ b ∈ ([0x64, 0x65, 0xF0, 0x48] : List Byte), b ∈ legacyPrefixBytes ∨ 0x40#8 ≤ b ∧ b ≤ 0x4F#8) ∧
    (∀ b ∈ ([0x67, 0xF0] : List Byte), b ∈ legacyPrefixBytes) ∧ 2 ≤ ([0, 0] : List Byte).length := by decide

/-- One prefix list per clause. -/
theorem witness_PrefixSpellingsRefused :
    (Instr.shufps np none 0 (.reg 0) 0).wf .mode64 = true ∧ (Instr.shufps np none 0 (.reg 0) 0).wf .mode32 = true ∧
    (Instr.shufps np none 0 (.reg 0) 0).form = .sse ∧
    (∀ b ∈ ([0x64, 0x67, 0x64] : List Byte), b ∈ ([0x26, 0x2E, 0x36, 0x3E, 0x64, 0x65, 0x67] : List Byte)) ∧
    2 ≤ ([0x64, 0x67, 0x64] : List Byte).countP (· ≠ 0x67#8) ∧ 2 ≤ ([0x67, 0x67] : List Byte).count 0x67#8 ∧
    0x67#8 ∈ ([0x67] : List Byte) ∧ ([0x2E] : List Byte) ≠ [] ∧ 0x40#8 ≤ 0x48#8 ∧ 0x48#8 ≤ 0x4F#8 ∧
    decodeTail ((0x48#8).extractLsb' 1 1) ((0x48#8).extractLsb' 0 1) [0xC0, 0x1B] = some ⟨0, .reg 0, 0x1B, []⟩ := by decide

/-- One pair of bytes per clause, in both modes. -/
theorem witness_VexFieldValues :
    (0xF9#8).extractLsb' 0 2 = 1#2 ∧ (0xFA#8).extractLsb' 0 2 = 2#2 ∧ (0xFB#8).extractLsb' 0 2 = 3#2 ∧
    (0xE1#8).extractLsb' 0 5 = 1#5 ∧ (0xE2#8).extractLsb' 0 5 ≠ 1#5 ∧ (0xFA#8).extractLsb' 6 2 = 3#2 ∧ (0xE1#8).extractLsb' 6 2 = 3#2 ∧
    (⟨some .fs, true⟩ : Prefixes).wf .mode64 = true ∧ (⟨some .fs, false⟩ : Prefixes).wf .mode32 = true ∧
    (decodeTail 0#1 0#1 [0xC0, 0x1B]).isSome = true := by decide

/-- One set of bytes per clause and mode. -/
theorem witness_EvexReservedFieldsAreUd :
    (0xF1#8).extractLsb' 6 2 = 3#2 ∧ (0xF5#8).extractLsb' 2 2 ≠ 0#2 ∧ (0x68#8).extractLsb' 2 1 = 0#1 ∧ (0xF0#8).extractLsb' 0 2 = 0#2 ∧
    (0xF1#8).extractLsb' 0 4 = 1#4 ∧ (0xEC#8).extractLsb' 0 3 = 4#3 ∧ (0xEC#8).extractLsb' 7 1 = 1#1 ∧ (0x69#8).extractLsb' 5 2 = 3#2 ∧
    np.wf .mode64 = true ∧ np.wf .mode32 = true ∧ (decodeTail 0#1 0#1 [0xCB, 0x1B]).isSome = true := by decide

/-- An opcode, a map, and each `pp`, in bytes that are an EVEX prefix in both modes. -/
theorem witness_EvexOtherInstructionsRefused :
    (0x58#8) ≠ 0xC6#8 ∧ np.wf .mode64 = true ∧ np.wf .mode32 = true ∧
    (∀ b ∈ ([0xF1, 0xF2, 0xF3] : List Byte), b.extractLsb' 6 2 = 3#2 ∧ b.extractLsb' 2 2 = 0#2) ∧ (0xF1#8).extractLsb' 0 2 = 1#2 ∧
    (0xF2#8).extractLsb' 0 2 = 2#2 ∧ (0xF3#8).extractLsb' 0 2 = 3#2 ∧
    (∀ b ∈ ([0x6D, 0x6E, 0x6F] : List Byte), b.extractLsb' 2 1 = 1#1) ∧ (0x6D#8).extractLsb' 0 2 = 1#2 ∧
    (0x6E#8).extractLsb' 0 2 = 2#2 ∧ (0x6F#8).extractLsb' 0 2 = 3#2 := by decide

/-- Both clauses, in both modes, with and without prefixes. -/
theorem witness_EvexOperandFieldsAreUd :
    (0xF1#8).extractLsb' 6 2 = 3#2 ∧ (⟨some .gs, true⟩ : Prefixes).wf .mode64 = true ∧ np.wf .mode32 = true ∧
    (0xF1#8).extractLsb' 0 4 = 1#4 ∧ (0x6C#8).extractLsb' 0 3 = 4#3 ∧ (0x6C#8).extractLsb' 7 1 = 0#1 ∧ (0x19#8).extractLsb' 5 2 ≠ 3#2 ∧
    (0xCB#8).extractLsb' 6 2 = 3#2 ∧ (0x19#8).extractLsb' 4 1 = 1#1 ∧ (0x88#8).extractLsb' 5 2 ≠ 3#2 ∧ (0x88#8).extractLsb' 7 1 = 1#1 ∧
    (0x88#8).extractLsb' 0 3 = 0#3 ∧ (decodeTail 0#1 0#1 [0x03, 0x1B]).isSome = true := by decide

/-- Each ignored bit 0, with a register and with a memory operand. -/
theorem witness_IgnoredBitsRefused :
    np.wf .mode32 = true ∧ decodeTail 0#1 0#1 [0xC1, 0x1B] = some ⟨0, .reg 1, 0x1B, []⟩ ∧
    decodeTail 0#1 0#1 [0x01, 0x1B] = some ⟨0, .mem (.base 1 .absent), 0x1B, []⟩ ∧
    (∀ b ∈ ([0xC1, 0xE1] : List Byte), b.extractLsb' 6 2 = 3#2 ∧ b.extractLsb' 0 5 = 1#5) ∧ (0xC1#8).extractLsb' 5 1 = 0#1 ∧
    (0x70#8).extractLsb' 0 2 = 0#2 ∧ (0x30#8).extractLsb' 0 2 = 0#2 ∧ (0x30#8).extractLsb' 6 1 = 0#1 ∧
    (∀ b ∈ ([0xF1, 0xD1, 0xE1] : List Byte), b.extractLsb' 6 2 = 3#2 ∧ b.extractLsb' 0 4 = 1#4) ∧ (0xD1#8).extractLsb' 5 1 = 0#1 ∧
    (0xE1#8).extractLsb' 4 1 = 0#1 ∧
    (∀ b ∈ ([0x74, 0x34] : List Byte), b.extractLsb' 0 3 = 4#3 ∧ b.extractLsb' 7 1 = 0#1) ∧ (0x34#8).extractLsb' 6 1 = 0#1 ∧
    (∀ b ∈ ([0x28, 0x20] : List Byte), b.extractLsb' 5 2 ≠ 3#2 ∧ b.extractLsb' 7 1 = 0#1 ∧ b.extractLsb' 4 1 = 0#1) ∧
    (0x20#8).extractLsb' 3 1 = 0#1 := by decide

/-! ### Witnesses: the step -/

theorem witness_StepRunsDecodedInstruction :
    s64.mode.admitted = true ∧
    decode (put s64 0x1000 [0x0F, 0xC6, 0xC0, 0x1B]).mode (put s64 0x1000 [0x0F, 0xC6, 0xC0, 0x1B]).window =
      .ok (.shufps np none 0 (.reg 0) 0x1B) (List.replicate 11 0) := by decide +kernel

theorem witness_EncodedInstructionSteps :
    (Instr.shufps np none 0 (.reg 0) 0x1B).wf s64.mode = true ∧
    ∀ j < 4, (put s64 0x1000 [0x0F, 0xC6, 0xC0, 0x1B]).fetchByte j = (encode (.shufps np none 0 (.reg 0) 0x1B))[j]? := by decide +kernel

/-- Fifteen prefix bytes meet the premises of the first and the second clause. -/
theorem witness_OverLongInstruction :
    (put s64 0x1000 (List.replicate 15 0x64)).window.length = 15 ∧
    decode .mode64 (put s64 0x1000 (List.replicate 15 0x64)).window = .truncated ∧
    (∀ j < 15, (put s64 0x1000 (List.replicate 15 0x64)).fetchByte j = some 0x64) ∧
    (Instr.vshufpsEvex128 ⟨some .fs, true⟩ 0 0 (.mem (.sib 0 0 0 (.disp32 0))) 0 false 0).wf .mode64 = true := by decide +kernel

/-- Sixteen bytes: FS, 67H, 66H, LOCK before an EVEX form with SIB and disp32; its first fifteen at `rip`. -/
theorem witness_OverLongFormIsGp :
    let i := Instr.vshufpsEvex128 np 0 2 (.mem (.sib 0 4 4 (.disp32 0x04030201))) 1 false 0x1B
    i.wf s64.mode = true ∧ (∀ b ∈ ([0x64, 0x67, 0x66, 0xF0] : List Byte), b ∈ legacyPrefixBytes) ∧
    15 < ([0x64, 0x67, 0x66, 0xF0] : List Byte).length + (encodeBody i).length ∧
    ∀ j < 15, (put s64 0x1000 ([0x64, 0x67, 0x66, 0xF0] ++ encodeBody i)).fetchByte j = ([0x64, 0x67, 0x66, 0xF0] ++ encodeBody i)[j]? := by
  decide +kernel

/-- Both modes: the last byte of a 4-byte instruction just past the top of the addresses that can be fetched. -/
theorem witness_UnfetchableInstructionRefused :
    (let s := put { s64 with rip := 0x00007FFFFFFFFFFD } 0x00007FFFFFFFFFFD [0x0F, 0xC6, 0xC0]
     (Instr.shufps np none 0 (.reg 0) 0).wf s.mode = true ∧ 3 < (Instr.shufps np none 0 (.reg 0) 0).length ∧
      (∀ j < 3, s.fetchByte j = (encode (.shufps np none 0 (.reg 0) 0))[j]?) ∧ s.fetchByte 3 = none) ∧
    (let s := put { s32 with rip := 0xFFFFFFFD } 0xFFFFFFFD [0x0F, 0xC6, 0xC0]
     (Instr.shufps np none 0 (.reg 0) 0).wf s.mode = true ∧
      (∀ j < 3, s.fetchByte j = (encode (.shufps np none 0 (.reg 0) 0))[j]?) ∧ s.fetchByte 3 = none) := by decide +kernel

/-- A step that completes, in each mode. -/
theorem witness_StepWritesOneVectorAndRip :
    (∃ t, step (put s64 0x1000 [0x0F, 0xC6, 0xC0, 0x1B]) = .next t) ∧ ∃ t, step (put s32 0x1000 [0x0F, 0xC6, 0xC0, 0x1B]) = .next t :=
  ⟨next_of (by decide +kernel), next_of (by decide +kernel)⟩

theorem witness_StepKeepsInvariant :
    (Invariant (put s64 0x1000 [0x0F, 0xC6, 0xC0, 0x1B]) ∧ ∃ t, step (put s64 0x1000 [0x0F, 0xC6, 0xC0, 0x1B]) = .next t) ∧
    (Invariant (put { s32 with rip := 0xFFFFFFF0 } 0xFFFFFFF0 [0x0F, 0xC6, 0xC0, 0x1B]) ∧
      ∃ t, step (put { s32 with rip := 0xFFFFFFF0 } 0xFFFFFFF0 [0x0F, 0xC6, 0xC0, 0x1B]) = .next t) :=
  ⟨⟨by unfold Invariant; decide +kernel, next_of (by decide +kernel)⟩, ⟨by unfold Invariant; decide +kernel, next_of (by decide +kernel)⟩⟩

/-! ### Witnesses: the shuffle -/

theorem witness_ShuffleMovesPatterns :
    (∀ j < 16, elem (~~~(ramp 0xA00)) j = ~~~(elem (ramp 0xA00) j)) ∧ ∀ j < 16, elem (~~~(ramp 0xB00)) j = ~~~(elem (ramp 0xB00) j) := by
  decide +kernel

/-! ### Witnesses: results. A register and a memory second source for each form, and a broadcast for the EVEX forms. -/

/-- A state with the control registers and features of the launch state has every form enabled. -/
theorem enabled_of (f : Form) (s : State) (hm : s.mode = .mode64 ∨ s.mode = .mode32) (h0 : s.cr0 = 0x11) (h4 : s.cr4 = 0x40200)
    (hx : s.xcr0 = 0xE7) (hf : s.features = ⟨true, true, true, true⟩) : ShufpsEnabled f s := by
  unfold ShufpsEnabled
  rw [h0, h4, hx, hf]
  cases f <;> exact ⟨hm, by decide, by decide⟩

theorem enabled_all (f : Form) (m : Mode) (h : m = .mode64 ∨ m = .mode32) : ShufpsEnabled f (on m) :=
  enabled_of f (on m) h rfl rfl rfl rfl

/-- The operand `[rsi]` of any access can be read in both modes. -/
theorem operand_rsi (m : Mode) (h : m = .mode64 ∨ m = .mode32) (c : Access) (hc : c.bytes ≤ 64) (len : Nat) :
    OperandOk (on m) c np len (.base 6 .absent) := by
  have key : ∀ al : Bool, OperandOk (on m) ⟨64, 1, al⟩ np 0 (.base 6 .absent) := by
    rcases h with rfl | rfl <;> (unfold OperandOk AddressLegal AddressAligned BytesReadable; decide +kernel)
  obtain ⟨h1, h2, h3⟩ := key c.align
  have hl : (on m).linear c np len (.base 6 .absent) = (on m).linear ⟨64, 1, c.align⟩ np 0 (.base 6 .absent) := rfl
  refine ⟨?_, ?_, ?_⟩
  · rcases h with rfl | rfl
    · intro b hb
      exact h1 b (Nat.lt_of_lt_of_le hb hc)
    · have : ∀ n ≤ 64, (on .mode32).segOk .ds 0x5000 n = true := by decide +kernel
      exact this _ hc
  · intro ha
    exact h2 ha
  · intro b hb
    exact h3 b (Nat.lt_of_lt_of_le hb hc)

theorem witness_ShufpsResult :
    ShufpsEnabled .sse s64 ∧ Source2Is s64 .sse np 4 (.reg 2) (elem (ramp 0xB00)) ∧
    Source2Is s64 .sse np 4 (.mem (.base 6 .absent)) (s64.dword 0x5000) :=
  ⟨enabled_all _ _ (by decide), by unfold Source2Is; decide +kernel, operand_rsi _ (by decide) _ (by decide) _, fun _ _ => rfl⟩

theorem witness_Vex128Result :
    ShufpsEnabled .vex128 s32 ∧ Source2Is s32 .vex128 np 5 (.reg 2) (elem (ramp 0xB00)) ∧
    Source2Is s32 .vex128 np 5 (.mem (.base 6 .absent)) (s32.dword 0x5000) :=
  ⟨enabled_all _ _ (by decide), by unfold Source2Is; decide +kernel, operand_rsi _ (by decide) _ (by decide) _, fun _ _ => rfl⟩

theorem witness_Vex256Result :
    ShufpsEnabled .vex256 s64 ∧ Source2Is s64 .vex256 np 5 (.reg 2) (elem (ramp 0xB00)) ∧
    Source2Is s64 .vex256 np 5 (.mem (.base 6 .absent)) (s64.dword 0x5000) :=
  ⟨enabled_all _ _ (by decide), by unfold Source2Is; decide +kernel, operand_rsi _ (by decide) _ (by decide) _, fun _ _ => rfl⟩

theorem witness_Evex128Result :
    ShufpsEnabled .evex128 s64 ∧ Source2EvexIs s64 .evex128 np 7 (.reg 2) (elem (ramp 0xB00)) ∧
    Source2EvexIs s64 .evex128 np 7 (.mem (.base 6 .absent)) (s64.dword 0x5000) ∧
    Source2EvexIs s64 .evex128 np 7 (.bcst (.base 6 .absent)) (fun _ => s64.dword 0x5000 0) ∧ (true = true → (1#3) ≠ 0#3) :=
  ⟨enabled_all _ _ (by decide), by unfold Source2EvexIs; decide +kernel,
    ⟨operand_rsi _ (by decide) _ (by decide) _, fun _ _ => rfl⟩,
    ⟨operand_rsi _ (by decide) _ (by decide) _, fun _ _ => rfl⟩, by decide⟩

theorem witness_Evex256Result :
    ShufpsEnabled .evex256 s32 ∧ Source2EvexIs s32 .evex256 np 7 (.reg 2) (elem (ramp 0xB00)) ∧
    Source2EvexIs s32 .evex256 np 7 (.mem (.base 6 .absent)) (s32.dword 0x5000) ∧
    Source2EvexIs s32 .evex256 np 7 (.bcst (.base 6 .absent)) (fun _ => s32.dword 0x5000 0) ∧ (false = true → (0#3) ≠ 0#3) :=
  ⟨enabled_all _ _ (by decide), by unfold Source2EvexIs; decide +kernel,
    ⟨operand_rsi _ (by decide) _ (by decide) _, fun _ _ => rfl⟩,
    ⟨operand_rsi _ (by decide) _ (by decide) _, fun _ _ => rfl⟩, by decide⟩

theorem witness_Evex512Result :
    ShufpsEnabled .evex512 s64 ∧ Source2EvexIs s64 .evex512 np 7 (.reg 2) (elem (ramp 0xB00)) ∧
    Source2EvexIs s64 .evex512 np 7 (.mem (.base 6 .absent)) (s64.dword 0x5000) ∧
    Source2EvexIs s64 .evex512 np 7 (.bcst (.base 6 .absent)) (fun _ => s64.dword 0x5000 0) :=
  ⟨enabled_all _ _ (by decide), by unfold Source2EvexIs; decide +kernel,
    ⟨operand_rsi _ (by decide) _ (by decide) _, fun _ _ => rfl⟩,
    ⟨operand_rsi _ (by decide) _ (by decide) _, fun _ _ => rfl⟩⟩

theorem witness_SelfShuffleReadsFirst : ShufpsEnabled .sse s64 := enabled_all _ _ (by decide)

/-- k4 is 0. -/
theorem witness_Evex512EmptyMask :
    ShufpsEnabled .evex512 s64 ∧ (4#3) ≠ 0#3 ∧ (∀ j < 16, (s64.mask 4).getLsbD j = false) ∧
    Source2EvexIs s64 .evex512 np 7 (.reg 2) (elem (ramp 0xB00)) :=
  ⟨enabled_all _ _ (by decide), by decide, by decide, by unfold Source2EvexIs; decide +kernel⟩

theorem witness_Evex256AgreesWithVex256 :
    ShufpsEnabled .vex256 s64 ∧ ShufpsEnabled .evex256 s64 ∧ Source2Is s64 .vex256 np 5 (.reg 2) (elem (ramp 0xB00)) ∧
    Source2EvexIs s64 .evex256 np 7 (.reg 2) (elem (ramp 0xB00)) :=
  ⟨enabled_all _ _ (by decide), enabled_all _ _ (by decide), by unfold Source2Is; decide +kernel, by unfold Source2EvexIs; decide +kernel⟩

theorem witness_BroadcastIgnoresHighControls : (0x1B#8).extractLsb' 0 4 = (0xEB#8).extractLsb' 0 4 := by decide

/-! ### Witnesses: frames. Every constructor completes; a register form in Mode64 and a memory form in Mode32. -/

theorem witness_InstructionFrame :
    ((∃ t, exec (.shufps np none 1 (.reg 2) 0x1B) s64 = .next t) ∧ (∃ t, exec (.vshufpsVex128C5 np 1 2 (.reg 3) 0) s64 = .next t) ∧
      (∃ t, exec (.vshufpsVex128C4 np false 1 2 (.reg 3) 0) s64 = .next t) ∧ (∃ t, exec (.vshufpsVex256C5 np 1 2 (.reg 3) 0) s64 = .next t) ∧
      (∃ t, exec (.vshufpsVex256C4 np true 1 2 (.reg 3) 0) s64 = .next t) ∧
      (∃ t, exec (.vshufpsEvex128 np 1 2 (.reg 3) 1 true 0) s64 = .next t) ∧
      (∃ t, exec (.vshufpsEvex256 np 1 2 (.reg 3) 0 false 0) s64 = .next t) ∧
      ∃ t, exec (.vshufpsEvex512 np 31 2 (.reg 3) 1 false 0) s64 = .next t) ∧
    (∃ t, exec (.shufps np none 1 (.mem (.base 6 .absent)) 0x1B) s32 = .next t) ∧
    ∃ t, exec (.vshufpsEvex512 np 1 2 (.mem (.base 7 .absent)) 1 false 0) s32 = .next t :=
  ⟨⟨next_of (by decide +kernel), next_of (by decide +kernel), next_of (by decide +kernel), next_of (by decide +kernel),
    next_of (by decide +kernel), next_of (by decide +kernel), next_of (by decide +kernel), next_of (by decide +kernel)⟩,
    next_of (by decide +kernel), next_of (by decide +kernel)⟩

/-- Both clauses, at the wrap of `rip`. -/
theorem witness_RipAdvance :
    (s32.mode = .mode32 ∧ ∃ t, exec (.shufps np none 1 (.reg 2) 0) { s32 with rip := 0xFFFFFFFF } = .next t) ∧
    ∃ t, exec (.shufps np none 1 (.reg 2) 0) { s64 with rip := 0xFFFFFFFFFFFFFFFF } = .next t :=
  ⟨⟨rfl, next_of (by decide +kernel)⟩, next_of (by decide +kernel)⟩

theorem witness_BitsAboveVectorLength :
    ((Instr.shufps np none 1 (.reg 2) 0).form = .sse ∧ ∃ t, exec (.shufps np none 1 (.reg 2) 0) s64 = .next t) ∧
    (Instr.vshufpsVex128C5 np 1 2 (.reg 3) 0).form ≠ .sse ∧ ∃ t, exec (.vshufpsVex128C5 np 1 2 (.reg 3) 0) s64 = .next t :=
  ⟨⟨rfl, next_of (by decide +kernel)⟩, by decide, next_of (by decide +kernel)⟩

/-- Mask bit 1 of k1 is 0; merging and zeroing. -/
theorem witness_MaskedOffElements :
    maskFieldsOf (.vshufpsEvex128 np 3 1 (.reg 2) 1 false 0) = some (1, false) ∧
    maskFieldsOf (.vshufpsEvex512 np 3 1 (.reg 2) 1 true 0) = some (1, true) ∧ (1#3) ≠ 0#3 ∧ (s64.mask 1).getLsbD 1 = false ∧
    (∃ t, exec (.vshufpsEvex128 np 3 1 (.reg 2) 1 false 0) s64 = .next t) ∧
    ∃ t, exec (.vshufpsEvex512 np 3 1 (.reg 2) 1 true 0) s64 = .next t :=
  ⟨rfl, rfl, by decide, by decide, next_of (by decide +kernel), next_of (by decide +kernel)⟩

/-! ### Witnesses: what is read -/

/-- A memory that differs from the empty one in the bytes just below and just above the four bytes of a broadcast. -/
theorem witness_OperandBytesRead :
    memoryOf (.vshufpsEvex512 np 0 1 (.bcst (.base 6 .absent)) 0 false 0) = some (bcstAccess, .base 6 .absent) ∧
    (∀ b < 4, Memory.read [(0x4FFF, 1), (0x5004, 1)] (s64.byteAddr (s64.linear bcstAccess np 7 (.base 6 .absent)) b).toNat =
      Memory.read s64.mem (s64.byteAddr (s64.linear bcstAccess np 7 (.base 6 .absent)) b).toNat) ∧
    (∃ t, exec (.vshufpsEvex512 np 0 1 (.bcst (.base 6 .absent)) 0 false 0) s64 = .next t) ∧
    ∃ b, s64.source2Evex .evex512 np 7 (.bcst (.base 6 .absent)) = .next b :=
  ⟨rfl, by decide +kernel, next_of (by decide +kernel), next_of (by decide +kernel)⟩

theorem witness_DisplacementScale :
    memoryOf (.vshufpsEvex512 np 0 1 (.bcst (.base 6 .absent)) 0 false 0) = some (bcstAccess, .base 6 .absent) ∧
    maskFieldsOf (.shufps np none 0 (.mem (.base 6 .absent)) 0) = none := by decide

/-- k1 = FFF5H agrees with k1 = 5 in the four bits EVEX.128 reads. -/
theorem witness_OpmaskBitsRead :
    maskFieldsOf (.vshufpsEvex128 np 3 1 (.reg 2) 1 false 0) = some (1, false) ∧
    ∀ j < 4, (State.mask { s64 with k := s64.k.set 1 0xFFF5 } 1).getLsbD j = (s64.mask 1).getLsbD j := by decide +kernel

/-- Every general register but the base and the index may differ. -/
theorem witness_GeneralRegistersRead :
    addrRegsOf (.shufps np none 0 (.mem (.sib 0 7 6 .absent)) 0) = [7, 6] ∧
    ∀ r ∈ addrRegsOf (.shufps np none 0 (.mem (.sib 0 7 6 .absent)) 0),
      State.reg { s64 with gpr := ((Vector.replicate 16 1#64).set 6 0x5000).set 7 0x6008 } r = s64.reg r := by decide +kernel

/-- A state with a page that is not present beside the operand, and an instruction that completes; the same page under the operand, and one
that faults; a segment base that is refused; a fault that no answer of `Translate` causes. -/
theorem witness_PrivilegeIrrelevant :
    (∀ r ∈ (paged s64 0x6000 absent).translation, r.cpls = 0#4 ∨ r.cpls = 15#4) ∧
    (∃ t, exec (.shufps np none 1 (.mem (.base 6 .absent)) 0) (paged s64 0x6000 absent) = .next t) ∧
    faultOf (exec (.shufps np none 1 (.mem (.base 6 .absent)) 0) (paged s64 0x5000 absent)) = some (.pageFault 0 0x5000) ∧
    refusalOf (exec (.shufps np none 1 (.mem (.base 6 .absent)) 0)
      { s32 with segs := { s32.segs with ds := ⟨0x23, 8, 0xFFFFFFFF, true, false, []⟩ } }) = some .segmentBaseUnaligned ∧
    faultOf (exec (.shufps np none 1 (.mem (.base 7 .absent)) 0) s64) = some .generalProtection :=
  ⟨by decide, next_of (by decide +kernel), by decide +kernel, by decide +kernel, by decide +kernel⟩

theorem witness_LittleEndian : ∃ v, s64.memRead 0xFFFFFFFFFFFFFFFF 64 = .next v := next_of (by decide +kernel)

/-- The modes of the clauses, and both address sizes. -/
theorem witness_EffectiveAddressSum :
    s64.mode = .mode64 ∧ s32.mode = .mode32 ∧ (2 ^ 32 : Int) = (if true = true then 2 ^ 32 else 2 ^ 64) ∧
    (2 ^ 64 : Int) = (if false = true then 2 ^ 32 else 2 ^ 64) := by decide

theorem witness_OperandSegment : s64.mode = .mode64 ∧ s32.mode = .mode32 := by decide

/-! ### Witnesses: faults and refusals -/

/-- Each form disabled by each of its conditions, and by its own fields. -/
theorem witness_DisabledFormIsUd :
    (∀ s ∈ [{ s64 with cr0 := 0x15 }, { s64 with cr4 := 0x40000 }, { s64 with features := ⟨false, true, true, true⟩ }],
      Disabled (.shufps np none 0 (.reg 0) 0) s) ∧
    (∀ s ∈ [{ s64 with cr4 := 0x200 }, { s64 with xcr0 := 0xE3 }, { s64 with features := ⟨true, false, true, true⟩ },
        { s64 with mode := .realAddress }, { s64 with mode := .virtual8086 }],
      Disabled (.vshufpsVex128C5 np 0 0 (.reg 0) 0) s ∧ Disabled (.vshufpsVex256C4 np false 0 0 (.reg 0) 0) s) ∧
    (∀ s ∈ [{ s64 with cr4 := 0x200 }, { s64 with xcr0 := 0x07 }, { s64 with features := ⟨true, true, false, true⟩ },
        { s64 with mode := .realAddress }],
      Disabled (.vshufpsEvex128 np 0 0 (.reg 0) 0 false 0) s ∧ Disabled (.vshufpsEvex256 np 0 0 (.reg 0) 0 false 0) s ∧
      Disabled (.vshufpsEvex512 np 0 0 (.reg 0) 0 false 0) s) ∧
    Disabled (.vshufpsEvex128 np 0 0 (.reg 0) 0 false 0) { s64 with features := ⟨true, true, true, false⟩ } ∧
    Disabled (.vshufpsEvex512 np 0 0 (.reg 0) 0 true 0) s64 := by
  simp only [disabled_iff]; decide

/-- `CR0.TS = 1`, in an admitted mode and outside. -/
theorem witness_TaskSwitchedIsNm :
    ¬ Disabled (.vshufpsEvex512 np 0 0 (.reg 0) 0 false 0) { s64 with cr0 := 0x19 } ∧ (0x19#32).getLsbD 3 = true ∧
    ¬ Disabled (.shufps np none 0 (.reg 0) 0) { on .realAddress with cr0 := 0x18 } ∧ (0x18#32).getLsbD 3 = true := by
  simp only [disabled_iff]; decide

theorem witness_OtherModesRefused :
    (on .systemManagement).mode.admitted = false ∧ ¬ Disabled (.vshufpsVex128C5 np 0 0 (.reg 0) 0) (on .systemManagement) ∧
    (on .realAddress).mode.admitted = false ∧ ¬ Disabled (.shufps np none 0 (.reg 0) 0) (on .realAddress) ∧
    (on .systemManagement).cr0.getLsbD 3 = false := by
  simp only [disabled_iff]; decide

/-- Every instruction whose writemask is not misused is ready at the launch state. -/
theorem ready_of (i : Instr) (m : Mode) (h : m = .mode64 ∨ m = .mode32) (hi : maskFieldsOf i ≠ some (0#3, true)) : Ready i (on m) :=
  ⟨enabled_all _ _ h, hi⟩

/-- X-8 and X-9 for an operand whose last byte alone is not canonical, and for one whose first byte alone is not; a legacy operand
through DS, whose base is 0. -/
theorem witness_NonCanonicalOperandFaults :
    memoryOf (.vshufpsVex128C5 np 0 1 (.mem (.base 0 .absent)) 0) = some (accessOf .vex128, .base 0 .absent) ∧
    Ready (.vshufpsVex128C5 np 0 1 (.mem (.base 0 .absent)) 0) { s64 with gpr := s64.gpr.set 0 0x00007FFFFFFFFFF1 } ∧
    (let s := { s64 with gpr := s64.gpr.set 0 0x00007FFFFFFFFFF1 }
     (∀ b < 15, canonical (s.segBase .ds + s.effAddr false 5 1 (.base 0 .absent) + BitVec.ofNat 64 b) = true) ∧
      canonical (s.segBase .ds + s.effAddr false 5 1 (.base 0 .absent) + BitVec.ofNat 64 15) = false ∧
      (s.segBase .ds).toNat % 16 = 0) ∧
    (let s := { s64 with gpr := s64.gpr.set 4 0xFFFF7FFFFFFFFFFF }
     s.segFor np (.sib 0 4 4 .absent) = .ss ∧
      canonical (s.segBase .ss + s.effAddr false 6 1 (.sib 0 4 4 .absent) + BitVec.ofNat 64 0) = false) :=
  ⟨rfl, ⟨enabled_of _ _ (.inl rfl) rfl rfl rfl rfl, by unfold FieldsUd; decide⟩, by decide +kernel, by decide +kernel⟩

/-- Each way the check fails, at its boundary, for a 16-byte operand at 5000H and, above an expand-down limit, at FFFFFFF1H. -/
theorem witness_SegmentCheckFaults :
    memoryOf (.shufps np none 0 (.mem (.base 6 .absent)) 0) = some (accessOf .sse, .base 6 .absent) ∧
    Ready (.shufps np none 0 (.mem (.base 6 .absent)) 0) s32 ∧ s32.mode = .mode32 ∧ s32.segFor np (.base 6 .absent) = .ds ∧
    (s32.segBase .ds).toNat % 16 = 0 ∧ s32.effAddr (s32.addr32 np) 4 1 (.base 6 .absent) = 0x5000 ∧
    State.effAddr { s32 with gpr := s32.gpr.set 6 0xFFFFFFF1 } true 4 1 (.base 6 .absent) = 0xFFFFFFF1 ∧
    (let f (g : Segment) : State := { s32 with segs := { s32.segs with ds := g } }
     (∀ g ∈ ([⟨0x23, 0, 0xFFFFFFFF, false, false, []⟩, ⟨0x23, 0, 0x500E, true, false, []⟩] : List Segment), g.ruleFor 0x5000 16 = none) ∧
     ((f ⟨0x23, 0, 0xFFFFFFFF, false, false, []⟩).seg .ds).readable = false ∧
     ((f ⟨0x23, 0, 0x500E, true, false, []⟩).seg .ds).expandDown = false ∧
     ((f ⟨0x23, 0, 0x500E, true, false, []⟩).seg .ds).limit.toNat < 0x5000 + 16 - 1 ∧
     ((f ⟨0x23, 0, 0x5000, true, true, []⟩).seg .ds).expandDown = true ∧ 0x5000 ≤ ((f ⟨0x23, 0, 0x5000, true, true, []⟩).seg .ds).limit.toNat ∧
     (0xFFFFFFF1#64).toNat + 16 = 2 ^ 32 + 1 ∧
     ((f ⟨3, 0, 0xFFFFFFFF, true, false, []⟩).seg .ds).selector.toNat < 4 ∧
     ((f ⟨0x23, 0, 0xFFFFFFFF, true, false, [⟨0x5000, 0x5000, some 16, false⟩]⟩).seg .ds).ruleFor 0x5000 16 =
       some ⟨0x5000, 0x5000, some 16, false⟩) :=
  ⟨rfl, ready_of _ _ (by decide) (by decide), rfl, rfl, by decide +kernel, by decide +kernel, by decide +kernel, by decide +kernel⟩

/-- The three clauses: a segment base of 8 (Mode32), a linear address of 5008H, a VEX operand at 6008H. -/
theorem witness_AlignmentRule :
    (memoryOf (.shufps np none 0 (.mem (.base 6 .absent)) 0) = some (accessOf .sse, .base 6 .absent) ∧
      (State.segBase { s32 with segs := { s32.segs with ds := ⟨0x23, 8, 0xFFFFFFFF, true, false, []⟩ } } .ds).toNat % 16 ≠ 0 ∧
      AddressLegal s64 (accessOf .sse) np 5 (.base 6 (.disp8 8)) ∧ (s64.linear (accessOf .sse) np 5 (.base 6 (.disp8 8))).toNat % 16 ≠ 0) ∧
    (Ready (.vshufpsVex128C5 np 0 1 (.mem (.base 7 .absent)) 0) s64 ∧ AddressLegal s64 (accessOf .vex128) np 5 (.base 7 .absent) ∧
      BytesReadable s64 (accessOf .vex128) np 5 (.base 7 .absent)) :=
  ⟨⟨rfl, by decide +kernel, by unfold AddressLegal; decide +kernel, by decide +kernel⟩,
    ready_of _ _ (by decide) (by decide), by unfold AddressLegal; decide +kernel, by unfold BytesReadable; decide +kernel⟩

/-- Only the last byte of a 64-byte operand lies on the page that is not present; and a whole operand on it. -/
theorem witness_PageFaultReported :
    let s := paged { s64 with gpr := s64.gpr.set 6 0x4FC1 } 0x5000 absent
    let i := Instr.vshufpsEvex512 np 0 1 (.mem (.base 6 .absent)) 4 false 0
    memoryOf i = some (accessOf .evex512, .base 6 .absent) ∧ Ready i s ∧ AddressLegal s (accessOf .evex512) np 7 (.base 6 .absent) ∧
    AddressAligned s (accessOf .evex512) np 7 (.base 6 .absent) ∧ s.linear (accessOf .evex512) np 7 (.base 6 .absent) = 0x4FC1 ∧
    (∀ b < 63, s.byteFault 0x4FC1 64 b = none) ∧ s.byteFault 0x4FC1 64 63 ≠ none ∧
    (paged s64 0x5000 absent).linear (accessOf .evex512) np 7 (.base 6 .absent) = 0x5000 ∧
    ∀ b < 64, (paged s64 0x5000 absent).regionAt 0x5000 64 b = some ⟨0x5000, 0x5FFF, 15, none, absent⟩ :=
  ⟨rfl, ⟨enabled_of _ _ (.inl rfl) rfl rfl rfl rfl, by unfold FieldsUd; decide⟩, by unfold AddressLegal; decide +kernel,
    by unfold AddressAligned; decide, by decide +kernel, by decide +kernel, by decide +kernel, by decide +kernel, by decide +kernel⟩

/-- The codes of X-10 and of the other page faults of R68. -/
theorem test_page_fault_codes :
    pageFaultCode 3 false false false = 0x04 ∧ pageFaultCode 0 false false false = 0x00 ∧ pageFaultCode 3 true false false = 0x05 ∧
    pageFaultCode 3 true true false = 0x0D ∧ pageFaultCode 0 true true false = 0x09 ∧ pageFaultCode 3 true false true = 0x25 := by decide

theorem witness_PageFaultErrorCode : (0x04#32) = pageFaultCode 3 false false false := by decide

theorem witness_SideEffectMemoryRefused :
    let s := paged s64 0x5000 .readSideEffects
    let i := Instr.shufps np none 0 (.mem (.base 6 .absent)) 0
    memoryOf i = some (accessOf .sse, .base 6 .absent) ∧ Ready i s ∧ AddressLegal s (accessOf .sse) np 4 (.base 6 .absent) ∧
    AddressAligned s (accessOf .sse) np 4 (.base 6 .absent) ∧
    (∀ b < 16, s.byteFault (s.linear (accessOf .sse) np 4 (.base 6 .absent)) 16 b = none) ∧
    s.answerAt (s.linear (accessOf .sse) np 4 (.base 6 .absent)) 16 0 = .readSideEffects :=
  ⟨rfl, ⟨enabled_of _ _ (.inl rfl) rfl rfl rfl rfl, by unfold FieldsUd; decide⟩, by unfold AddressLegal; decide +kernel,
    by unfold AddressAligned; decide +kernel, by decide +kernel, by decide +kernel⟩

end Sys2Proof.Tests
end

section
/-! SUPPORT. O39, the bits of the destination above the vector length (10_state.md R24). The legacy form keeps them; the VEX and
EVEX forms write a value built of exactly `VL` bits, whose other bits are 0 whatever the writemask selects. -/

namespace Sys2Proof.Machine

/-! ### The vector length in lanes and in elements -/

theorem lanes_mul_eq_vl (f : Form) : 128 * f.lanes = f.vl := by cases f <;> rfl

theorem kl_mul_eq_vl (f : Form) : 32 * f.kl = f.vl := by cases f <;> rfl

theorem vl_le_maxVl (f : Form) : f.vl ≤ 512 := by cases f <;> decide

/-! ### What is written above the vector length -/

theorem build_getLsbD_above {w n k : Nat} (f : Nat → BitVec w) (hw : 0 < w) (h : w * n ≤ 512) (hk : w * n ≤ k) :
    (build w n f).getLsbD k = false := by
  rw [build_getLsbD w n f k hw h, decide_eq_false (Nat.not_lt.mpr hk), Bool.false_and]

theorem shuffle_getLsbD_above {f : Form} {k : Nat} (hk : f.vl ≤ k) (a b : Zmm) (imm8 : BitVec 8) :
    (shuffle f.lanes a b imm8).getLsbD k = false := by
  rw [← lanes_mul_eq_vl] at hk
  exact build_getLsbD_above _ (by decide) (lanes_mul_eq_vl f ▸ vl_le_maxVl f) hk

theorem masked_getLsbD_above {f : Form} {k : Nat} (hk : f.vl ≤ k) (s : State) (aaa : BitVec 3) (z : Bool) (old v : Zmm) :
    (s.masked f.kl aaa z old v).getLsbD k = false := by
  rw [← kl_mul_eq_vl] at hk
  exact build_getLsbD_above _ (by decide) (kl_mul_eq_vl f ▸ vl_le_maxVl f) hk

/-! ### The destination after an instruction -/

theorem execShufps_keeps_above {p : Prefixes} {rex : Option Bool} {dst : BitVec 4} {src2 : RegMem} {imm8 : BitVec 8}
    {s t : State} (h : execShufps p rex dst src2 imm8 s = .next t) :
    (t.vec (vreg dst)).extractLsb' 128 384 = (s.vec (vreg dst)).extractLsb' 128 384 := by
  obtain ⟨b, -, -, rfl⟩ := execShufps_next h
  rw [advance_vec, setVec_vec_same, legacyResult_above]

theorem vexOp_zeroes_above {f : Form} {p : Prefixes} {len : Nat} {dst src1 : BitVec 4} {src2 : RegMem} {imm8 : BitVec 8}
    {s t : State} (h : vexOp f p len dst src1 src2 imm8 s = .next t) {k : Nat} (hk : f.vl ≤ k) :
    (t.vec (vreg dst)).getLsbD k = false := by
  obtain ⟨b, -, -, rfl⟩ := vexOp_next h
  rw [advance_vec, setVec_vec_same, shuffle_getLsbD_above hk]

theorem evexOp_zeroes_above {f : Form} {p : Prefixes} {dst src1 : BitVec 5} {src2 : RegMemBcst} {aaa : BitVec 3} {z : Bool}
    {imm8 : BitVec 8} {s t : State} (h : evexOp f p dst src1 src2 aaa z imm8 s = .next t) {k : Nat} (hk : f.vl ≤ k) :
    (t.vec dst).getLsbD k = false := by
  obtain ⟨b, -, -, rfl⟩ := evexOp_next h
  rw [advance_vec, setVec_vec_same, masked_getLsbD_above hk]

theorem exec_keeps_above_of_sse {i : Instr} {s t : State} (h : exec i s = .next t) (hf : i.form = .sse) :
    (t.vec (dstOf i)).extractLsb' 128 384 = (s.vec (dstOf i)).extractLsb' 128 384 := by
  cases i with
  | shufps p rex dst src2 imm8 => exact execShufps_keeps_above h
  | _ => cases hf

theorem exec_zeroes_above_of_not_sse {i : Instr} {s t : State} (h : exec i s = .next t) (hf : i.form ≠ .sse) {k : Nat}
    (hk : i.form.vl ≤ k) : (t.vec (dstOf i)).getLsbD k = false := by
  cases i with
  | shufps p rex dst src2 imm8 => exact absurd rfl hf
  | vshufpsVex128C5 p dst src1 src2 imm8 => exact vexOp_zeroes_above h hk
  | vshufpsVex128C4 p w dst src1 src2 imm8 => exact vexOp_zeroes_above h hk
  | vshufpsVex256C5 p dst src1 src2 imm8 => exact vexOp_zeroes_above h hk
  | vshufpsVex256C4 p w dst src1 src2 imm8 => exact vexOp_zeroes_above h hk
  | vshufpsEvex128 p dst src1 src2 aaa z imm8 => exact evexOp_zeroes_above h hk
  | vshufpsEvex256 p dst src1 src2 aaa z imm8 => exact evexOp_zeroes_above h hk
  | vshufpsEvex512 p dst src1 src2 aaa z imm8 => exact evexOp_zeroes_above h hk

/-- Settles O39: the legacy form copies the bits above its lane from the old destination, and every other form writes a
value built of `VL` bits, after its masking loop if it has one. -/
theorem bitsAboveVectorLength : Obligations.BitsAboveVectorLength := fun _ _ _ h =>
  ⟨exec_keeps_above_of_sse h, fun hf _ hk => exec_zeroes_above_of_not_sse h hf hk⟩

end Sys2Proof.Machine
end

section
/-! SUPPORT. O41, which bytes of memory an instruction reads (20_memory.md R51, R54). An operand read completes exactly when its
address passes the checks and its bytes are readable, which no content of memory decides, and its value is built of those bytes
alone; so a second memory that agrees on them gives the same second source, and with it the same next state. -/

namespace Sys2Proof.Machine

/-! ### The value of an operand depends on its bytes alone -/

theorem build_congr {w n : Nat} {f g : Nat → BitVec w} (h : ∀ j < n, f j = g j) : build w n f = build w n g := by
  induction n with
  | zero => rfl
  | succ n ih => simp only [build, ih fun j hj => h j (by omega), h n n.lt_succ_self]

/-- `mem'` holds the bytes of the `n`-byte operand of `s` at `a`. -/
def SameBytes (s : State) (mem' : Memory) (a : Word) (n : Nat) : Prop :=
  ∀ b < n, Memory.read mem' (s.byteAddr a b).toNat = Memory.read s.mem (s.byteAddr a b).toNat

theorem bytesAt_of_sameBytes {s : State} {mem' : Memory} {a : Word} {n : Nat} (h : SameBytes s mem' a n) :
    State.bytesAt { s with mem := mem' } a n = s.bytesAt a n :=
  build_congr h

/-- The counterpart of `memOperand_next`: everything an operand read that completes went through. -/
theorem memOperand_next_iff (s : State) (c : Access) (p : Prefixes) (len : Nat) (m : MemForm) (v : Zmm) :
    s.memOperand c p len m = .next v ↔
      s.operandAddr c p len m = .next (s.linear c p len m) ∧ BytesReadable s c p len m ∧
        v = s.bytesAt (s.linear c p len m) c.bytes := by
  unfold State.memOperand
  rw [andThen_eq_next]
  constructor
  · rintro ⟨a, ha, hv⟩
    obtain rfl := operandAddr_eq s c p len m a ha
    exact ⟨ha, (memRead_next_iff s _ _ v).mp hv⟩
  · rintro ⟨ha, hv⟩
    exact ⟨_, ha, (memRead_next_iff s _ _ v).mpr hv⟩

/-! ### Another memory with the same operand bytes -/

section
variable {s t : State} {mem' : Memory} {p : Prefixes} {b : Zmm}

theorem memOperand_of_sameBytes {c : Access} {len : Nat} {m : MemForm} (hm : SameBytes s mem' (s.linear c p len m) c.bytes)
    (h : s.memOperand c p len m = .next b) : State.memOperand { s with mem := mem' } c p len m = .next b := by
  obtain ⟨ha, hr, rfl⟩ := (memOperand_next_iff s c p len m b).mp h
  exact (memOperand_next_iff { s with mem := mem' } c p len m _).mpr ⟨ha, hr, (bytesAt_of_sameBytes hm).symm⟩

theorem source2_of_sameBytes {f : Form} {len : Nat} {src2 : RegMem}
    (hm : ∀ c m, regMemAccess f src2 = some (c, m) → SameBytes s mem' (s.linear c p len m) c.bytes)
    (h : s.source2 f p len src2 = .next b) : State.source2 { s with mem := mem' } f p len src2 = .next b := by
  cases src2 with
  | reg r => exact h
  | mem m => exact memOperand_of_sameBytes (hm _ m rfl) h

theorem source2Evex_of_sameBytes {f : Form} {len : Nat} {src2 : RegMemBcst}
    (hm : ∀ c m, regMemBcstAccess f src2 = some (c, m) → SameBytes s mem' (s.linear c p len m) c.bytes)
    (h : s.source2Evex f p len src2 = .next b) : State.source2Evex { s with mem := mem' } f p len src2 = .next b := by
  cases src2 with
  | reg r => exact h
  | mem m => exact memOperand_of_sameBytes (hm _ m rfl) h
  | bcst m =>
    obtain ⟨d, hd, hb⟩ := andThen_eq_next.mp h
    exact andThen_eq_next.mpr ⟨d, memOperand_of_sameBytes (hm _ m rfl) hd, hb⟩

theorem execShufps_of_sameBytes {rex : Option Bool} {dst : BitVec 4} {src2 : RegMem} {imm8 : BitVec 8}
    (hm : ∀ c m, regMemAccess .sse src2 = some (c, m) →
      SameBytes s mem' (s.linear c p (instrLength p (rexHeader rex) src2.length) m) c.bytes)
    (h : execShufps p rex dst src2 imm8 s = .next t) :
    execShufps p rex dst src2 imm8 { s with mem := mem' } = .next { t with mem := mem' } := by
  obtain ⟨b, he, hb, rfl⟩ := execShufps_next h
  exact andThen_eq_next.mpr ⟨(), he, andThen_eq_next.mpr ⟨b, source2_of_sameBytes hm hb, rfl⟩⟩

theorem vexOp_of_sameBytes {f : Form} {len : Nat} {dst src1 : BitVec 4} {src2 : RegMem} {imm8 : BitVec 8}
    (hm : ∀ c m, regMemAccess f src2 = some (c, m) → SameBytes s mem' (s.linear c p len m) c.bytes)
    (h : vexOp f p len dst src1 src2 imm8 s = .next t) :
    vexOp f p len dst src1 src2 imm8 { s with mem := mem' } = .next { t with mem := mem' } := by
  obtain ⟨b, he, hb, rfl⟩ := vexOp_next h
  exact andThen_eq_next.mpr ⟨(), he, andThen_eq_next.mpr ⟨b, source2_of_sameBytes hm hb, rfl⟩⟩

theorem evexOp_of_sameBytes {f : Form} {dst src1 : BitVec 5} {src2 : RegMemBcst} {aaa : BitVec 3} {z : Bool} {imm8 : BitVec 8}
    (hm : ∀ c m, regMemBcstAccess f src2 = some (c, m) →
      SameBytes s mem' (s.linear c p (instrLength p 5 src2.length) m) c.bytes)
    (h : evexOp f p dst src1 src2 aaa z imm8 s = .next t) :
    evexOp f p dst src1 src2 aaa z imm8 { s with mem := mem' } = .next { t with mem := mem' } := by
  obtain ⟨b, he, hb, rfl⟩ := evexOp_next h
  exact andThen_eq_next.mpr ⟨(), he, andThen_eq_next.mpr ⟨b, source2Evex_of_sameBytes hm hb, rfl⟩⟩

theorem exec_of_sameBytes {i : Instr}
    (hm : ∀ c m, memoryOf i = some (c, m) → SameBytes s mem' (s.linear c i.prefixes i.length m) c.bytes)
    (h : exec i s = .next t) : exec i { s with mem := mem' } = .next { t with mem := mem' } := by
  cases i with
  | shufps p rex dst src2 imm8 => exact execShufps_of_sameBytes hm h
  | vshufpsVex128C5 p dst src1 src2 imm8 => exact vexOp_of_sameBytes hm h
  | vshufpsVex128C4 p w dst src1 src2 imm8 => exact vexOp_of_sameBytes hm h
  | vshufpsVex256C5 p dst src1 src2 imm8 => exact vexOp_of_sameBytes hm h
  | vshufpsVex256C4 p w dst src1 src2 imm8 => exact vexOp_of_sameBytes hm h
  | vshufpsEvex128 p dst src1 src2 aaa z imm8 => exact evexOp_of_sameBytes hm h
  | vshufpsEvex256 p dst src1 src2 aaa z imm8 => exact evexOp_of_sameBytes hm h
  | vshufpsEvex512 p dst src1 src2 aaa z imm8 => exact evexOp_of_sameBytes hm h

end

/-! ### Every byte is read, and a broadcast repeats its doubleword -/

theorem bytesReadable_of_exec_next {i : Instr} {c : Access} {m : MemForm} {s t : State} (hi : memoryOf i = some (c, m))
    (h : exec i s = .next t) : BytesReadable s c i.prefixes i.length m := by
  obtain ⟨k, hk⟩ := exec_memory s hi
  rw [hk] at h
  obtain ⟨-, -, h⟩ := andThen_eq_next.mp h
  obtain ⟨b, hb, -⟩ := andThen_eq_next.mp h
  obtain ⟨-, hr, -⟩ := (memOperand_next_iff s c _ _ m b).mp hb
  exact hr

theorem elem_source2Evex_bcst {f : Form} {p : Prefixes} {len : Nat} {m : MemForm} {s : State} {b : Zmm}
    (h : s.source2Evex f p len (.bcst m) = .next b) {j : Nat} (hj : j < f.kl) :
    elem b j = s.dword (s.linear bcstAccess p len m) 0 := by
  obtain ⟨d, hd, hb⟩ := andThen_eq_next.mp h
  obtain ⟨-, -, rfl⟩ := (memOperand_next_iff s bcstAccess p len m d).mp hd
  obtain rfl := Host.Outcome.next.inj hb
  have hkl : f.kl ≤ 16 := by cases f <;> decide
  rw [elem_build f.kl _ j hkl hj]
  exact elem_bytesAt s _ 4 0 (by decide) (by decide)

/-- Settles O41: the checks before the read and the answers of `Translate` do not look at memory, and the value read is built of
the operand's bytes alone. -/
theorem operandBytesRead : Obligations.OperandBytesRead :=
  ⟨fun _ _ _ _ hm h => exec_of_sameBytes hm h, fun _ _ _ _ _ hi h => bytesReadable_of_exec_next hi h,
    fun _ _ _ _ _ _ h _ hj => elem_source2Evex_bcst h hj, rfl, rfl, rfl, rfl, rfl, rfl, rfl⟩

end Sys2Proof.Machine
end

section
/-! SUPPORT. O4, a forbidden byte among the prefixes of an instruction (30_encoding.md R83). The flags of a scan say which bytes were
among the prefixes, not where they stood; and the body of a well-formed instruction is recognised and read to its end, so the
decoder gets as far as judging those flags. -/

namespace Sys2Proof

/-! ### The bytes of an operand read back (30_encoding.md R103 to R107) -/

theorem modrm_md (md : BitVec 2) (reg rm : BitVec 3) : (md ++ reg ++ rm : Byte).extractLsb' 6 2 = md := by
  rw [BitVec.extractLsb'_append_eq_of_le (by decide)]
  exact BitVec.extractLsb'_append_eq_left

theorem modrm_reg (md : BitVec 2) (reg rm : BitVec 3) : (md ++ reg ++ rm : Byte).extractLsb' 3 3 = reg := by
  rw [BitVec.extractLsb'_append_eq_of_le (by decide)]
  exact BitVec.extractLsb'_append_eq_right

theorem modrm_rm (md : BitVec 2) (reg rm : BitVec 3) : (md ++ reg ++ rm : Byte).extractLsb' 0 3 = rm :=
  BitVec.extractLsb'_append_eq_right

theorem ext4_append_low3 (r : BitVec 4) : ext4 r ++ low3 r = r := by decide +revert

theorem disp_md_ne_three (d : Disp) : d.md ≠ 3#2 := by cases d <;> simp [Disp.md]

theorem disp_md_eq_zero {d : Disp} : d.md = 0#2 ↔ d = .absent := by cases d <;> simp [Disp.md]

theorem takeDisp32_bytes (d : BitVec 32) (bs : List Byte) : takeDisp32 (disp32Bytes d ++ bs) = some (d, bs) := by
  have h : d.extractLsb' 24 8 ++ d.extractLsb' 16 8 ++ d.extractLsb' 8 8 ++ d.extractLsb' 0 8 = d := by
    rw [BitVec.extractLsb'_append_extractLsb'_eq_extractLsb' (show 24 = 16 + 8 from rfl),
      BitVec.extractLsb'_append_extractLsb'_eq_extractLsb' (show 16 = 8 + 8 from rfl),
      BitVec.extractLsb'_append_extractLsb'_eq_extractLsb' (show 8 = 0 + 8 from rfl)]
    exact BitVec.extractLsb'_eq_self
  simp [takeDisp32, disp32Bytes, h]

theorem takeDisp_bytes (d : Disp) (bs : List Byte) : takeDisp d.md (d.bytes ++ bs) = some (d, bs) := by
  cases d with
  | absent => rfl
  | disp8 d => rfl
  | disp32 d => simp [takeDisp, Disp.md, Disp.bytes, takeDisp32_bytes]

theorem decodeMem_base (x : BitVec 1) {r : BitVec 4} {d : Disp} (hw : (MemForm.base r d).wf = true) (bs : List Byte) :
    decodeMem d.md (low3 r) x (ext4 r) (d.bytes ++ bs) = some (.base r d, bs) := by
  simp only [MemForm.wf, Bool.and_eq_true, bne_iff_ne, Bool.or_eq_true] at hw
  obtain ⟨hsib, hdisp⟩ := hw
  have hesc : ¬ (low3 r = 5#3 ∧ d.md = 0#2) := fun ⟨h5, h0⟩ => hdisp.elim (· (disp_md_eq_zero.mp h0)) (· h5)
  simp only [decodeMem, if_neg hsib, if_neg hesc, takeDisp_bytes, ext4_append_low3]

theorem decodeMem_sib {sc : BitVec 2} {i r : BitVec 4} {d : Disp} (hw : (MemForm.sib sc i r d).wf = true) (bs : List Byte) :
    decodeMem d.md 4#3 (ext4 i) (ext4 r) ((sc ++ low3 i ++ low3 r) :: (d.bytes ++ bs)) = some (.sib sc i r d, bs) := by
  simp only [MemForm.wf, bne_iff_ne, Bool.or_eq_true] at hw
  have hesc : ¬ (low3 r = 5#3 ∧ d.md = 0#2) := fun ⟨h5, h0⟩ => hw.elim (· (disp_md_eq_zero.mp h0)) (· h5)
  simp only [decodeMem, if_true, decodeSib, modrm_md, modrm_reg, modrm_rm, if_neg hesc, takeDisp_bytes, ext4_append_low3]

theorem decodeMem_sibNoBase (b : BitVec 1) (sc : BitVec 2) (i : BitVec 4) (d : BitVec 32) (bs : List Byte) :
    decodeMem 0#2 4#3 (ext4 i) b ((sc ++ low3 i ++ 5#3) :: (disp32Bytes d ++ bs)) = some (.sibNoBase sc i d, bs) := by
  simp only [decodeMem, if_true, decodeSib, modrm_md, modrm_reg, modrm_rm, and_self, takeDisp32_bytes, ext4_append_low3]

theorem decodeMem_dispOnly (x b : BitVec 1) (d : BitVec 32) (bs : List Byte) :
    decodeMem 0#2 5#3 x b (disp32Bytes d ++ bs) = some (.dispOnly d, bs) := by
  simp [decodeMem, takeDisp32_bytes]

theorem decodeTail_reg (x b : BitVec 1) (reg rm : BitVec 3) (imm8 : Byte) (rest : List Byte) :
    decodeTail x b ((3#2 ++ reg ++ rm) :: imm8 :: rest) = some ⟨reg, .reg rm, imm8, rest⟩ := by
  simp only [decodeTail, modrm_md, modrm_reg, modrm_rm, if_true]

theorem decodeTail_mem {x b : BitVec 1} {md : BitVec 2} {reg rm : BitVec 3} {bs rest : List Byte} {imm8 : Byte} {f : MemForm}
    (hmd : md ≠ 3#2) (h : decodeMem md rm x b bs = some (f, imm8 :: rest)) :
    decodeTail x b ((md ++ reg ++ rm) :: bs) = some ⟨reg, .mem f, imm8, rest⟩ := by
  simp only [decodeTail, modrm_md, modrm_reg, modrm_rm, if_neg hmd, h]

theorem decodeTail_memForm (reg : BitVec 3) {f : MemForm} (hw : f.wf = true) (imm8 : Byte) (rest : List Byte) :
    decodeTail f.x f.b (f.bytes reg ++ imm8 :: rest) = some ⟨reg, .mem f, imm8, rest⟩ := by
  cases f with
  | base r d => exact decodeTail_mem (disp_md_ne_three d) (decodeMem_base _ hw _)
  | sib sc i r d => exact decodeTail_mem (disp_md_ne_three d) (decodeMem_sib hw _)
  | sibNoBase sc i d => exact decodeTail_mem (by decide) (decodeMem_sibNoBase _ sc i d _)
  | dispOnly d => exact decodeTail_mem (by decide) (decodeMem_dispOnly _ _ d _)

/-- Any extension bits find the end of an operand that some extension bits read. -/
theorem decodeTail_isSome_of {x b x' b' : BitVec 1} {bs : List Byte} {t : Tail} (h : decodeTail x' b' bs = some t) :
    (decodeTail x b bs).isSome = true := by
  rw [← Option.isSome_map (f := fun t => (t.rm.isReg, t.rest)), decodeTail_congr x b x' b', h]
  rfl

theorem decodeTail_regMem_isSome (x b : BitVec 1) (reg : BitVec 3) {src2 : RegMem} (hw : src2.wf = true) (imm8 : Byte)
    (rest : List Byte) : (decodeTail x b (src2.bytes reg ++ imm8 :: rest)).isSome = true := by
  cases src2 with
  | reg r => exact decodeTail_isSome_of (decodeTail_reg 0#1 0#1 reg (low3 r) imm8 rest)
  | mem f => exact decodeTail_isSome_of (decodeTail_memForm reg hw imm8 rest)

theorem decodeTail_regMemBcst_isSome (x b : BitVec 1) (reg : BitVec 3) {src2 : RegMemBcst} (hw : src2.wf = true) (imm8 : Byte)
    (rest : List Byte) : (decodeTail x b (src2.bytes reg ++ imm8 :: rest)).isSome = true := by
  cases src2 with
  | reg r => exact decodeTail_isSome_of (decodeTail_reg 0#1 0#1 reg (r.extractLsb' 0 3) imm8 rest)
  | mem f => exact decodeTail_isSome_of (decodeTail_memForm reg hw imm8 rest)
  | bcst f => exact decodeTail_isSome_of (decodeTail_memForm reg hw imm8 rest)

/-! ### What the scan of the prefixes finds (30_encoding.md R82, R83, R88) -/

/-- A byte the scan takes: one of the legacy prefixes or, in Mode64, a REX byte. -/
def IsPrefixByte (m : Mode) (b : Byte) : Prop := b ∈ Machine.legacyPrefixBytes ∨ m = .mode64 ∧ isRex b = true

/-- A scan after another byte: a REX byte it held is no longer adjacent to the form. -/
def PrefixScan.leaveRex (s : PrefixScan) : PrefixScan := { s with rex := none, strayRex := s.strayRex || s.rex.isSome }

theorem isRex_legacyPrefix {b : Byte} (h : b ∈ Machine.legacyPrefixBytes) : isRex b = false := by decide +revert

theorem add_rex {m : Mode} {b : Byte} (hm : m = .mode64) (hb : isRex b = true) (s : PrefixScan) :
    s.add m b = some { s.leaveRex with rex := some b } :=
  if_pos ⟨hm, hb⟩

theorem add_legacyPrefix (m : Mode) {b : Byte} (hb : b ∈ Machine.legacyPrefixBytes) (s : PrefixScan) :
    s.add m b = some { s.leaveRex with
      segs := s.segs ++ (segOfByte b).toList
      addrSizes := s.addrSizes + [b].count 0x67#8
      opSize := s.opSize || b == 0x66#8
      rep := s.rep || b == 0xF2#8 || b == 0xF3#8
      lock := s.lock || b == 0xF0#8 } := by
  have hadd : s.add m b = s.leaveRex.addLegacy b := if_neg (by simp [isRex_legacyPrefix hb])
  rw [hadd]
  simp only [Machine.legacyPrefixBytes, List.mem_cons, List.not_mem_nil, or_false] at hb
  rcases hb with rfl | rfl | rfl | rfl | rfl | rfl | rfl | rfl | rfl | rfl | rfl <;>
    simp [PrefixScan.addLegacy, segOfByte, PrefixScan.leaveRex]

/-- The scan holds what the prefixes `l` say, as far as a form is judged by it. -/
structure PrefixScan.Holds (m : Mode) (l : List Byte) (s : PrefixScan) : Prop where
  addrSizes : s.addrSizes = l.count 0x67#8
  opSize : s.opSize = true ↔ 0x66#8 ∈ l
  rep : s.rep = true ↔ 0xF2#8 ∈ l ∨ 0xF3#8 ∈ l
  lock : s.lock = true ↔ 0xF0#8 ∈ l
  rex : s.strayRex = true ∨ s.rex.isSome = true ↔ m = .mode64 ∧ ∃ r ∈ l, isRex r = true

theorem holds_empty (m : Mode) : PrefixScan.empty.Holds m [] := by
  constructor <;> simp [PrefixScan.empty]

theorem holds_legacyPrefix {m : Mode} {l : List Byte} {s q : PrefixScan} {b : Byte} (h : s.Holds m l)
    (hb : b ∈ Machine.legacyPrefixBytes) (hq : s.add m b = some q) : q.Holds m (l ++ [b]) := by
  rw [add_legacyPrefix m hb] at hq
  obtain rfl := Option.some.inj hq
  constructor
  · rw [h.addrSizes, List.count_append]
  · simp [h.opSize, @eq_comm _ b]
  · simp [h.rep, @eq_comm _ b, or_assoc, or_left_comm]
  · simp [h.lock, @eq_comm _ b]
  · simp [PrefixScan.leaveRex, isRex_legacyPrefix hb, h.rex]

theorem holds_rex {m : Mode} {l : List Byte} {s : PrefixScan} {b : Byte} (h : s.Holds m l) (hm : m = .mode64)
    (hb : isRex b = true) : PrefixScan.Holds m (l ++ [b]) { s.leaveRex with rex := some b } := by
  have hne : ∀ c ∈ Machine.legacyPrefixBytes, c ≠ b := by
    rintro c hc rfl
    simp [isRex_legacyPrefix hc] at hb
  constructor
  · simp [PrefixScan.leaveRex, h.addrSizes, (hne 0x67#8 (by decide)).symm]
  · simp [PrefixScan.leaveRex, h.opSize, hne 0x66#8 (by decide)]
  · simp [PrefixScan.leaveRex, h.rep, hne 0xF2#8 (by decide), hne 0xF3#8 (by decide)]
  · simp [PrefixScan.leaveRex, h.lock, hne 0xF0#8 (by decide)]
  · simp [hm, hb]

theorem add_holds {m : Mode} {l : List Byte} {s : PrefixScan} {b : Byte} (h : s.Holds m l) (hb : IsPrefixByte m b) :
    ∃ q, s.add m b = some q ∧ q.Holds m (l ++ [b]) := by
  rcases hb with hb | ⟨hm, hb⟩
  · exact ⟨_, add_legacyPrefix m hb s, holds_legacyPrefix h hb (add_legacyPrefix m hb s)⟩
  · exact ⟨_, add_rex hm hb s, holds_rex h hm hb⟩

theorem scanPrefixes_holds {m : Mode} {l : List Byte} (hl : ∀ b ∈ l, IsPrefixByte m b) {l₀ : List Byte} {s : PrefixScan}
    (hs : s.Holds m l₀) : ∃ q, q.Holds m (l₀ ++ l) ∧ ∀ bs, scanPrefixes m s (l ++ bs) = scanPrefixes m q bs := by
  induction l generalizing l₀ s with
  | nil => exact ⟨s, by simpa using hs, fun _ => rfl⟩
  | cons b l ih =>
    obtain ⟨q, hadd, hq⟩ := add_holds hs (hl b List.mem_cons_self)
    obtain ⟨r, hr, hscan⟩ := ih (fun c hc => hl c (List.mem_cons_of_mem b hc)) hq
    refine ⟨r, by simpa using hr, fun bs => ?_⟩
    rw [List.cons_append, scanPrefixes_step m s q b _ hadd, hscan]

theorem udLegacy_of_holds {m : Mode} {l : List Byte} {s : PrefixScan} (h : s.Holds m l) :
    s.udLegacy = true ↔ 0xF0#8 ∈ l ∨ 0xF2#8 ∈ l ∨ 0xF3#8 ∈ l := by
  simp [PrefixScan.udLegacy, h.lock, h.rep]

theorem udVex_of_holds {m : Mode} {l : List Byte} {s : PrefixScan} (h : s.Holds m l) :
    s.udVex = true ↔ s.udLegacy = true ∨ 0x66#8 ∈ l ∨ m = .mode64 ∧ ∃ r ∈ l, isRex r = true := by
  rw [← h.opSize, ← h.rex]
  simp [PrefixScan.udLegacy, PrefixScan.udVex, or_assoc, or_comm (a := s.strayRex = true)]

/-! ### Judging a form whose operand is complete -/

/-- A byte that starts a form is not one of the prefixes (30_encoding.md R114 (2)). -/
theorem add_formByte (m : Mode) (s : PrefixScan) {b : Byte} (hb : b ∈ ([0x0F, 0xC4, 0xC5, 0x62] : List Byte)) :
    s.add m b = none := by
  simp only [List.mem_cons, List.not_mem_nil, or_false] at hb
  rcases hb with rfl | rfl | rfl | rfl <;> simp [PrefixScan.add, PrefixScan.addLegacy, segOfByte, isRex]

/-- After the prefixes the decoder answers as the family of the byte that starts the form does. -/
theorem decode_prefixBytes {m : Mode} (hm : m.admitted = true) {l : List Byte} (hl : ∀ b ∈ l, IsPrefixByte m b) {b : Byte}
    (hb : b ∈ ([0x0F, 0xC4, 0xC5, 0x62] : List Byte)) (bs : List Byte) :
    ∃ p, p.Holds m l ∧ decode m (l ++ b :: bs) = decodeFamily m p (b :: bs) := by
  obtain ⟨p, hp, hscan⟩ := scanPrefixes_holds hl (holds_empty m)
  refine ⟨p, hp, ?_⟩
  rw [decode, if_pos hm, hscan, scanPrefixes_stop m p b bs (add_formByte m p hb)]

section
variable {m : Mode} {p : PrefixScan} (ha : ¬ (m = .mode32 ∧ p.addrSizes ≠ 0))
include ha

theorem withTail_ud {ud : Bool → Bool} (hud : ∀ r, ud r = true) (ref : Option DecodeRefusal) {x b : BitVec 1} {bs : List Byte}
    (ht : (decodeTail x b bs).isSome = true) (k : Prefixes → Tail → Decoded) : withTail m p ud ref x b bs k = .ud := by
  obtain ⟨t, ht⟩ := Option.isSome_iff_exists.mp ht
  simp only [withTail, if_neg ha, ht, hud, if_true]

theorem withTail_refused {ud : Bool → Bool} (hud : ∀ r, ud r = false) (r : DecodeRefusal) {x b : BitVec 1} {bs : List Byte}
    (ht : (decodeTail x b bs).isSome = true) (k : Prefixes → Tail → Decoded) :
    withTail m p ud (some r) x b bs k = .refused r := by
  obtain ⟨t, ht⟩ := Option.isSome_iff_exists.mp ht
  simp only [withTail, if_neg ha, ht, hud, Bool.false_eq_true, if_false]

theorem decodeLegacy_ud (hud : p.udLegacy = true) {bs : List Byte} (ht : ∀ x b, (decodeTail x b bs).isSome = true) :
    decodeLegacy m p bs = .ud :=
  withTail_ud ha (fun _ => hud) _ (ht _ _) _

theorem decodeLegacy_shufpd (hud : p.udLegacy = false) (ho : p.opSize = true) {bs : List Byte}
    (ht : ∀ x b, (decodeTail x b bs).isSome = true) : decodeLegacy m p bs = .refused .shufpd := by
  rw [decodeLegacy, PrefixScan.refusedLegacy, if_pos ho]
  exact withTail_refused ha (fun _ => hud) _ (ht _ _) _

theorem decodeVexFields_ud (hud : p.udVex = true) (ref : Option DecodeRefusal) (r x b : BitVec 1) (vvvv : BitVec 4) (l : BitVec 1)
    {pp : BitVec 2} (hpp : pp ≠ 1#2) (mk128 mk256 : Prefixes → BitVec 4 → BitVec 4 → RegMem → BitVec 8 → Instr) {bs : List Byte}
    (ht : (decodeTail x b bs).isSome = true) : decodeVexFields m p ref r x b vvvv l pp mk128 mk256 bs = .ud := by
  rw [decodeVexFields, if_neg hpp]
  exact withTail_ud ha (by simp [hud]) _ ht _

theorem decodeVexC5_ud (hud : p.udVex = true) {b1 : Byte} (hpp : b1.extractLsb' 0 2 = 0#2) {bs : List Byte}
    (ht : (decodeTail 0#1 0#1 bs).isSome = true) : decodeVexC5 m p (b1 :: 0xC6#8 :: bs) = .ud := by
  rw [decodeVexC5, if_neg (by decide)]
  exact decodeVexFields_ud ha hud _ _ _ _ _ _ (by rw [hpp]; decide) _ _ ht

theorem decodeVexC4_ud (hud : p.udVex = true) {b1 b2 : Byte} (hmap : b1.extractLsb' 0 5 = 1#5) (hpp : b2.extractLsb' 0 2 = 0#2)
    {bs : List Byte} (ht : ∀ x b, (decodeTail x b bs).isSome = true) : decodeVexC4 m p (b1 :: b2 :: 0xC6#8 :: bs) = .ud := by
  rw [decodeVexC4, if_neg (by simp [hmap])]
  exact decodeVexFields_ud ha hud _ _ _ _ _ _ (by rw [hpp]; decide) _ _ (ht _ _)

theorem decodeEvex_ud (hud : p.udVex = true) {p0 p1 : Byte} (p2 : Byte) (hmap : p0.extractLsb' 0 2 = 1#2)
    (hpp : p1.extractLsb' 0 2 = 0#2) {bs : List Byte} (ht : ∀ x b, (decodeTail x b bs).isSome = true) :
    decodeEvex m p (p0 :: p1 :: p2 :: 0xC6#8 :: bs) = .ud := by
  have hother : evexOther p0 p1 = none := by simp [evexOther, hmap, hpp]
  simp only [decodeEvex, ne_eq, not_true_eq_false, if_false, hother]
  exact withTail_ud ha (by simp [evexUd, hud]) _ (ht _ _) _

end

theorem decodeFamily_legacy (m : Mode) (p : PrefixScan) (bs : List Byte) :
    decodeFamily m p (0x0F#8 :: 0xC6#8 :: bs) = decodeLegacy m p bs := rfl

theorem decodeFamily_vexC5 {m : Mode} (p : PrefixScan) {b : Byte} (bs : List Byte) (hb : vexMarked m (b :: bs) = true) :
    decodeFamily m p (0xC5#8 :: b :: bs) = decodeVexC5 m p (b :: bs) := by
  simp [decodeFamily, hb]

theorem decodeFamily_vexC4 {m : Mode} (p : PrefixScan) {b : Byte} (bs : List Byte) (hb : vexMarked m (b :: bs) = true) :
    decodeFamily m p (0xC4#8 :: b :: bs) = decodeVexC4 m p (b :: bs) := by
  simp [decodeFamily, hb]

theorem decodeFamily_evex {m : Mode} (p : PrefixScan) {b : Byte} (bs : List Byte) (hb : vexMarked m (b :: bs) = true) :
    decodeFamily m p (0x62#8 :: b :: bs) = decodeEvex m p (b :: bs) := by
  simp [decodeFamily, hb]

/-! ### The header bytes of the encoder (30_encoding.md R91, R92, R95, R97, R102) -/

theorem ext4_of_isLow4 {r : BitVec 4} (h : isLow4 r = true) : ext4 r = 0#1 := by decide +revert

theorem bit3_of_isLow5 {r : BitVec 5} (h : isLow5 r = true) : r.extractLsb' 3 1 = 0#1 := by decide +revert

theorem bit4_of_isLow5 {r : BitVec 5} (h : isLow5 r = true) : r.extractLsb' 4 1 = 0#1 := by decide +revert

theorem memForm_x_of_isLow {f : MemForm} (h : f.isLow = true) : f.x = 0#1 := by
  cases f with
  | base b d => rfl
  | sib sc i b d => exact ext4_of_isLow4 (Bool.and_eq_true_iff.mp h).1
  | sibNoBase sc i d => exact ext4_of_isLow4 h
  | dispOnly d => rfl

theorem regMem_x_of_isLow {src2 : RegMem} (h : src2.isLow = true) : src2.x = 0#1 := by
  cases src2 with
  | reg r => rfl
  | mem f => exact memForm_x_of_isLow h

theorem regMemBcst_x_of_isLow {src2 : RegMemBcst} (h : src2.isLow = true) : src2.x = 0#1 := by
  cases src2 with
  | reg r => exact bit4_of_isLow5 h
  | mem f => exact memForm_x_of_isLow h
  | bcst f => exact memForm_x_of_isLow h

theorem vexMarked_of {m : Mode} {b : Byte} (bs : List Byte) (h : m = .mode64 ∨ b.extractLsb' 6 2 = 3#2) :
    vexMarked m (b :: bs) = true := by
  simpa [vexMarked] using h

theorem vexC5_top {dst src1 : BitVec 4} (l : BitVec 1) (hd : isLow4 dst = true) (hs : isLow4 src1 = true) :
    (~~~(ext4 dst) ++ ~~~src1 ++ l ++ 0#2 : Byte).extractLsb' 6 2 = 3#2 := by
  rw [ext4_of_isLow4 hd]
  decide +revert

/-- The bytes after a header: the opcode, and an operand that is read whatever the extension bits. -/
theorem opcodeBytes_append (dst : BitVec 4) (src2 : RegMem) (imm8 : Byte) (rest : List Byte) :
    opcodeBytes dst src2 imm8 ++ rest = 0xC6#8 :: (src2.bytes (low3 dst) ++ imm8 :: rest) := by
  simp [opcodeBytes]

theorem opcodeBytesEvex_append (dst : BitVec 5) (src2 : RegMemBcst) (imm8 : Byte) (rest : List Byte) :
    opcodeBytesEvex dst src2 imm8 ++ rest = 0xC6#8 :: (src2.bytes (dst.extractLsb' 0 3) ++ imm8 :: rest) := by
  simp [opcodeBytesEvex]

/-! ### The body of a VEX or EVEX form after forbidden prefixes -/

section
variable {m : Mode} {p : PrefixScan} (ha : ¬ (m = .mode32 ∧ p.addrSizes ≠ 0)) (hud : p.udVex = true) {q : Prefixes}
include ha hud

theorem decodeFamily_vexC5Bytes_ud (l : BitVec 1) {dst src1 : BitVec 4} {src2 : RegMem} (hw : wfVexC5 m q dst src1 src2 = true)
    (imm8 : Byte) (rest : List Byte) :
    decodeFamily m p (vexC5Bytes l dst src1 ++ opcodeBytes dst src2 imm8 ++ rest) = .ud := by
  simp only [wfVexC5, Bool.and_eq_true, Bool.or_eq_true, decide_eq_true_eq] at hw
  obtain ⟨⟨⟨-, hsrc⟩, -⟩, hlow⟩ := hw
  have hmark := vexMarked_of (opcodeBytes dst src2 imm8 ++ rest) (hlow.imp_right fun h => vexC5_top l h.1 h.2)
  rw [List.append_assoc, vexC5Bytes, List.cons_append, List.singleton_append, decodeFamily_vexC5 p _ hmark, opcodeBytes_append]
  exact decodeVexC5_ud ha hud BitVec.extractLsb'_append_eq_right (decodeTail_regMem_isSome _ _ _ hsrc imm8 rest)

theorem decodeFamily_vexC4Bytes_ud (w : Bool) (l : BitVec 1) {dst src1 : BitVec 4} {src2 : RegMem}
    (hw : wfVexC4 m q dst src1 src2 = true) (imm8 : Byte) (rest : List Byte) :
    decodeFamily m p (vexC4Bytes w l dst src1 src2 ++ opcodeBytes dst src2 imm8 ++ rest) = .ud := by
  simp only [wfVexC4, Bool.and_eq_true, Bool.or_eq_true, decide_eq_true_eq] at hw
  obtain ⟨⟨-, hsrc⟩, hlow⟩ := hw
  have htop : isLow4 dst = true ∧ src2.isLow = true →
      (~~~(ext4 dst) ++ ~~~src2.x ++ ~~~src2.b ++ 1#5 : Byte).extractLsb' 6 2 = 3#2 := by
    rintro ⟨hd, hs⟩
    rw [ext4_of_isLow4 hd, regMem_x_of_isLow hs]
    generalize src2.b = b
    decide +revert
  rw [List.append_assoc, vexC4Bytes, List.cons_append, List.cons_append, List.singleton_append,
    decodeFamily_vexC4 p _ (vexMarked_of _ (hlow.imp_right fun h => htop ⟨h.1.1, h.2⟩)), opcodeBytes_append]
  exact decodeVexC4_ud ha hud BitVec.extractLsb'_append_eq_right BitVec.extractLsb'_append_eq_right
    fun x b => decodeTail_regMem_isSome x b _ hsrc imm8 rest

theorem decodeFamily_evexBytes_ud (ll : BitVec 2) {dst src1 : BitVec 5} {src2 : RegMemBcst} {aaa : BitVec 3} {z : Bool}
    (hw : wfEvex m q dst src1 src2 aaa z = true) (imm8 : Byte) (rest : List Byte) :
    decodeFamily m p (evexBytes ll dst src1 src2 aaa z ++ opcodeBytesEvex dst src2 imm8 ++ rest) = .ud := by
  simp only [wfEvex, Bool.and_eq_true, Bool.or_eq_true, decide_eq_true_eq] at hw
  obtain ⟨⟨⟨-, hsrc⟩, -⟩, hlow⟩ := hw
  have htop : isLow5 dst = true ∧ src2.isLow = true →
      (~~~(dst.extractLsb' 3 1) ++ ~~~src2.x ++ ~~~src2.b ++ ~~~(dst.extractLsb' 4 1) ++ 0#2 ++ 1#2 : Byte).extractLsb' 6 2 =
        3#2 := by
    rintro ⟨hd, hs⟩
    rw [bit3_of_isLow5 hd, bit4_of_isLow5 hd, regMemBcst_x_of_isLow hs]
    generalize src2.b = b
    decide +revert
  rw [List.append_assoc, evexBytes, List.cons_append, List.cons_append, List.cons_append, List.singleton_append,
    decodeFamily_evex p _ (vexMarked_of _ (hlow.imp_right fun h => htop ⟨h.1.1, h.2⟩)), opcodeBytesEvex_append]
  exact decodeEvex_ud ha hud _ BitVec.extractLsb'_append_eq_right BitVec.extractLsb'_append_eq_right
    fun x b => decodeTail_regMemBcst_isSome x b _ hsrc imm8 rest

theorem decodeFamily_encodeBody_ud {i : Instr} (hw : i.wf m = true) (hf : i.form ≠ .sse) (rest : List Byte) :
    decodeFamily m p (encodeBody i ++ rest) = .ud := by
  cases i with
  | shufps => exact absurd rfl hf
  | vshufpsVex128C5 q dst src1 src2 imm8 => exact decodeFamily_vexC5Bytes_ud ha hud _ (Bool.and_eq_true_iff.mp hw).2 imm8 rest
  | vshufpsVex256C5 q dst src1 src2 imm8 => exact decodeFamily_vexC5Bytes_ud ha hud _ (Bool.and_eq_true_iff.mp hw).2 imm8 rest
  | vshufpsVex128C4 q w dst src1 src2 imm8 => exact decodeFamily_vexC4Bytes_ud ha hud w _ (Bool.and_eq_true_iff.mp hw).2 imm8 rest
  | vshufpsVex256C4 q w dst src1 src2 imm8 => exact decodeFamily_vexC4Bytes_ud ha hud w _ (Bool.and_eq_true_iff.mp hw).2 imm8 rest
  | vshufpsEvex128 q dst src1 src2 aaa z imm8 => exact decodeFamily_evexBytes_ud ha hud _ (Bool.and_eq_true_iff.mp hw).2 imm8 rest
  | vshufpsEvex256 q dst src1 src2 aaa z imm8 => exact decodeFamily_evexBytes_ud ha hud _ (Bool.and_eq_true_iff.mp hw).2 imm8 rest
  | vshufpsEvex512 q dst src1 src2 aaa z imm8 => exact decodeFamily_evexBytes_ud ha hud _ (Bool.and_eq_true_iff.mp hw).2 imm8 rest

end

/-! ### An instruction after any prefixes -/

theorem wf_admitted {m : Mode} {i : Instr} (hw : i.wf m = true) : m.admitted = true := by
  cases i <;> exact (Bool.and_eq_true_iff.mp hw).1

theorem wf_prefixes {m : Mode} {i : Instr} (hw : i.wf m = true) : i.prefixes.wf m = true := by
  cases i <;> simp_all [Instr.wf, wfLegacy, wfVexC5, wfVexC4, wfEvex, Instr.prefixes]

theorem not_address16 {m : Mode} {l : List Byte} {s : PrefixScan} (h : s.Holds m l) (hl : m = .mode32 → 0x67#8 ∉ l) :
    ¬ (m = .mode32 ∧ s.addrSizes ≠ 0) := by
  rintro ⟨hm, hne⟩
  exact hne (h.addrSizes.trans (List.count_eq_zero.mpr (hl hm)))

theorem encodeBody_head {i : Instr} (hf : i.form ≠ .sse) :
    ∃ b ∈ ([0x0F, 0xC4, 0xC5, 0x62] : List Byte), ∃ bs, encodeBody i = b :: bs := by
  cases i with
  | shufps => exact absurd rfl hf
  | vshufpsVex128C5 | vshufpsVex256C5 => exact ⟨0xC5#8, by decide, _, rfl⟩
  | vshufpsVex128C4 | vshufpsVex256C4 => exact ⟨0xC4#8, by decide, _, rfl⟩
  | vshufpsEvex128 | vshufpsEvex256 | vshufpsEvex512 => exact ⟨0x62#8, by decide, _, rfl⟩

theorem isRex_rexBytes {rex : Option Bool} {dst : BitVec 4} {src2 : RegMem} {r : Byte} (hr : r ∈ rexBytes rex dst src2) :
    isRex r = true := by
  cases rex with
  | none => cases hr
  | some w =>
    obtain rfl := List.mem_singleton.mp hr
    generalize BitVec.ofBool w = w, ext4 dst = d, src2.x = x, src2.b = b
    decide +revert

theorem isPrefixByte_rexBytes {m : Mode} {q : Prefixes} {rex : Option Bool} {dst : BitVec 4} {src2 : RegMem}
    (hw : wfLegacy m q rex dst src2 = true) : ∀ b ∈ rexBytes rex dst src2, IsPrefixByte m b := by
  intro b hb
  cases rex with
  | none => cases hb
  | some w => exact .inr ⟨of_decide_eq_true (Bool.and_eq_true_iff.mp hw).2, isRex_rexBytes hb⟩

theorem mem_append_rexBytes {c : Byte} (hc : c ∈ Machine.legacyPrefixBytes) (l : List Byte) (rex : Option Bool) (dst : BitVec 4)
    (src2 : RegMem) : c ∈ l ++ rexBytes rex dst src2 ↔ c ∈ l := by
  have hrex : c ∉ rexBytes rex dst src2 := fun h => by simpa [isRex_legacyPrefix hc] using isRex_rexBytes h
  rw [List.mem_append, or_iff_left hrex]

section
variable {m : Mode} {i : Instr} (hw : i.wf m = true) {l : List Byte} (hl : ∀ b ∈ l, IsPrefixByte m b)
  (ha : m = .mode32 → 0x67#8 ∉ l) (rest : List Byte)
include hw hl ha

theorem decode_prefixBytes_ud_of_not_sse (hf : i.form ≠ .sse)
    (h : 0xF0#8 ∈ l ∨ 0xF2#8 ∈ l ∨ 0xF3#8 ∈ l ∨ 0x66#8 ∈ l ∨ m = .mode64 ∧ ∃ r ∈ l, isRex r = true) :
    decode m (l ++ (encodeBody i ++ rest)) = .ud := by
  obtain ⟨b, hb, bs, hbody⟩ := encodeBody_head hf
  obtain ⟨p, hp, hdec⟩ := decode_prefixBytes (wf_admitted hw) hl hb (bs ++ rest)
  have hud : p.udVex = true := by
    rw [udVex_of_holds hp, udLegacy_of_holds hp]
    simpa [or_assoc] using h
  rw [hbody, List.cons_append, hdec, ← List.cons_append, ← hbody]
  exact decodeFamily_encodeBody_ud (not_address16 hp ha) hud hw hf rest

/-- The legacy form after any prefixes, its own REX byte counted as one of them. -/
theorem decode_prefixBytes_sse (hf : i.form = .sse) :
    ∃ p bs, ¬ (m = .mode32 ∧ p.addrSizes ≠ 0) ∧ (p.opSize = true ↔ 0x66#8 ∈ l) ∧
      (p.udLegacy = true ↔ 0xF0#8 ∈ l ∨ 0xF2#8 ∈ l ∨ 0xF3#8 ∈ l) ∧ (∀ x b, (decodeTail x b bs).isSome = true) ∧
      decode m (l ++ (encodeBody i ++ rest)) = decodeLegacy m p bs := by
  cases i with
  | shufps q rex dst src2 imm8 =>
    obtain ⟨hm, hw⟩ := Bool.and_eq_true_iff.mp hw
    have hsrc : src2.wf = true := (Bool.and_eq_true_iff.mp (Bool.and_eq_true_iff.mp hw).1).2
    have hmem {c : Byte} (hc : c ∈ Machine.legacyPrefixBytes) := mem_append_rexBytes hc l rex dst src2
    have hbytes : ∀ b ∈ l ++ rexBytes rex dst src2, IsPrefixByte m b :=
      List.forall_mem_append.mpr ⟨hl, isPrefixByte_rexBytes hw⟩
    obtain ⟨p, hp, hdec⟩ := decode_prefixBytes hm hbytes (b := 0x0F#8) (by decide) (opcodeBytes dst src2 imm8 ++ rest)
    refine ⟨p, src2.bytes (low3 dst) ++ imm8 :: rest, not_address16 hp ?_, ?_, ?_,
      fun x b => decodeTail_regMem_isSome x b _ hsrc imm8 rest, ?_⟩
    · exact fun hm => (hmem (by decide)).not.mpr (ha hm)
    · rw [hp.opSize, hmem (by decide)]
    · rw [udLegacy_of_holds hp, hmem (by decide), hmem (by decide), hmem (by decide)]
    · rw [← decodeFamily_legacy, ← opcodeBytes_append, ← hdec]
      simp [encodeBody]
  | _ => cases hf

theorem decode_prefixBytes_ud (h : 0xF0#8 ∈ l ∨ 0xF2#8 ∈ l ∨ 0xF3#8 ∈ l) : decode m (l ++ (encodeBody i ++ rest)) = .ud := by
  by_cases hf : i.form = .sse
  · obtain ⟨p, bs, haddr, -, hud, htail, hdec⟩ := decode_prefixBytes_sse hw hl ha rest hf
    rw [hdec]
    exact decodeLegacy_ud haddr (hud.mpr h) htail
  · exact decode_prefixBytes_ud_of_not_sse hw hl ha rest hf (h.imp_right (Or.imp_right .inl))

theorem decode_prefixBytes_shufpd (hf : i.form = .sse) (h : ¬ (0xF0#8 ∈ l ∨ 0xF2#8 ∈ l ∨ 0xF3#8 ∈ l)) (ho : 0x66#8 ∈ l) :
    decode m (l ++ (encodeBody i ++ rest)) = .refused .shufpd := by
  obtain ⟨p, bs, haddr, hop, hud, htail, hdec⟩ := decode_prefixBytes_sse hw hl ha rest hf
  rw [hdec]
  exact decodeLegacy_shufpd haddr (Bool.eq_false_iff.mpr (hud.not.mpr h)) (hop.mpr ho) htail

end

/-! ### One forbidden byte among the encoder's prefixes -/

theorem isRex_of_range {r : Byte} (h : 0x40#8 ≤ r) (h' : r ≤ 0x4F#8) : isRex r = true := by decide +revert

/-- The prefixes the encoder writes, none of which is forbidden. -/
theorem mem_prefixes_bytes {p : Prefixes} {c : Byte} (h : c ∈ p.bytes) :
    c ∈ ([0x26, 0x2E, 0x36, 0x3E, 0x64, 0x65, 0x67] : List Byte) := by
  obtain ⟨g, a⟩ := p
  simp only [Prefixes.bytes, List.mem_append] at h
  rcases h with h | h
  · cases g with
    | none => cases h
    | some g =>
      obtain rfl := List.mem_singleton.mp h
      cases g <;> decide
  · cases a with
    | false => cases h
    | true =>
      obtain rfl := List.mem_singleton.mp h
      decide

theorem overrides_subset : ([0x26, 0x2E, 0x36, 0x3E, 0x64, 0x65, 0x67] : List Byte) ⊆ Machine.legacyPrefixBytes := by decide

theorem lockRep_notMem_prefixes_bytes (p : Prefixes) : ∀ c ∈ ([0xF0, 0xF2, 0xF3] : List Byte), c ∉ p.bytes := by
  have hdisj : ∀ c ∈ ([0xF0, 0xF2, 0xF3] : List Byte), c ∉ ([0x26, 0x2E, 0x36, 0x3E, 0x64, 0x65, 0x67] : List Byte) := by decide
  exact fun c hc h => hdisj c hc (mem_prefixes_bytes h)

theorem addrSize_notMem_prefixes_bytes {p : Prefixes} (hw : p.wf .mode32 = true) : 0x67#8 ∉ p.bytes := by
  obtain ⟨g, a⟩ := p
  obtain rfl : a = false := by simpa [Prefixes.wf] using hw
  cases g with
  | none => simp [Prefixes.bytes]
  | some g => cases g <;> decide

theorem mem_insert_iff {p : Prefixes} {l₁ l₂ : List Byte} (hl : p.bytes = l₁ ++ l₂) (b c : Byte) :
    c ∈ l₁ ++ b :: l₂ ↔ c = b ∨ c ∈ p.bytes := by
  rw [hl, List.mem_append, List.mem_cons, List.mem_append, or_left_comm]

theorem isPrefixByte_insert {m : Mode} {p : Prefixes} {l₁ l₂ : List Byte} (hl : p.bytes = l₁ ++ l₂) {b : Byte}
    (hb : IsPrefixByte m b) : ∀ c ∈ l₁ ++ b :: l₂, IsPrefixByte m c := by
  intro c hc
  rcases (mem_insert_iff hl b c).mp hc with rfl | hc
  · exact hb
  · exact .inl (overrides_subset (mem_prefixes_bytes hc))

theorem addrSize_notMem_insert {m : Mode} {p : Prefixes} (hw : p.wf m = true) {l₁ l₂ : List Byte} (hl : p.bytes = l₁ ++ l₂)
    {b : Byte} (hb : b ≠ 0x67#8) (hm : m = .mode32) : 0x67#8 ∉ l₁ ++ b :: l₂ := by
  subst hm
  rw [mem_insert_iff hl, not_or]
  exact ⟨hb.symm, addrSize_notMem_prefixes_bytes hw⟩

/-- Settles O4: a forbidden byte sets its flag of the scan wherever it stands, the other prefixes set none, and the form is
complete, so the flag decides the answer. -/
theorem forbiddenPrefixes : Obligations.ForbiddenPrefixes := by
  intro m i l₁ l₂ rest hw hl
  have hins (b : Byte) : l₁ ++ b :: (l₂ ++ encodeBody i ++ rest) = l₁ ++ b :: l₂ ++ (encodeBody i ++ rest) := by simp
  have hmem (b : Byte) : b ∈ l₁ ++ b :: l₂ := by simp
  have hbytes {b : Byte} (hb : IsPrefixByte m b) := isPrefixByte_insert hl hb
  have h67 {b : Byte} (hb : b ≠ 0x67#8) := addrSize_notMem_insert (wf_prefixes hw) hl hb
  simp only [hins]
  refine ⟨fun b hb => ?_, fun hf => ?_, fun hf => ?_, fun hm hf r hlo hhi => ?_⟩
  · have hb' : b ∈ Machine.legacyPrefixBytes ∧ b ≠ 0x67#8 := by decide +revert
    refine decode_prefixBytes_ud hw (hbytes (.inl hb'.1)) (h67 hb'.2) rest ?_
    simp only [List.mem_cons, List.not_mem_nil, or_false] at hb
    rcases hb with rfl | rfl | rfl <;> simp
  · refine decode_prefixBytes_shufpd hw (hbytes (.inl (by decide))) (h67 (by decide)) rest hf ?_ (hmem _)
    have hno := lockRep_notMem_prefixes_bytes i.prefixes
    simp [mem_insert_iff hl, hno]
  · exact decode_prefixBytes_ud_of_not_sse hw (hbytes (.inl (by decide))) (h67 (by decide)) rest hf
      (.inr (.inr (.inr (.inl (hmem _)))))
  · have hr := isRex_of_range hlo hhi
    have hne : r ≠ 0x67#8 := by
      rintro rfl
      exact absurd hr (by decide)
    exact decode_prefixBytes_ud_of_not_sse hw (hbytes (.inr ⟨hm, hr⟩)) (h67 hne) rest hf
      (.inr (.inr (.inr (.inr ⟨hm, r, hmem r, hr⟩))))

end Sys2Proof
end

section
/-! SUPPORT. O23, the element that `Select4` returns (40_shufps_sse.md R130). -/

namespace Sys2Proof.Machine

/-- Settles O23: the law `select4_eq` of the slice covers every control, and each arm is the law at that control's number. -/
theorem selectFour : Obligations.SelectFour :=
  ⟨select4_eq, fun src => ⟨select4_eq src 0, select4_eq src 1, select4_eq src 2, select4_eq src 3⟩⟩

end Sys2Proof.Machine
end

section
/-! SUPPORT. O40, masked-off elements and the bits above the vector length of an EVEX form (42_vshufps_evex.md R173, R174). The
destination holds what the masking loop gives for its old value, whichever of the three lengths the form has. -/

namespace Sys2Proof.Machine

theorem kl_le_sixteen (f : Form) : f.kl ≤ 16 := by cases f <;> decide

/-- The masking loop leaves an element that is not written to `z`. -/
theorem masked_elem_off {s : State} {f : Form} {aaa : BitVec 3} {j : Nat} (hj : j < f.kl) (ha : aaa ≠ 0#3)
    (hoff : (s.mask aaa).getLsbD j = false) (z : Bool) (old v : Zmm) :
    elem (s.masked f.kl aaa z old v) j = if z = true then 0#32 else elem old j := by
  have hwrites : s.writes aaa j = false := by simp [State.writes, ha, hoff]
  rw [masked_elem s f.kl aaa z old v j (kl_le_sixteen f) hj, hwrites, if_neg Bool.false_ne_true]

theorem evexOp_vec_dst {f : Form} {p : Prefixes} {dst src1 : BitVec 5} {src2 : RegMemBcst} {aaa : BitVec 3} {z : Bool}
    {imm8 : BitVec 8} {s t : State} (h : evexOp f p dst src1 src2 aaa z imm8 s = .next t) :
    ∃ v, t.vec dst = s.masked f.kl aaa z (s.vec dst) v := by
  obtain ⟨b, -, -, rfl⟩ := evexOp_next h
  exact ⟨shuffle f.lanes (s.vec src1) b imm8, by rw [advance_vec, setVec_vec_same]⟩

/-- Every instruction that has a writemask field ends in the masking loop over its own elements. -/
theorem exec_vec_dst_of_maskFields {i : Instr} {aaa : BitVec 3} {z : Bool} {s t : State} (hi : maskFieldsOf i = some (aaa, z))
    (h : exec i s = .next t) : ∃ v, t.vec (dstOf i) = s.masked i.form.kl aaa z (s.vec (dstOf i)) v := by
  cases i with
  | vshufpsEvex128 p dst src1 src2 aaa z imm8 => cases hi; exact evexOp_vec_dst h
  | vshufpsEvex256 p dst src1 src2 aaa z imm8 => cases hi; exact evexOp_vec_dst h
  | vshufpsEvex512 p dst src1 src2 aaa z imm8 => cases hi; exact evexOp_vec_dst h
  | _ => cases hi

/-- Settles O40: the destination is the masking loop over its old value, which takes an element whose mask bit is 0 from `z`
and the old value alone and builds no bit at or above `VL`. -/
theorem maskedOffElements : Obligations.MaskedOffElements := by
  intro i aaa z s t hi h
  obtain ⟨v, hv⟩ := exec_vec_dst_of_maskFields hi h
  rw [hv]
  exact ⟨fun j hj ha hoff => masked_elem_off hj ha hoff z _ v, fun k hk => masked_getLsbD_above hk s aaa z _ v⟩

end Sys2Proof.Machine
end

section
/-! SUPPORT. Everything the scan of given prefix bytes holds (30_encoding.md R82, R83, R88). -/

namespace Sys2Proof

/-- Besides what a form is judged by, the scan holds the segments in their order, the last byte if it is REX, and whether an earlier
one was (30_encoding.md R82, R88). -/
structure PrefixScan.Reads (m : Mode) (l : List Byte) (s : PrefixScan) : Prop extends PrefixScan.Holds m l s where
  segs : s.segs = l.filterMap segOfByte
  lastRex : s.rex = if m = .mode64 then l.getLast?.filter isRex else none
  stray : s.strayRex = true ↔ m = .mode64 ∧ ∃ r ∈ l.dropLast, isRex r = true

theorem segOfByte_rex {b : Byte} (h : isRex b = true) : segOfByte b = none := by decide +revert

theorem reads_empty (m : Mode) : PrefixScan.empty.Reads m [] where
  toHolds := holds_empty m
  segs := rfl
  lastRex := by simp [PrefixScan.empty]
  stray := by simp [PrefixScan.empty]

/-- After one more byte, a REX byte among the earlier ones is not adjacent to the form any more. -/
theorem leaveRex_stray {m : Mode} {l : List Byte} {s : PrefixScan} (h : s.Reads m l) :
    s.leaveRex.strayRex = true ↔ m = .mode64 ∧ ∃ r ∈ l, isRex r = true := by
  rw [← h.rex]
  simp [PrefixScan.leaveRex]

theorem add_reads {m : Mode} {l : List Byte} {s : PrefixScan} {b : Byte} (h : s.Reads m l) (hb : IsPrefixByte m b) :
    ∃ q, s.add m b = some q ∧ q.Reads m (l ++ [b]) := by
  rcases hb with hb | ⟨hm, hb⟩
  · refine ⟨_, add_legacyPrefix m hb s, holds_legacyPrefix h.toHolds hb (add_legacyPrefix m hb s), ?_, ?_, ?_⟩
    · cases hg : segOfByte b <;> simp [h.segs, hg]
    · simp [PrefixScan.leaveRex, isRex_legacyPrefix hb, Option.filter]
    · simpa using leaveRex_stray h
  · refine ⟨_, add_rex hm hb s, holds_rex h.toHolds hm hb, ?_, ?_, ?_⟩
    · simp [PrefixScan.leaveRex, h.segs, segOfByte_rex hb]
    · simp [hm, hb, Option.filter]
    · simpa using leaveRex_stray h

theorem scanPrefixes_reads {m : Mode} {l : List Byte} (hl : ∀ b ∈ l, IsPrefixByte m b) {l₀ : List Byte} {s : PrefixScan}
    (hs : s.Reads m l₀) : ∃ q, q.Reads m (l₀ ++ l) ∧ ∀ bs, scanPrefixes m s (l ++ bs) = scanPrefixes m q bs := by
  induction l generalizing l₀ s with
  | nil => exact ⟨s, by simpa using hs, fun _ => rfl⟩
  | cons b l ih =>
    obtain ⟨q, hadd, hq⟩ := add_reads hs (hl b List.mem_cons_self)
    obtain ⟨r, hr, hscan⟩ := ih (fun c hc => hl c (List.mem_cons_of_mem b hc)) hq
    refine ⟨r, by simpa using hr, fun bs => ?_⟩
    rw [List.cons_append, scanPrefixes_step m s q b _ hadd, hscan]

/-- Prefix bytes are all scanned, whatever follows them. -/
theorem exists_reads {m : Mode} {l : List Byte} (hl : ∀ b ∈ l, IsPrefixByte m b) :
    ∃ q, q.Reads m l ∧ ∀ bs, scanPrefixes m .empty (l ++ bs) = scanPrefixes m q bs :=
  scanPrefixes_reads hl (reads_empty m)

end Sys2Proof
end

section
/-! SUPPORT. Where an operand ends, what becomes of one that is cut off, and the rules of `withTail`, one per answer (30_encoding.md
R103 to R109). -/

namespace Sys2Proof

/-! ### Where an operand ends (30_encoding.md R103 to R108) -/

theorem low3_append (b : BitVec 1) (rm : BitVec 3) : low3 (b ++ rm) = rm := by decide +revert

theorem takeDisp32_length {bs r : List Byte} {d : BitVec 32} (h : takeDisp32 bs = some (d, r)) : bs.length = 4 + r.length := by
  rcases bs with _ | ⟨b0, _ | ⟨b1, _ | ⟨b2, _ | ⟨b3, bs⟩⟩⟩⟩ <;> simp [takeDisp32] at h
  obtain ⟨-, rfl⟩ := h
  simp only [List.length_cons]
  omega

/-- A displacement that is read has its length, and is absent only for `mod = 00`. -/
theorem takeDisp_some {md : BitVec 2} {bs r : List Byte} {d : Disp} (h : takeDisp md bs = some (d, r)) :
    bs.length = d.length + r.length ∧ (d = .absent → md = 0#2) := by
  unfold takeDisp at h
  split at h
  · next h0 =>
    cases h
    exact ⟨(Nat.zero_add _).symm, fun _ => h0⟩
  · split at h
    · cases bs with
      | nil => cases h
      | cons b bs =>
        cases h
        exact ⟨by simp [Disp.length, Nat.add_comm], fun hd => by cases hd⟩
    · split at h
      · next hd =>
        cases h
        exact ⟨takeDisp32_length hd, fun hd => by cases hd⟩
      · cases h

theorem decodeSib_some {md : BitVec 2} {x b : BitVec 1} {sib : Byte} {bs r : List Byte} {f : MemForm}
    (h : decodeSib md x b sib bs = some (f, r)) : f.wf = true ∧ 1 + bs.length = f.length + r.length := by
  unfold decodeSib at h
  split at h
  · split at h
    · next hd =>
      cases h
      exact ⟨rfl, by rw [takeDisp32_length hd, MemForm.length]; omega⟩
    · cases h
  · next hesc =>
    split at h
    · next hd =>
      cases h
      obtain ⟨hlen, habs⟩ := takeDisp_some hd
      refine ⟨?_, by rw [hlen, MemForm.length]; omega⟩
      simp only [MemForm.wf, low3_append, Bool.or_eq_true, bne_iff_ne, ne_eq]
      exact Classical.not_and_iff_not_or_not.mp fun ⟨h0, h5⟩ => hesc ⟨h5, habs h0⟩
    · cases h

theorem decodeMem_some {md : BitVec 2} {rm : BitVec 3} {x b : BitVec 1} {bs r : List Byte} {f : MemForm}
    (h : decodeMem md rm x b bs = some (f, r)) : f.wf = true ∧ bs.length = f.length + r.length := by
  unfold decodeMem at h
  split at h
  · cases bs with
    | nil => cases h
    | cons sib bs =>
      obtain ⟨hw, hlen⟩ := decodeSib_some h
      exact ⟨hw, by rw [← hlen, List.length_cons, Nat.add_comm]⟩
  · next hsib =>
    split at h
    · split at h
      · next hd =>
        cases h
        exact ⟨rfl, takeDisp32_length hd⟩
      · cases h
    · next hesc =>
      split at h
      · next hd =>
        cases h
        obtain ⟨hlen, habs⟩ := takeDisp_some hd
        refine ⟨?_, hlen⟩
        simp only [MemForm.wf, low3_append, Bool.and_eq_true, Bool.or_eq_true, bne_iff_ne, ne_eq]
        exact ⟨hsib, Classical.not_and_iff_not_or_not.mp fun ⟨h0, h5⟩ => hesc ⟨h5, habs h0⟩⟩
      · cases h

/-- The memory form of an `r/m` operand is encodable. -/
def TailRM.wf : TailRM → Bool
  | .reg _ => true
  | .mem f => f.wf

/-- `S + D` of an `r/m` operand. -/
def TailRM.length : TailRM → Nat
  | .reg _ => 0
  | .mem f => f.length

/-- What is read after the opcode is an encodable operand of its length: `ModRM + S + D + imm8` (30_encoding.md R108). -/
theorem decodeTail_some {x b : BitVec 1} {bs : List Byte} {t : Tail} (h : decodeTail x b bs = some t) :
    t.rm.wf = true ∧ bs.length = 2 + t.rm.length + t.rest.length := by
  rcases bs with _ | ⟨modrm, bs⟩
  · cases h
  · simp only [decodeTail] at h
    split at h
    · cases bs with
      | nil => cases h
      | cons imm8 r =>
        cases h
        exact ⟨rfl, by simp only [List.length_cons, TailRM.length]; omega⟩
    · split at h
      · next hm =>
        cases h
        obtain ⟨hw, hlen⟩ := decodeMem_some hm
        rw [List.length_cons] at hlen
        exact ⟨hw, by simp only [List.length_cons, TailRM.length]; omega⟩
      · cases h
      · cases h

/-- With two bytes to spare the 16-bit table finds an end, and the same kind of operand. -/
theorem decodeTail16_of_decodeTail {x b : BitVec 1} {bs : List Byte} {t : Tail} (h : decodeTail x b bs = some t)
    (h2 : 2 ≤ t.rest.length) : decodeTail16 bs = some t.rm.isReg := by
  obtain ⟨-, hlen⟩ := decodeTail_some h
  rcases bs with _ | ⟨modrm, bs⟩
  · cases h
  · have hdisp : disp16Length (modrm.extractLsb' 6 2) (modrm.extractLsb' 0 3) ≤ 2 := by
      unfold disp16Length
      split
      · split <;> decide
      · split <;> decide
    rw [List.length_cons] at hlen
    simp only [decodeTail] at h
    split at h
    · next hreg =>
      cases bs with
      | nil => cases h
      | cons imm8 r =>
        cases h
        simp [decodeTail16, hreg, TailRM.isReg]
    · next hmem =>
      split at h
      · cases h
        simp only [decodeTail16, if_neg hmem, TailRM.isReg]
        exact if_pos (by omega)
      · cases h
      · cases h

/-! ### An operand that is cut off -/

theorem takeDisp32_append {bs r : List Byte} {d : BitVec 32} (h : takeDisp32 bs = some (d, r)) (l : List Byte) :
    takeDisp32 (bs ++ l) = some (d, r ++ l) := by
  rcases bs with _ | ⟨b0, _ | ⟨b1, _ | ⟨b2, _ | ⟨b3, bs⟩⟩⟩⟩ <;> simp [takeDisp32] at h
  obtain ⟨rfl, rfl⟩ := h
  rfl

theorem takeDisp_append {md : BitVec 2} {bs r : List Byte} {d : Disp} (h : takeDisp md bs = some (d, r)) (l : List Byte) :
    takeDisp md (bs ++ l) = some (d, r ++ l) := by
  unfold takeDisp at h ⊢
  split at h
  · next h0 => cases h; simp [h0]
  · next h0 =>
    split at h
    · next h1 =>
      cases bs with
      | nil => cases h
      | cons b bs => cases h; simp [h1]
    · next h1 =>
      split at h
      · next hd => cases h; simp [h0, h1, takeDisp32_append hd]
      · cases h

theorem decodeSib_append {md : BitVec 2} {x b : BitVec 1} {sib : Byte} {bs r : List Byte} {f : MemForm}
    (h : decodeSib md x b sib bs = some (f, r)) (l : List Byte) : decodeSib md x b sib (bs ++ l) = some (f, r ++ l) := by
  unfold decodeSib at h ⊢
  split at h
  · next hesc =>
    split at h
    · next hd => cases h; simp [hesc, takeDisp32_append hd]
    · cases h
  · next hesc =>
    split at h
    · next hd => cases h; simp [hesc, takeDisp_append hd]
    · cases h

theorem decodeMem_append {md : BitVec 2} {rm : BitVec 3} {x b : BitVec 1} {bs r : List Byte} {f : MemForm}
    (h : decodeMem md rm x b bs = some (f, r)) (l : List Byte) : decodeMem md rm x b (bs ++ l) = some (f, r ++ l) := by
  unfold decodeMem at h ⊢
  split at h
  · next hsib =>
    cases bs with
    | nil => cases h
    | cons sib bs => simpa [hsib] using decodeSib_append h l
  · next hsib =>
    split at h
    · next hesc =>
      split at h
      · next hd => cases h; simp [hesc, takeDisp32_append hd]
      · cases h
    · next hesc =>
      split at h
      · next hd => cases h; simp [hsib, hesc, takeDisp_append hd]
      · cases h

/-- More bytes after an operand that is read stand behind it. -/
theorem decodeTail_append {x b : BitVec 1} {bs : List Byte} {t : Tail} (h : decodeTail x b bs = some t) (l : List Byte) :
    decodeTail x b (bs ++ l) = some { t with rest := t.rest ++ l } := by
  rcases bs with _ | ⟨modrm, bs⟩
  · cases h
  · simp only [decodeTail] at h
    split at h
    · next hreg =>
      cases bs with
      | nil => cases h
      | cons imm8 r => cases h; simp [decodeTail, hreg]
    · next hmem =>
      split at h
      · next hm => cases h; simp [decodeTail, hmem, decodeMem_append hm]
      · cases h
      · cases h

/-- An operand that ends with its bytes is not read from fewer of them. -/
theorem decodeTail_eq_none_of_prefix {x b : BitVec 1} {bs c : List Byte} {t : Tail} (h : decodeTail x b bs = some t)
    (hrest : t.rest = []) (hc : c <+: bs) (hne : c ≠ bs) : decodeTail x b c = none := by
  obtain ⟨l, rfl⟩ := hc
  cases hu : decodeTail x b c with
  | none => rfl
  | some u =>
    rw [decodeTail_append hu l] at h
    cases h
    obtain ⟨-, rfl⟩ := List.append_eq_nil_iff.mp hrest
    exact absurd (List.append_nil c).symm hne

/-- Other extension bits read an operand of the same kind to the same end. -/
theorem decodeTail_as {x' b' : BitVec 1} {bs : List Byte} {t : Tail} (h : decodeTail x' b' bs = some t) (x b : BitVec 1) :
    ∃ u, decodeTail x b bs = some u ∧ u.rm.isReg = t.rm.isReg ∧ u.rest = t.rest := by
  obtain ⟨u, hu⟩ := Option.isSome_iff_exists.mp (decodeTail_isSome_of (x := x) (b := b) h)
  have hcongr := decodeTail_congr x b x' b' bs
  rw [hu, h] at hcongr
  obtain ⟨hreg, hrest⟩ := Prod.mk.inj (Option.some.inj hcongr)
  exact ⟨u, hu, hreg, hrest⟩

/-! ### The rules of `withTail` -/

section
variable {m : Mode} {p : PrefixScan} {x b : BitVec 1} {bs : List Byte} (k : Prefixes → Tail → Decoded)

theorem withTail_address16 (ha : m = .mode32 ∧ p.addrSizes ≠ 0) (ud : Bool → Bool) (ref : Option DecodeRefusal) {r : Bool}
    (hr : decodeTail16 bs = some r) :
    withTail m p ud ref x b bs k = if ud r = true then .ud else .refused .address16 := by
  simp only [withTail, if_pos ha, hr]

variable (ha : ¬ (m = .mode32 ∧ p.addrSizes ≠ 0))
include ha

theorem withTail_truncated (ud : Bool → Bool) (ref : Option DecodeRefusal) (h : decodeTail x b bs = none) :
    withTail m p ud ref x b bs k = .truncated := by
  simp only [withTail, if_neg ha, h]

theorem withTail_judged {t : Tail} (ht : decodeTail x b bs = some t) {ud : Bool → Bool} (ref : Option DecodeRefusal)
    (hud : ud t.rm.isReg = true) : withTail m p ud ref x b bs k = .ud := by
  simp only [withTail, if_neg ha, ht, hud, if_true]

variable {t : Tail} (ht : decodeTail x b bs = some t) {ud : Bool → Bool} (hud : ud t.rm.isReg = false)
include ht hud

theorem withTail_spelling (r : DecodeRefusal) : withTail m p ud (some r) x b bs k = .refused r := by
  simp only [withTail, if_neg ha, ht, hud, Bool.false_eq_true, if_false]

theorem withTail_repeated (hp : p.accept = none) : withTail m p ud none x b bs k = .refused .repeatedPrefix := by
  simp only [withTail, if_neg ha, ht, hud, Bool.false_eq_true, if_false, hp]

theorem withTail_accepted {q : Prefixes} (hp : p.accept = some q) : withTail m p ud none x b bs k = k q t := by
  simp only [withTail, if_neg ha, ht, hud, Bool.false_eq_true, if_false, hp]

end

end Sys2Proof
end

section
/-! SUPPORT. One reading for every row: the header and operand bytes of a well-formed instruction, and what the decoder makes of
them (30_encoding.md R87 to R102). -/

namespace Sys2Proof

/-! ### The operand and the header bits read back -/

theorem memForm_b_of_isLow {f : MemForm} (h : f.isLow = true) : f.b = 0#1 := by
  cases f with
  | base b d => exact ext4_of_isLow4 h
  | sib sc i b d => exact ext4_of_isLow4 (Bool.and_eq_true_iff.mp h).2
  | sibNoBase sc i d => rfl
  | dispOnly d => rfl

theorem regMem_b_of_isLow {src2 : RegMem} (h : src2.isLow = true) : src2.b = 0#1 := by
  cases src2 with
  | reg r => exact ext4_of_isLow4 h
  | mem f => exact memForm_b_of_isLow h

theorem regMemBcst_b_of_isLow {src2 : RegMemBcst} (h : src2.isLow = true) : src2.b = 0#1 := by
  cases src2 with
  | reg r => exact bit3_of_isLow5 h
  | mem f => exact memForm_b_of_isLow h
  | bcst f => exact memForm_b_of_isLow h

/-- What the ModRM and SIB bytes of a legacy or VEX operand are read as. -/
def RegMem.tailRM : RegMem → TailRM
  | .reg r => .reg (low3 r)
  | .mem f => .mem f

/-- What the ModRM and SIB bytes of an EVEX operand are read as. -/
def RegMemBcst.tailRM : RegMemBcst → TailRM
  | .reg r => .reg (r.extractLsb' 0 3)
  | .mem f => .mem f
  | .bcst f => .mem f

theorem decodeTail_regMem {src2 : RegMem} (hw : src2.wf = true) (reg : BitVec 3) (imm8 : Byte) (rest : List Byte) :
    decodeTail src2.x src2.b (src2.bytes reg ++ imm8 :: rest) = some ⟨reg, src2.tailRM, imm8, rest⟩ := by
  cases src2 with
  | reg r => exact decodeTail_reg _ _ reg _ imm8 rest
  | mem f => exact decodeTail_memForm reg hw imm8 rest

theorem decodeTail_regMemBcst {src2 : RegMemBcst} (hw : src2.wf = true) (reg : BitVec 3) (imm8 : Byte) (rest : List Byte) :
    decodeTail src2.x src2.b (src2.bytes reg ++ imm8 :: rest) = some ⟨reg, src2.tailRM, imm8, rest⟩ := by
  cases src2 with
  | reg r => exact decodeTail_reg _ _ reg _ imm8 rest
  | mem f => exact decodeTail_memForm reg hw imm8 rest
  | bcst f => exact decodeTail_memForm reg hw imm8 rest

theorem toRegMem_tailRM (src2 : RegMem) : src2.tailRM.toRegMem src2.b = src2 := by
  cases src2 with
  | reg r => exact congrArg RegMem.reg (ext4_append_low3 r)
  | mem f => rfl

theorem bits_append (r : BitVec 5) : r.extractLsb' 4 1 ++ r.extractLsb' 3 1 ++ r.extractLsb' 0 3 = r := by decide +revert

theorem toRegMemBcst_tailRM (src2 : RegMemBcst) : src2.tailRM.toRegMemBcst src2.x src2.b (src2.bc == 1#1) = src2 := by
  cases src2 with
  | reg r => exact congrArg RegMemBcst.reg (bits_append r)
  | mem f => rfl
  | bcst f => rfl

/-- `EVEX.b` is 0 with a register. -/
theorem bc_of_isReg (src2 : RegMemBcst) : (src2.tailRM.isReg && src2.bc == 1#1) = false := by cases src2 <;> rfl

theorem vexC5_fields (r l : BitVec 1) (v : BitVec 4) :
    let b : Byte := ~~~r ++ ~~~v ++ l ++ 0#2
    ~~~(b.extractLsb' 7 1) = r ∧ ~~~(b.extractLsb' 3 4) = v ∧ b.extractLsb' 2 1 = l ∧ b.extractLsb' 0 2 = 0#2 := by
  decide +revert

theorem vexC4_fields₁ (r x b : BitVec 1) :
    let c : Byte := ~~~r ++ ~~~x ++ ~~~b ++ 1#5
    ~~~(c.extractLsb' 7 1) = r ∧ ~~~(c.extractLsb' 6 1) = x ∧ ~~~(c.extractLsb' 5 1) = b ∧ c.extractLsb' 0 5 = 1#5 := by
  decide +revert

theorem vexC4_fields₂ (w : Bool) (v : BitVec 4) (l : BitVec 1) :
    let c : Byte := BitVec.ofBool w ++ ~~~v ++ l ++ 0#2
    (c.extractLsb' 7 1 == 1#1) = w ∧ ~~~(c.extractLsb' 3 4) = v ∧ c.extractLsb' 2 1 = l ∧ c.extractLsb' 0 2 = 0#2 := by
  decide +revert

theorem evex_fields₀ (r x b r' : BitVec 1) :
    let c : Byte := ~~~r ++ ~~~x ++ ~~~b ++ ~~~r' ++ 0#2 ++ 1#2
    ~~~(c.extractLsb' 7 1) = r ∧ ~~~(c.extractLsb' 6 1) = x ∧ ~~~(c.extractLsb' 5 1) = b ∧ ~~~(c.extractLsb' 4 1) = r' ∧
      c.extractLsb' 2 2 = 0#2 ∧ c.extractLsb' 0 2 = 1#2 := by
  decide +revert

theorem evex_fields₁ (v : BitVec 4) :
    let c : Byte := 0#1 ++ ~~~v ++ 1#1 ++ 0#2
    c.extractLsb' 7 1 = 0#1 ∧ ~~~(c.extractLsb' 3 4) = v ∧ c.extractLsb' 2 1 = 1#1 ∧ c.extractLsb' 0 2 = 0#2 := by
  decide +revert

theorem evex_fields₂ (z : Bool) (ll : BitVec 2) (bc v' : BitVec 1) (aaa : BitVec 3) :
    let c : Byte := BitVec.ofBool z ++ ll ++ bc ++ ~~~v' ++ aaa
    (c.extractLsb' 7 1 == 1#1) = z ∧ c.extractLsb' 5 2 = ll ∧ c.extractLsb' 4 1 = bc ∧ ~~~(c.extractLsb' 3 1) = v' ∧
      c.extractLsb' 0 3 = aaa := by
  decide +revert

theorem vex4_append (r : BitVec 5) : r.extractLsb' 4 1 ++ r.extractLsb' 0 4 = r := by decide +revert

theorem rexByte_fields (w : Bool) (r x b : BitVec 1) :
    let c : Byte := 4#4 ++ BitVec.ofBool w ++ r ++ x ++ b
    (c.extractLsb' 3 1 == 1#1) = w ∧ c.extractLsb' 2 1 = r ∧ c.extractLsb' 1 1 = x ∧ c.extractLsb' 0 1 = b := by
  decide +revert

/-! ### One reading for every row -/

/-- The prefixes that make a form of this kind #UD (30_encoding.md R83). -/
def PrefixScan.forbids (p : PrefixScan) (f : Form) : Bool := if f = .sse then p.udLegacy else p.udVex

/-- The refusal of a form's own spelling by its prefixes (30_encoding.md R83, R88). -/
def PrefixScan.misspelt (p : PrefixScan) (f : Form) : Option DecodeRefusal := if f = .sse then p.refusedLegacy else none

/-- The first byte of a form after all its prefixes (30_encoding.md R114 (2)). -/
def formBytes : List Byte := [0x0F, 0xC4, 0xC5, 0x62]

/-- How the decoder reads the body of an instruction: after the REX byte, if any, a header up to the opcode, which selects the form
and its `ud` conditions, and an operand, which `give` turns into the instruction. -/
structure Reading (m : Mode) (i : Instr) where
  rex : Option Byte
  header : List Byte
  operand : List Byte
  tail : Tail
  ud : PrefixScan → Bool → Bool
  x : PrefixScan → BitVec 1
  b : PrefixScan → BitVec 1
  give : PrefixScan → Prefixes → Tail → Decoded
  body : encodeBody i = rex.toList ++ (header ++ operand)
  rex_isRex : ∀ r ∈ rex, m = .mode64 ∧ isRex r = true
  rex_sse : i.form ≠ .sse → rex = none
  header_head : ∃ c ∈ formBytes, ∃ bs, header = c :: bs
  header_short : ∀ p c, c <+: header → c ≠ header → decodeFamily m p c = .truncated
  decodes : ∀ p bs, decodeFamily m p (header ++ bs) = withTail m p (ud p) (p.misspelt i.form) (x p) (b p) bs (give p)
  ud_eq : ∀ p, ud p tail.rm.isReg = p.forbids i.form
  ud_of_forbids : ∀ p, p.forbids i.form = true → ∀ r, ud p r = true
  tail_rest : tail.rest = []
  operand_read : ∀ p, p.rex = rex → decodeTail (x p) (b p) operand = some tail
  gives : ∀ p, p.rex = rex → ∀ rest, give p i.prefixes { tail with rest := rest } = .ok i rest

/-! #### The legacy form -/

theorem rexBit_rexBytes {m : Mode} {q : Prefixes} {rex : Option Bool} {dst : BitVec 4} {src2 : RegMem}
    (hw : wfLegacy m q rex dst src2 = true) :
    (rexBytes rex dst src2).head?.map (fun v => v.extractLsb' 3 1 == 1#1) = rex ∧
      rexBit (rexBytes rex dst src2).head? 2 = ext4 dst ∧ rexBit (rexBytes rex dst src2).head? 1 = src2.x ∧
      rexBit (rexBytes rex dst src2).head? 0 = src2.b := by
  cases rex with
  | none =>
    obtain ⟨hd, hs⟩ := Bool.and_eq_true_iff.mp (Bool.and_eq_true_iff.mp hw).2
    exact ⟨rfl, (ext4_of_isLow4 hd).symm, (regMem_x_of_isLow hs).symm, (regMem_b_of_isLow hs).symm⟩
  | some w =>
    obtain ⟨h3, h2, h1, h0⟩ := rexByte_fields w (ext4 dst) src2.x src2.b
    exact ⟨congrArg some h3, h2, h1, h0⟩

def Reading.shufps {m : Mode} {q : Prefixes} {rex : Option Bool} {dst : BitVec 4} {src2 : RegMem} (imm8 : Byte)
    (hw : wfLegacy m q rex dst src2 = true) : Reading m (.shufps q rex dst src2 imm8) where
  rex := (rexBytes rex dst src2).head?
  header := [0x0F, 0xC6]
  operand := src2.bytes (low3 dst) ++ [imm8]
  tail := ⟨low3 dst, src2.tailRM, imm8, []⟩
  ud := fun p _ => p.udLegacy
  x := fun p => rexBit p.rex 1
  b := fun p => rexBit p.rex 0
  give := fun p q t => .ok (.shufps q (p.rex.map fun v => v.extractLsb' 3 1 == 1#1) (rexBit p.rex 2 ++ t.reg)
    (t.rm.toRegMem (rexBit p.rex 0)) t.imm8) t.rest
  body := by cases rex <;> simp [encodeBody, opcodeBytes, rexBytes]
  rex_isRex := fun r hr => by
    cases rex with
    | none => cases hr
    | some w => exact ⟨of_decide_eq_true (Bool.and_eq_true_iff.mp hw).2, isRex_rexBytes (List.mem_of_mem_head? hr)⟩
  rex_sse := fun h => absurd rfl h
  header_head := ⟨0x0F, by decide, _, rfl⟩
  header_short := fun p c hc hne => by
    simp only [List.prefix_cons_iff, List.prefix_nil] at hc
    rcases hc with rfl | ⟨_, rfl, rfl | ⟨_, rfl, rfl⟩⟩
    · rfl
    · rfl
    · exact absurd rfl hne
  decodes := fun p bs => rfl
  ud_eq := fun p => rfl
  ud_of_forbids := fun p h _ => h
  tail_rest := rfl
  operand_read := fun p hp => by
    obtain ⟨-, -, h1, h0⟩ := rexBit_rexBytes hw
    have hsrc : src2.wf = true := (Bool.and_eq_true_iff.mp (Bool.and_eq_true_iff.mp hw).1).2
    rw [hp, h1, h0, decodeTail_regMem hsrc]
  gives := fun p hp rest => by
    obtain ⟨h3, h2, -, h0⟩ := rexBit_rexBytes hw
    rw [hp, h3, h2, h0, toRegMem_tailRM, ext4_append_low3]
    rfl

/-! #### The VEX and EVEX forms -/

theorem forbids_of_not_sse {f : Form} (hf : f ≠ .sse) (p : PrefixScan) : p.forbids f = p.udVex := if_neg hf

theorem misspelt_of_not_sse {f : Form} (hf : f ≠ .sse) (p : PrefixScan) : p.misspelt f = none := if_neg hf

theorem vexC5_short {m : Mode} {p : PrefixScan} {b1 : Byte} (hb : ∀ bs, vexMarked m (b1 :: bs) = true) {c : List Byte}
    (hc : c <+: [0xC5#8, b1, 0xC6#8]) (hne : c ≠ [0xC5#8, b1, 0xC6#8]) : decodeFamily m p c = .truncated := by
  simp only [List.prefix_cons_iff, List.prefix_nil] at hc
  rcases hc with rfl | ⟨_, rfl, rfl | ⟨_, rfl, rfl | ⟨_, rfl, rfl⟩⟩⟩
  · rfl
  · rfl
  · exact decodeFamily_vexC5 p [] (hb [])
  · exact absurd rfl hne

theorem vexC4_short {m : Mode} {p : PrefixScan} {b1 b2 : Byte} (hb : ∀ bs, vexMarked m (b1 :: bs) = true) {c : List Byte}
    (hc : c <+: [0xC4#8, b1, b2, 0xC6#8]) (hne : c ≠ [0xC4#8, b1, b2, 0xC6#8]) : decodeFamily m p c = .truncated := by
  simp only [List.prefix_cons_iff, List.prefix_nil] at hc
  rcases hc with rfl | ⟨_, rfl, rfl | ⟨_, rfl, rfl | ⟨_, rfl, rfl | ⟨_, rfl, rfl⟩⟩⟩⟩
  · rfl
  · rfl
  · exact decodeFamily_vexC4 p [] (hb [])
  · exact decodeFamily_vexC4 p [b2] (hb [b2])
  · exact absurd rfl hne

theorem evex_short {m : Mode} {p : PrefixScan} {p0 p1 p2 : Byte} (hb : ∀ bs, vexMarked m (p0 :: bs) = true) {c : List Byte}
    (hc : c <+: [0x62#8, p0, p1, p2, 0xC6#8]) (hne : c ≠ [0x62#8, p0, p1, p2, 0xC6#8]) : decodeFamily m p c = .truncated := by
  simp only [List.prefix_cons_iff, List.prefix_nil] at hc
  rcases hc with rfl | ⟨_, rfl, rfl | ⟨_, rfl, rfl | ⟨_, rfl, rfl | ⟨_, rfl, rfl | ⟨_, rfl, rfl⟩⟩⟩⟩⟩
  · rfl
  · rfl
  · exact decodeFamily_evex p [] (hb [])
  · exact decodeFamily_evex p [p1] (hb [p1])
  · exact decodeFamily_evex p [p1, p2] (hb [p1, p2])
  · exact absurd rfl hne

/-- The byte after C5H marks a VEX prefix in the mode of a well-formed instruction. -/
theorem vexC5_marked {m : Mode} {q : Prefixes} {dst src1 : BitVec 4} {src2 : RegMem} (hw : wfVexC5 m q dst src1 src2 = true)
    (l : BitVec 1) (bs : List Byte) : vexMarked m ((~~~(ext4 dst) ++ ~~~src1 ++ l ++ 0#2) :: bs) = true := by
  simp only [wfVexC5, Bool.and_eq_true, Bool.or_eq_true, decide_eq_true_eq] at hw
  exact vexMarked_of bs (hw.2.imp_right fun h => vexC5_top l h.1 h.2)

theorem decodeVexFields_zero (m : Mode) (p : PrefixScan) (ref : Option DecodeRefusal) (r x b : BitVec 1) (vvvv : BitVec 4)
    (l : BitVec 1) (mk128 mk256 : Prefixes → BitVec 4 → BitVec 4 → RegMem → BitVec 8 → Instr) (bs : List Byte) :
    decodeVexFields m p ref r x b vvvv l 0#2 mk128 mk256 bs =
      withTail m p (fun _ => p.udVex) ref x b bs fun q t =>
        .ok ((if l = 0#1 then mk128 else mk256) q (r ++ t.reg) vvvv (t.rm.toRegMem b) t.imm8) t.rest := by
  simp only [decodeVexFields, if_neg (show ¬ 0#2 = 1#2 by decide), bne_self_eq_false, Bool.or_false]
  congr 1
  funext q t
  split <;> rfl

theorem decodeFamily_vexC5Header {m : Mode} (p : PrefixScan) {q : Prefixes} {dst src1 : BitVec 4} {src2 : RegMem}
    (hw : wfVexC5 m q dst src1 src2 = true) (l : BitVec 1) (bs : List Byte) :
    decodeFamily m p (0xC5#8 :: (~~~(ext4 dst) ++ ~~~src1 ++ l ++ 0#2) :: 0xC6#8 :: bs) =
      withTail m p (fun _ => p.udVex) none 0#1 0#1 bs fun q t =>
        .ok ((if l = 0#1 then Instr.vshufpsVex128C5 else .vshufpsVex256C5) q (ext4 dst ++ t.reg) src1 (t.rm.toRegMem 0#1) t.imm8)
          t.rest := by
  obtain ⟨hr, hv, hl, hpp⟩ := vexC5_fields (ext4 dst) l src1
  rw [decodeFamily_vexC5 p _ (vexC5_marked hw l _), decodeVexC5, if_neg (by decide), hr, hv, hl, hpp, decodeVexFields_zero]

/-- A two-byte VEX row, by the row its `L` selects. -/
def Reading.vexC5 {m : Mode} {q : Prefixes} {dst src1 : BitVec 4} {src2 : RegMem} {imm8 : Byte} (l : BitVec 1) {i : Instr}
    (hi : (if l = 0#1 then Instr.vshufpsVex128C5 else .vshufpsVex256C5) q dst src1 src2 imm8 = i) (hf : i.form ≠ .sse)
    (hq : i.prefixes = q) (hbody : encodeBody i = vexC5Bytes l dst src1 ++ opcodeBytes dst src2 imm8)
    (hw : wfVexC5 m q dst src1 src2 = true) : Reading m i where
  rex := none
  header := [0xC5#8, ~~~(ext4 dst) ++ ~~~src1 ++ l ++ 0#2, 0xC6#8]
  operand := src2.bytes (low3 dst) ++ [imm8]
  tail := ⟨low3 dst, src2.tailRM, imm8, []⟩
  ud := fun p _ => p.udVex
  x := fun _ => 0#1
  b := fun _ => 0#1
  give := fun _ q t => .ok ((if l = 0#1 then Instr.vshufpsVex128C5 else .vshufpsVex256C5) q (ext4 dst ++ t.reg) src1
    (t.rm.toRegMem 0#1) t.imm8) t.rest
  body := by rw [hbody]; rfl
  rex_isRex := fun _ h => by cases h
  rex_sse := fun _ => rfl
  header_head := ⟨0xC5, by decide, _, rfl⟩
  header_short := fun _ _ hc hne => vexC5_short (vexC5_marked hw l) hc hne
  decodes := fun p bs => by rw [misspelt_of_not_sse hf]; exact decodeFamily_vexC5Header p hw l bs
  ud_eq := fun p => (forbids_of_not_sse hf p).symm
  ud_of_forbids := fun p h _ => by rwa [forbids_of_not_sse hf] at h
  tail_rest := rfl
  operand_read := fun _ _ => by
    simp only [wfVexC5, Bool.and_eq_true] at hw
    obtain ⟨⟨⟨-, hsrc⟩, hlow⟩, -⟩ := hw
    have h := decodeTail_regMem hsrc (low3 dst) imm8 []
    rwa [regMem_x_of_isLow hlow, regMem_b_of_isLow hlow] at h
  gives := fun _ _ rest => by
    simp only [wfVexC5, Bool.and_eq_true] at hw
    obtain ⟨⟨⟨-, -⟩, hlow⟩, -⟩ := hw
    have hsrc := toRegMem_tailRM src2
    rw [regMem_b_of_isLow hlow] at hsrc
    simp only [hq, hsrc, ext4_append_low3, hi]

/-- The byte after C4H marks a VEX prefix in the mode of a well-formed instruction. -/
theorem vexC4_marked {m : Mode} {q : Prefixes} {dst src1 : BitVec 4} {src2 : RegMem} (hw : wfVexC4 m q dst src1 src2 = true)
    (bs : List Byte) : vexMarked m ((~~~(ext4 dst) ++ ~~~src2.x ++ ~~~src2.b ++ 1#5) :: bs) = true := by
  simp only [wfVexC4, Bool.and_eq_true, Bool.or_eq_true, decide_eq_true_eq] at hw
  refine vexMarked_of bs (hw.2.imp_right fun ⟨⟨hd, _⟩, hs⟩ => ?_)
  rw [ext4_of_isLow4 hd, regMem_x_of_isLow hs]
  generalize src2.b = b
  decide +revert

theorem vexC4_vvvvTop (w : Bool) {v : BitVec 4} (l : BitVec 1) (h : isLow4 v = true) :
    (BitVec.ofBool w ++ ~~~v ++ l ++ 0#2 : Byte).extractLsb' 6 1 = 1#1 := by decide +revert

theorem vexC4_bTop (r x : BitVec 1) : (~~~r ++ ~~~x ++ ~~~0#1 ++ 1#5 : Byte).extractLsb' 5 1 = 1#1 := by decide +revert

/-- A well-formed instruction relies on no ignored bit (30_encoding.md R95). -/
theorem ignoredVexC4_eq_none {m : Mode} {q : Prefixes} {dst src1 : BitVec 4} {src2 : RegMem}
    (hw : wfVexC4 m q dst src1 src2 = true) (w : Bool) (l : BitVec 1) :
    ignoredVexC4 m (~~~(ext4 dst) ++ ~~~src2.x ++ ~~~src2.b ++ 1#5) (BitVec.ofBool w ++ ~~~src1 ++ l ++ 0#2) = none := by
  simp only [wfVexC4, Bool.and_eq_true, Bool.or_eq_true, decide_eq_true_eq] at hw
  refine if_neg fun ⟨hm, h⟩ => ?_
  obtain ⟨⟨-, hs1⟩, hs2⟩ := hw.2.resolve_left (by simp [hm])
  rw [regMem_b_of_isLow hs2, vexC4_bTop, vexC4_vvvvTop w l hs1] at h
  simp at h

theorem decodeFamily_vexC4Header {m : Mode} (p : PrefixScan) {q : Prefixes} {dst src1 : BitVec 4} {src2 : RegMem}
    (hw : wfVexC4 m q dst src1 src2 = true) (w : Bool) (l : BitVec 1) (bs : List Byte) :
    decodeFamily m p (0xC4#8 :: (~~~(ext4 dst) ++ ~~~src2.x ++ ~~~src2.b ++ 1#5) ::
        (BitVec.ofBool w ++ ~~~src1 ++ l ++ 0#2) :: 0xC6#8 :: bs) =
      withTail m p (fun _ => p.udVex) none src2.x src2.b bs fun q t =>
        .ok ((if l = 0#1 then (Instr.vshufpsVex128C4 · w) else (Instr.vshufpsVex256C4 · w)) q (ext4 dst ++ t.reg) src1
          (t.rm.toRegMem src2.b) t.imm8) t.rest := by
  obtain ⟨hr, hx, hb, hmap⟩ := vexC4_fields₁ (ext4 dst) src2.x src2.b
  obtain ⟨hwb, hv, hl, hpp⟩ := vexC4_fields₂ w src1 l
  rw [decodeFamily_vexC4 p _ (vexC4_marked hw _), decodeVexC4, if_neg (by simp [hmap]), ignoredVexC4_eq_none hw, hr, hx, hb, hwb,
    hv, hl, hpp, decodeVexFields_zero]

/-- A three-byte VEX row, by the row its `L` selects. -/
def Reading.vexC4 {m : Mode} {q : Prefixes} {dst src1 : BitVec 4} {src2 : RegMem} {imm8 : Byte} (w : Bool) (l : BitVec 1)
    {i : Instr} (hi : (if l = 0#1 then (Instr.vshufpsVex128C4 · w) else (Instr.vshufpsVex256C4 · w)) q dst src1 src2 imm8 = i)
    (hf : i.form ≠ .sse) (hq : i.prefixes = q)
    (hbody : encodeBody i = vexC4Bytes w l dst src1 src2 ++ opcodeBytes dst src2 imm8)
    (hw : wfVexC4 m q dst src1 src2 = true) : Reading m i where
  rex := none
  header := [0xC4#8, ~~~(ext4 dst) ++ ~~~src2.x ++ ~~~src2.b ++ 1#5, BitVec.ofBool w ++ ~~~src1 ++ l ++ 0#2, 0xC6#8]
  operand := src2.bytes (low3 dst) ++ [imm8]
  tail := ⟨low3 dst, src2.tailRM, imm8, []⟩
  ud := fun p _ => p.udVex
  x := fun _ => src2.x
  b := fun _ => src2.b
  give := fun _ q t => .ok ((if l = 0#1 then (Instr.vshufpsVex128C4 · w) else (Instr.vshufpsVex256C4 · w)) q (ext4 dst ++ t.reg)
    src1 (t.rm.toRegMem src2.b) t.imm8) t.rest
  body := by rw [hbody]; rfl
  rex_isRex := fun _ h => by cases h
  rex_sse := fun _ => rfl
  header_head := ⟨0xC4, by decide, _, rfl⟩
  header_short := fun _ _ hc hne => vexC4_short (vexC4_marked hw) hc hne
  decodes := fun p bs => by rw [misspelt_of_not_sse hf]; exact decodeFamily_vexC4Header p hw w l bs
  ud_eq := fun p => (forbids_of_not_sse hf p).symm
  ud_of_forbids := fun p h _ => by rwa [forbids_of_not_sse hf] at h
  tail_rest := rfl
  operand_read := fun _ _ => decodeTail_regMem (Bool.and_eq_true_iff.mp (Bool.and_eq_true_iff.mp hw).1).2 (low3 dst) imm8 []
  gives := fun _ _ rest => by simp only [hq, toRegMem_tailRM, ext4_append_low3, hi]

/-- P0, P1 and P2 of an encoded EVEX prefix (30_encoding.md R97). -/
def evexP0 (dst : BitVec 5) (src2 : RegMemBcst) : Byte :=
  ~~~(dst.extractLsb' 3 1) ++ ~~~src2.x ++ ~~~src2.b ++ ~~~(dst.extractLsb' 4 1) ++ 0#2 ++ 1#2

@[inherit_doc evexP0] def evexP1 (src1 : BitVec 5) : Byte := 0#1 ++ ~~~(src1.extractLsb' 0 4) ++ 1#1 ++ 0#2

@[inherit_doc evexP0] def evexP2 (ll : BitVec 2) (src1 : BitVec 5) (src2 : RegMemBcst) (aaa : BitVec 3) (z : Bool) : Byte :=
  BitVec.ofBool z ++ ll ++ src2.bc ++ ~~~(src1.extractLsb' 4 1) ++ aaa

/-- P0 marks an EVEX prefix in the mode of a well-formed instruction. -/
theorem evex_marked {m : Mode} {q : Prefixes} {dst src1 : BitVec 5} {src2 : RegMemBcst} {aaa : BitVec 3} {z : Bool}
    (hw : wfEvex m q dst src1 src2 aaa z = true) (bs : List Byte) : vexMarked m (evexP0 dst src2 :: bs) = true := by
  simp only [wfEvex, Bool.and_eq_true, Bool.or_eq_true, decide_eq_true_eq] at hw
  refine vexMarked_of bs (hw.2.imp_right fun ⟨⟨hd, _⟩, hs⟩ => ?_)
  rw [evexP0, bit3_of_isLow5 hd, bit4_of_isLow5 hd, regMemBcst_x_of_isLow hs]
  generalize src2.b = b
  decide +revert

theorem evex_bTop (r x : BitVec 1) : (~~~r ++ ~~~x ++ ~~~0#1 ++ ~~~0#1 ++ 0#2 ++ 1#2 : Byte).extractLsb' 4 2 = 3#2 := by
  decide +revert

theorem evex_vvvvTop {src1 : BitVec 5} (h : isLow5 src1 = true) : (evexP1 src1).extractLsb' 6 1 = 1#1 := by decide +revert

theorem evex_v'Top (z : Bool) (ll : BitVec 2) (bc : BitVec 1) (aaa : BitVec 3) :
    (BitVec.ofBool z ++ ll ++ bc ++ ~~~0#1 ++ aaa : Byte).extractLsb' 3 1 = 1#1 := by decide +revert

/-- A well-formed instruction relies on no ignored bit (30_encoding.md R102). -/
theorem ignoredEvex_eq_none {m : Mode} {q : Prefixes} {dst src1 : BitVec 5} {src2 : RegMemBcst} {aaa : BitVec 3} {z : Bool}
    (hw : wfEvex m q dst src1 src2 aaa z = true) (ll : BitVec 2) :
    ignoredEvex m (evexP0 dst src2) (evexP1 src1) (evexP2 ll src1 src2 aaa z) = none := by
  simp only [wfEvex, Bool.and_eq_true, Bool.or_eq_true, decide_eq_true_eq] at hw
  refine if_neg fun ⟨hm, h⟩ => ?_
  obtain ⟨⟨hd, hs1⟩, hs2⟩ := hw.2.resolve_left (by simp [hm])
  rw [evex_vvvvTop hs1, evexP0, bit4_of_isLow5 hd, regMemBcst_b_of_isLow hs2, evex_bTop, evexP2, bit4_of_isLow5 hs1,
    evex_v'Top] at h
  simp at h

/-- The #UD conditions of an encoded EVEX form: its prefixes, and `EVEX.b` with a register. -/
theorem evexUd_eq {m : Mode} {q : Prefixes} {dst src1 : BitVec 5} {src2 : RegMemBcst} {aaa : BitVec 3} {z : Bool}
    (hw : wfEvex m q dst src1 src2 aaa z = true) {ll : BitVec 2} (hll : ll ≠ 3#2) (p : PrefixScan) (isReg : Bool) :
    evexUd p (evexP0 dst src2) (evexP1 src1) (evexP2 ll src1 src2 aaa z) isReg = (p.udVex || (isReg && src2.bc == 1#1)) := by
  obtain ⟨-, -, -, -, h0, hmm⟩ := evex_fields₀ (dst.extractLsb' 3 1) src2.x src2.b (dst.extractLsb' 4 1)
  obtain ⟨hw', -, h1, -⟩ := evex_fields₁ (src1.extractLsb' 0 4)
  obtain ⟨hz, hl, hb, -, ha⟩ := evex_fields₂ z ll src2.bc (src1.extractLsb' 4 1) aaa
  simp only [wfEvex, Bool.and_eq_true, Bool.or_eq_true, Bool.not_eq_true', bne_iff_ne] at hw
  obtain ⟨⟨-, hza⟩, -⟩ := hw
  have hmask : (z && aaa == 0#3) = false := by
    rcases hza with rfl | ha
    · rfl
    · simp [ha]
  simp only [evexUd, evexReserved, evexP0, evexP1, evexP2, h0, hmm, hw', h1, hz, hl, hb, ha, hmask, beq_eq_false_iff_ne.mpr hll]
  simp

theorem decodeFamily_evexHeader {m : Mode} (p : PrefixScan) {q : Prefixes} {dst src1 : BitVec 5} {src2 : RegMemBcst}
    {aaa : BitVec 3} {z : Bool} (hw : wfEvex m q dst src1 src2 aaa z = true) {ll : BitVec 2} (hll : ll ≠ 3#2) (bs : List Byte) :
    decodeFamily m p (0x62#8 :: evexP0 dst src2 :: evexP1 src1 :: evexP2 ll src1 src2 aaa z :: 0xC6#8 :: bs) =
      withTail m p (fun isReg => p.udVex || (isReg && src2.bc == 1#1)) none src2.x src2.b bs fun q t =>
        .ok (evexRow ll q (dst.extractLsb' 4 1 ++ dst.extractLsb' 3 1 ++ t.reg) src1
          (t.rm.toRegMemBcst src2.x src2.b (src2.bc == 1#1)) aaa z t.imm8) t.rest := by
  obtain ⟨hr, hx, hb, hr', h0, hmm⟩ := evex_fields₀ (dst.extractLsb' 3 1) src2.x src2.b (dst.extractLsb' 4 1)
  obtain ⟨-, hv, h1, hpp⟩ := evex_fields₁ (src1.extractLsb' 0 4)
  obtain ⟨hz, hl, hbc, hv', ha⟩ := evex_fields₂ z ll src2.bc (src1.extractLsb' 4 1) aaa
  have hother : evexOther (evexP0 dst src2) (evexP1 src1) = none := by
    simp only [evexOther, evexReserved, evexP0, evexP1, h0, h1, hmm, hpp]
    rfl
  have hud : evexUd p (evexP0 dst src2) (evexP1 src1) (evexP2 ll src1 src2 aaa z) =
      fun isReg => p.udVex || (isReg && src2.bc == 1#1) := funext (evexUd_eq hw hll p)
  rw [decodeFamily_evex p _ (evex_marked hw _)]
  simp only [decodeEvex, ne_eq, not_true_eq_false, if_false, hother, ignoredEvex_eq_none hw, hud]
  simp only [evexP0, evexP1, evexP2, hr, hx, hb, hr', hv, hz, hl, hbc, hv', ha, vex4_append]

/-- An EVEX row, by the row its `L'L` selects. -/
def Reading.evex {m : Mode} {q : Prefixes} {dst src1 : BitVec 5} {src2 : RegMemBcst} {aaa : BitVec 3} {z : Bool} {imm8 : Byte}
    {ll : BitVec 2} (hll : ll ≠ 3#2) {i : Instr} (hi : evexRow ll q dst src1 src2 aaa z imm8 = i) (hf : i.form ≠ .sse)
    (hq : i.prefixes = q) (hbody : encodeBody i = evexBytes ll dst src1 src2 aaa z ++ opcodeBytesEvex dst src2 imm8)
    (hw : wfEvex m q dst src1 src2 aaa z = true) : Reading m i where
  rex := none
  header := [0x62#8, evexP0 dst src2, evexP1 src1, evexP2 ll src1 src2 aaa z, 0xC6#8]
  operand := src2.bytes (dst.extractLsb' 0 3) ++ [imm8]
  tail := ⟨dst.extractLsb' 0 3, src2.tailRM, imm8, []⟩
  ud := fun p isReg => p.udVex || (isReg && src2.bc == 1#1)
  x := fun _ => src2.x
  b := fun _ => src2.b
  give := fun _ q t => .ok (evexRow ll q (dst.extractLsb' 4 1 ++ dst.extractLsb' 3 1 ++ t.reg) src1
    (t.rm.toRegMemBcst src2.x src2.b (src2.bc == 1#1)) aaa z t.imm8) t.rest
  body := by rw [hbody]; rfl
  rex_isRex := fun _ h => by cases h
  rex_sse := fun _ => rfl
  header_head := ⟨0x62, by decide, _, rfl⟩
  header_short := fun _ _ hc hne => evex_short (evex_marked hw) hc hne
  decodes := fun p bs => by rw [misspelt_of_not_sse hf]; exact decodeFamily_evexHeader p hw hll bs
  ud_eq := fun p => by rw [forbids_of_not_sse hf, bc_of_isReg, Bool.or_false]
  ud_of_forbids := fun p h _ => by rw [forbids_of_not_sse hf] at h; rw [h, Bool.true_or]
  tail_rest := rfl
  operand_read := fun _ _ => by
    simp only [wfEvex, Bool.and_eq_true] at hw
    obtain ⟨⟨⟨-, hsrc⟩, -⟩, -⟩ := hw
    exact decodeTail_regMemBcst hsrc _ imm8 []
  gives := fun _ _ rest => by simp only [hq, toRegMemBcst_tailRM, bits_append, hi]

/-- Every well-formed instruction is read so. -/
def Instr.reading {m : Mode} : {i : Instr} → i.wf m = true → Reading m i
  | .shufps _ _ _ _ imm8, hw => .shufps imm8 (Bool.and_eq_true_iff.mp hw).2
  | .vshufpsVex128C5 .., hw => .vexC5 0#1 rfl nofun rfl rfl (Bool.and_eq_true_iff.mp hw).2
  | .vshufpsVex128C4 _ w _ _ _ _, hw => .vexC4 w 0#1 rfl nofun rfl rfl (Bool.and_eq_true_iff.mp hw).2
  | .vshufpsVex256C5 .., hw => .vexC5 1#1 rfl nofun rfl rfl (Bool.and_eq_true_iff.mp hw).2
  | .vshufpsVex256C4 _ w _ _ _ _, hw => .vexC4 w 1#1 rfl nofun rfl rfl (Bool.and_eq_true_iff.mp hw).2
  | .vshufpsEvex128 .., hw => .evex (ll := 0#2) (by decide) rfl nofun rfl rfl (Bool.and_eq_true_iff.mp hw).2
  | .vshufpsEvex256 .., hw => .evex (ll := 1#2) (by decide) rfl nofun rfl rfl (Bool.and_eq_true_iff.mp hw).2
  | .vshufpsEvex512 .., hw => .evex (ll := 2#2) (by decide) rfl nofun rfl rfl (Bool.and_eq_true_iff.mp hw).2

end Sys2Proof
end

section
/-! SUPPORT. O2, an encoded instruction decodes to itself; and what the decoder does with the body of an instruction
after any prefix bytes. -/

namespace Sys2Proof

/-! ### An instruction after its prefix bytes -/

/-- A part cut off `l₁ ++ l₂` ends in `l₁` or, later, in `l₂`. -/
theorem prefix_append_cases {c l₁ l₂ : List Byte} (h : c <+: l₁ ++ l₂) (hne : c ≠ l₁ ++ l₂) :
    c <+: l₁ ∧ c ≠ l₁ ∨ ∃ d, c = l₁ ++ d ∧ d <+: l₂ ∧ d ≠ l₂ := by
  have hlonger : l₁ <+: c → ∃ d, c = l₁ ++ d ∧ d <+: l₂ ∧ d ≠ l₂ := by
    rintro ⟨d, rfl⟩
    exact ⟨d, rfl, (List.prefix_append_right_inj l₁).mp h, fun e => hne (by rw [e])⟩
  rcases List.prefix_or_prefix_of_prefix h (List.prefix_append l₁ l₂) with hc | hc
  · by_cases he : c = l₁
    · exact .inr (hlonger (by rw [he]))
    · exact .inl ⟨hc, he⟩
  · exact .inr (hlonger hc)

/-- Prefix bytes alone are no instruction yet. -/
theorem decode_prefixBytes_truncated {m : Mode} (hm : m.admitted = true) {l : List Byte} (hl : ∀ b ∈ l, IsPrefixByte m b) :
    decode m l = .truncated := by
  obtain ⟨p, -, hscan⟩ := exists_reads hl
  rw [← List.append_nil l, decode, if_pos hm, hscan]
  rfl

namespace Reading
variable {m : Mode} {i : Instr} (R : Reading m i)

theorem isPrefixByte_rex : ∀ b ∈ R.rex.toList, IsPrefixByte m b :=
  fun b hb => .inr (R.rex_isRex b (Option.mem_toList.mp hb))

theorem isPrefixByte_append {l : List Byte} (hl : ∀ b ∈ l, IsPrefixByte m b) : ∀ b ∈ l ++ R.rex.toList, IsPrefixByte m b :=
  List.forall_mem_append.mpr ⟨hl, R.isPrefixByte_rex⟩

/-- The operand is read to its end by any extension bits. -/
theorem operand_complete (x b : BitVec 1) (rest : List Byte) :
    ∃ t, decodeTail x b (R.operand ++ rest) = some t ∧ t.rm.isReg = R.tail.rm.isReg ∧ t.rest = rest := by
  obtain ⟨p, hp⟩ : ∃ p : PrefixScan, p.rex = R.rex := ⟨{ PrefixScan.empty with rex := R.rex }, rfl⟩
  obtain ⟨t, ht, hreg, hrest⟩ := decodeTail_as (decodeTail_append (R.operand_read p hp) rest) x b
  exact ⟨t, ht, hreg, by simpa [R.tail_rest] using hrest⟩

theorem operand_cut (x b : BitVec 1) {c : List Byte} (hc : c <+: R.operand) (hne : c ≠ R.operand) : decodeTail x b c = none := by
  obtain ⟨t, ht, -, hrest⟩ := R.operand_complete x b []
  rw [List.append_nil] at ht
  exact decodeTail_eq_none_of_prefix ht hrest hc hne

variable (hm : m.admitted = true) {l : List Byte} (hl : ∀ b ∈ l, IsPrefixByte m b)
include hm hl

/-- After prefix bytes the header selects the form, and what is behind it is read with what the scan of those bytes holds. -/
theorem decode_body :
    ∃ p : PrefixScan, p.Reads m (l ++ R.rex.toList) ∧
      (∀ bs, decode m (l ++ (R.rex.toList ++ (R.header ++ bs))) =
        withTail m p (R.ud p) (p.misspelt i.form) (R.x p) (R.b p) bs (R.give p)) ∧
      ∀ c, c <+: R.header → c ≠ R.header → decode m (l ++ (R.rex.toList ++ c)) = .truncated := by
  obtain ⟨p, hp, hscan⟩ := exists_reads (R.isPrefixByte_append hl)
  obtain ⟨b, hb, hs, hhead⟩ := R.header_head
  have hdecode (c : List Byte) : decode m (l ++ (R.rex.toList ++ (b :: c))) = decodeFamily m p (b :: c) := by
    rw [← List.append_assoc, decode, if_pos hm, hscan, scanPrefixes_stop m p b c (add_formByte m p hb)]
  refine ⟨p, hp, fun bs => ?_, fun c hc hne => ?_⟩
  · rw [← R.decodes, hhead, List.cons_append, hdecode]
  · have hshort := R.header_short p c hc hne
    rw [hhead] at hc
    rcases List.prefix_cons_iff.mp hc with rfl | ⟨c, rfl, -⟩
    · rw [List.append_nil]
      exact decode_prefixBytes_truncated hm (R.isPrefixByte_append hl)
    · rw [hdecode, hshort]

end Reading

/-- An instruction that is cut off is truncated, whatever its prefixes say of it. -/
theorem decode_cut {m : Mode} {i : Instr} (hw : i.wf m = true) {l : List Byte} (hl : ∀ b ∈ l, IsPrefixByte m b)
    (ha : m = .mode32 → 0x67#8 ∉ l) {c : List Byte}
    (hc : c <+: l ++ encodeBody i) (hne : c ≠ l ++ encodeBody i) : decode m c = .truncated := by
  let R := Instr.reading hw
  have hm := wf_admitted hw
  have hlr := R.isPrefixByte_append hl
  rw [R.body, ← List.append_assoc] at hc hne
  rcases prefix_append_cases hc hne with ⟨hc, -⟩ | ⟨c, rfl, hc, hne⟩
  · exact decode_prefixBytes_truncated hm fun b hb => hlr b (hc.subset hb)
  · obtain ⟨p, hp, hread, hshort⟩ := R.decode_body hm hl
    rw [List.append_assoc]
    rcases prefix_append_cases hc hne with ⟨hc, hne⟩ | ⟨c, rfl, hc, hne⟩
    · exact hshort c hc hne
    · have ha' : ¬ (m = .mode32 ∧ p.addrSizes ≠ 0) := not_address16 hp.toHolds fun hm32 hmem => by
        rcases List.mem_append.mp hmem with h | h
        · exact ha hm32 h
        · exact absurd (hm32.symm.trans (R.rex_isRex _ (Option.mem_toList.mp h)).1) (by decide)
      rw [hread]
      exact withTail_truncated _ ha' _ _ (R.operand_cut _ _ hc hne)

/-! ### The prefixes the encoder may write -/

/-- The admitted legacy prefix bytes: segment overrides and 67H (30_encoding.md R82). -/
def admittedPrefixBytes : List Byte := [0x26, 0x2E, 0x36, 0x3E, 0x64, 0x65, 0x67]

theorem isPrefixByte_of_admitted {m : Mode} {l : List Byte} (hl : ∀ b ∈ l, b ∈ admittedPrefixBytes) :
    ∀ b ∈ l, IsPrefixByte m b :=
  fun b hb => .inl (overrides_subset (hl b hb))

theorem isRex_of_admitted {b : Byte} (h : b ∈ admittedPrefixBytes) : isRex b = false := isRex_legacyPrefix (overrides_subset h)

theorem segOfByte_of_admitted {b : Byte} (h : b ∈ admittedPrefixBytes) : (segOfByte b).isSome = (b != 0x67#8) := by
  decide +revert

/-- The scan of admitted prefixes and an adjacent REX byte forbids and misspells nothing. -/
structure PrefixScan.Plain (p : PrefixScan) (rex : Option Byte) : Prop where
  lock : p.lock = false
  rep : p.rep = false
  opSize : p.opSize = false
  strayRex : p.strayRex = false
  rex : p.rex = rex

theorem plain_of_reads {m : Mode} {rex : Option Byte} (hR : ∀ r ∈ rex, m = .mode64 ∧ isRex r = true) {l : List Byte}
    (hl : ∀ b ∈ l, b ∈ admittedPrefixBytes) {p : PrefixScan} (hp : p.Reads m (l ++ rex.toList)) : p.Plain rex := by
  have hno {c : Byte} (hc : c ∈ ([0xF0, 0xF2, 0xF3, 0x66] : List Byte)) : c ∉ l ++ rex.toList := by
    have hforbidden : c ∉ admittedPrefixBytes ∧ isRex c = false := by decide +revert
    intro h
    rcases List.mem_append.mp h with h | h
    · exact hforbidden.1 (hl c h)
    · simpa [hforbidden.2] using (hR c (Option.mem_toList.mp h)).2
  have hrex : ¬ ∃ r ∈ l, isRex r = true := by
    rintro ⟨r, hr, h⟩
    simp [isRex_of_admitted (hl r hr)] at h
  refine ⟨?_, ?_, ?_, ?_, ?_⟩
  · exact Bool.eq_false_iff.mpr (hp.lock.not.mpr (hno (by decide)))
  · exact Bool.eq_false_iff.mpr (hp.rep.not.mpr (not_or.mpr ⟨hno (by decide), hno (by decide)⟩))
  · exact Bool.eq_false_iff.mpr (hp.opSize.not.mpr (hno (by decide)))
  · refine Bool.eq_false_iff.mpr (hp.stray.not.mpr ?_)
    rintro ⟨-, r, hr, h⟩
    refine hrex ⟨r, ?_, h⟩
    cases rex with
    | none => exact List.mem_of_mem_dropLast (by simpa using hr)
    | some r' => simpa using hr
  · rw [hp.lastRex]
    cases rex with
    | none =>
      have hlast : ∀ r ∈ l.getLast?, ¬ isRex r = true := fun r hr h => hrex ⟨r, List.mem_of_mem_getLast? hr, h⟩
      simpa [Option.filter_eq_none_iff] using fun _ => hlast
    | some r =>
      obtain ⟨hm, hr⟩ := hR r rfl
      simp [hm, hr, Option.filter]

namespace PrefixScan.Plain
variable {p : PrefixScan} {m : Mode} {i : Instr} {R : Reading m i} (h : p.Plain R.rex)
include h

theorem forbids_eq_false : p.forbids i.form = false := by
  by_cases hf : i.form = .sse
  · simp [PrefixScan.forbids, hf, PrefixScan.udLegacy, h.lock, h.rep]
  · simp [PrefixScan.forbids, hf, PrefixScan.udVex, h.lock, h.rep, h.opSize, h.strayRex, h.rex, R.rex_sse hf]

theorem misspelt_eq_none : p.misspelt i.form = none := by
  simp [PrefixScan.misspelt, PrefixScan.refusedLegacy, h.opSize, h.strayRex]

end PrefixScan.Plain

/-- The prefixes of the encoder are accepted as they were. -/
theorem accept_of_reads {m : Mode} {q : Prefixes} {l : List Byte} (hl : ∀ r ∈ l, isRex r = true) {p : PrefixScan}
    (hp : p.Reads m (q.bytes ++ l)) : p.accept = some q := by
  have hseg : l.filterMap segOfByte = [] := List.filterMap_eq_nil_iff.mpr fun r hr => segOfByte_rex (hl r hr)
  have haddr : l.count 0x67#8 = 0 := List.count_eq_zero.mpr fun h => absurd (hl _ h) (by decide)
  obtain ⟨g, a⟩ := q
  have hsegs : p.segs = g.toList := by
    rw [hp.segs, List.filterMap_append, hseg, List.append_nil]
    cases g with
    | none => cases a <;> rfl
    | some g => cases g <;> cases a <;> rfl
  have haddrs : p.addrSizes = if a then 1 else 0 := by
    rw [hp.addrSizes, List.count_append, haddr]
    cases g with
    | none => cases a <;> rfl
    | some g => cases g <;> cases a <;> rfl
  cases g <;> cases a <;> simp [PrefixScan.accept, hsegs, haddrs]

/-- Settles O2: the scan reads the encoder's prefixes back, its header selects the row whose fields it wrote, and its operand is read
with the extension bits it put into the header. -/
theorem decodeOfEncode : Obligations.DecodeOfEncode := by
  intro m i rest hw
  let R := Instr.reading hw
  have hl : ∀ b ∈ i.prefixes.bytes, b ∈ admittedPrefixBytes := fun b hb => mem_prefixes_bytes hb
  obtain ⟨p, hp, hread, -⟩ := R.decode_body (wf_admitted hw) (isPrefixByte_of_admitted hl)
  have hplain := plain_of_reads R.rex_isRex hl hp
  have ha : ¬ (m = .mode32 ∧ p.addrSizes ≠ 0) := not_address16 hp.toHolds fun hm32 hmem => by
    rcases List.mem_append.mp hmem with h | h
    · exact addrSize_notMem_prefixes_bytes (hm32 ▸ wf_prefixes hw) h
    · exact absurd (R.rex_isRex _ (Option.mem_toList.mp h)).2 (by decide)
  have htail := decodeTail_append (R.operand_read p hplain.rex) rest
  have hbody : encode i ++ rest = i.prefixes.bytes ++ (R.rex.toList ++ (R.header ++ (R.operand ++ rest))) := by
    simp [encode, R.body]
  rw [hbody, hread, hplain.misspelt_eq_none,
    withTail_accepted _ ha htail ((R.ud_eq p).trans hplain.forbids_eq_false)
      (accept_of_reads (fun r hr => (R.rex_isRex r (Option.mem_toList.mp hr)).2) hp)]
  simpa [R.tail_rest] using R.gives p hplain.rex rest

end Sys2Proof
end

section
/-! SUPPORT. O5 and O6, which answer the prefixes of a complete instruction get: #UD by a forbidden one before any refusal, and the
refusals of the other spellings (30_encoding.md R82, R83, R88). -/

namespace Sys2Proof

theorem isPrefixByte_of_range {m : Mode} {l : List Byte}
    (hl : ∀ b ∈ l, b ∈ Machine.legacyPrefixBytes ∨ m = .mode64 ∧ 0x40#8 ≤ b ∧ b ≤ 0x4F#8) : ∀ b ∈ l, IsPrefixByte m b :=
  fun b hb => (hl b hb).imp_right fun ⟨hm, hlo, hhi⟩ => ⟨hm, isRex_of_range hlo hhi⟩

/-- The REX byte of a body is none of the legacy prefixes. -/
theorem Reading.mem_append_rex {m : Mode} {i : Instr} (R : Reading m i) {c : Byte} (hc : c ∈ Machine.legacyPrefixBytes)
    (l : List Byte) : c ∈ l ++ R.rex.toList ↔ c ∈ l := by
  have hno : c ∉ R.rex.toList := fun h => by simpa [isRex_legacyPrefix hc] using (R.rex_isRex c (Option.mem_toList.mp h)).2
  rw [List.mem_append, or_iff_left hno]

namespace PrefixScan.Reads
variable {m : Mode} {i : Instr} {R : Reading m i} {l : List Byte} {p : PrefixScan} (hp : p.Reads m (l ++ R.rex.toList))
include hp

theorem address16_iff : (m = .mode32 ∧ p.addrSizes ≠ 0) ↔ m = .mode32 ∧ 0x67#8 ∈ l := by
  rw [hp.addrSizes, ← R.mem_append_rex (by decide), Ne, List.count_eq_zero, not_not]

theorem forbids_iff_of_sse (hf : i.form = .sse) : p.forbids i.form = true ↔ 0xF0#8 ∈ l ∨ 0xF2#8 ∈ l ∨ 0xF3#8 ∈ l := by
  rw [PrefixScan.forbids, if_pos hf, udLegacy_of_holds hp.toHolds, R.mem_append_rex (by decide), R.mem_append_rex (by decide),
    R.mem_append_rex (by decide)]

theorem forbids_of_mem
    (h : 0xF0#8 ∈ l ∨ 0xF2#8 ∈ l ∨ 0xF3#8 ∈ l ∨
      i.form ≠ .sse ∧ (0x66#8 ∈ l ∨ m = .mode64 ∧ ∃ b ∈ l, isRex b = true)) :
    p.forbids i.form = true := by
  by_cases hf : i.form = .sse
  · rw [hp.forbids_iff_of_sse hf]
    simpa [hf] using h
  · have hrex : l ++ R.rex.toList = l := by simp [R.rex_sse hf]
    have hp' := hp.toHolds
    rw [hrex] at hp'
    rw [forbids_of_not_sse hf, udVex_of_holds hp', udLegacy_of_holds hp']
    simpa [hf, or_assoc] using h

end PrefixScan.Reads

/-- A complete instruction after a forbidden prefix is #UD; with 67H in Mode32 its end is the one of the 16-bit table. -/
theorem Reading.decode_forbidden {m : Mode} {i : Instr} (R : Reading m i) (hm : m.admitted = true) {l : List Byte}
    (hl : ∀ b ∈ l, IsPrefixByte m b) {rest : List Byte} (hrest : m = .mode32 → 0x67#8 ∈ l → 2 ≤ rest.length)
    (h : 0xF0#8 ∈ l ∨ 0xF2#8 ∈ l ∨ 0xF3#8 ∈ l ∨
      i.form ≠ .sse ∧ (0x66#8 ∈ l ∨ m = .mode64 ∧ ∃ b ∈ l, isRex b = true)) :
    decode m (l ++ (encodeBody i ++ rest)) = .ud := by
  obtain ⟨p, hp, hread, -⟩ := R.decode_body hm hl
  have hud := R.ud_of_forbids p (hp.forbids_of_mem h)
  obtain ⟨t, ht, -, htrest⟩ := R.operand_complete (R.x p) (R.b p) rest
  rw [R.body, List.append_assoc, List.append_assoc, hread]
  by_cases ha : m = .mode32 ∧ p.addrSizes ≠ 0
  · obtain ⟨hm32, h67⟩ := hp.address16_iff.mp ha
    rw [withTail_address16 _ ha _ _ (decodeTail16_of_decodeTail ht (htrest ▸ hrest hm32 h67)), if_pos (hud _)]
  · exact withTail_judged _ ha ht _ (hud _)

/-- Settles O5: the scan keeps a forbidden prefix whatever else it holds, and #UD is judged before a spelling is refused. -/
theorem forbiddenPrefixBeforeRefusals : Obligations.ForbiddenPrefixBeforeRefusals := by
  intro m i l rest hw hl hrest h
  refine (Instr.reading hw).decode_forbidden (wf_admitted hw) (isPrefixByte_of_range hl) hrest ?_
  refine h.imp_right (Or.imp_right (Or.imp_right fun ⟨hf, h⟩ => ⟨hf, h.imp_right ?_⟩))
  rintro ⟨hm, b, hb, hlo, hhi⟩
  exact ⟨hm, b, hb, isRex_of_range hlo hhi⟩

/-! ### Refused spellings -/

theorem accept_eq_none {p : PrefixScan} (h : 2 ≤ p.segs.length ∨ 2 ≤ p.addrSizes) : p.accept = none := by
  unfold PrefixScan.accept
  split
  · next hs => exact if_neg (by simp [hs] at h; omega)
  · next hs => exact if_neg (by simp [hs] at h; omega)
  · rfl

theorem accept_eq_none_of_reads {m : Mode} {i : Instr} {R : Reading m i} {l : List Byte}
    (hl : ∀ b ∈ l, b ∈ admittedPrefixBytes) {p : PrefixScan} (hp : p.Reads m (l ++ R.rex.toList))
    (h : 2 ≤ l.countP (· ≠ 0x67#8) ∨ 2 ≤ l.count 0x67#8) : p.accept = none := by
  refine accept_eq_none (h.imp (fun h => ?_) fun h => ?_)
  · have hcount : l.countP (· ≠ 0x67#8) = l.countP fun b => (segOfByte b).isSome :=
      List.countP_congr fun b hb => by simp [segOfByte_of_admitted (hl b hb)]
    rw [hp.segs, List.length_filterMap_eq_countP, List.countP_append, ← hcount]
    exact Nat.le_add_right_of_le h
  · rw [hp.addrSizes, List.count_append]
    exact Nat.le_add_right_of_le h

theorem Reading.decode_repeated {m : Mode} {i : Instr} (R : Reading m i) (hm : m.admitted = true) {l : List Byte}
    (hl : ∀ b ∈ l, b ∈ admittedPrefixBytes) (rest : List Byte) (ha : m = .mode64 ∨ 0x67#8 ∉ l)
    (h : 2 ≤ l.countP (· ≠ 0x67#8) ∨ 2 ≤ l.count 0x67#8) :
    decode m (l ++ (encodeBody i ++ rest)) = .refused .repeatedPrefix := by
  obtain ⟨p, hp, hread, -⟩ := R.decode_body hm (isPrefixByte_of_admitted hl)
  obtain ⟨t, ht, hreg, -⟩ := R.operand_complete (R.x p) (R.b p) rest
  have hplain := plain_of_reads R.rex_isRex hl hp
  have ha' : ¬ (m = .mode32 ∧ p.addrSizes ≠ 0) := by
    rw [hp.address16_iff]
    rintro ⟨rfl, h67⟩
    exact ha.elim (by decide) (· h67)
  rw [R.body, List.append_assoc, List.append_assoc, hread, hplain.misspelt_eq_none]
  exact withTail_repeated _ ha' ht (by rw [hreg, R.ud_eq, hplain.forbids_eq_false]) (accept_eq_none_of_reads hl hp h)

theorem Reading.decode_address16 {i : Instr} (R : Reading .mode32 i) {l : List Byte} (hl : ∀ b ∈ l, b ∈ admittedPrefixBytes)
    (h67 : 0x67#8 ∈ l) {rest : List Byte} (hrest : 2 ≤ rest.length) :
    decode .mode32 (l ++ (encodeBody i ++ rest)) = .refused .address16 := by
  obtain ⟨p, hp, hread, -⟩ := R.decode_body rfl (isPrefixByte_of_admitted hl)
  obtain ⟨t, ht, hreg, htrest⟩ := R.operand_complete (R.x p) (R.b p) rest
  have hud : R.ud p t.rm.isReg = false := by rw [hreg, R.ud_eq, (plain_of_reads R.rex_isRex hl hp).forbids_eq_false]
  rw [R.body, List.append_assoc, List.append_assoc, hread, withTail_address16 _ (hp.address16_iff.mpr ⟨rfl, h67⟩) _ _
    (decodeTail16_of_decodeTail ht (htrest ▸ hrest)), hud, if_neg Bool.false_ne_true]

theorem refusedLegacy_of_stray {p : PrefixScan} (ho : p.opSize = false) (hs : p.strayRex = true) :
    p.refusedLegacy = some .rexNotAdjacent := by simp [PrefixScan.refusedLegacy, ho, hs]

theorem Reading.decode_strayRex {i : Instr} (R : Reading .mode64 i) (hf : i.form = .sse) {r : Byte} (hr : isRex r = true)
    {l : List Byte} (hl : ∀ b ∈ l, b ∈ admittedPrefixBytes) (hne : l ≠ []) (rest : List Byte) :
    decode .mode64 (r :: l ++ (encodeBody i ++ rest)) = .refused .rexNotAdjacent := by
  have hbytes : ∀ b ∈ r :: l, IsPrefixByte .mode64 b := List.forall_mem_cons.mpr ⟨.inr ⟨rfl, hr⟩, isPrefixByte_of_admitted hl⟩
  obtain ⟨p, hp, hread, -⟩ := R.decode_body rfl hbytes
  obtain ⟨t, ht, hreg, -⟩ := R.operand_complete (R.x p) (R.b p) rest
  have hno {c : Byte} (hc : c ∈ ([0xF0, 0xF2, 0xF3, 0x66] : List Byte)) : c ∉ r :: l := by
    have hforbidden : c ∉ admittedPrefixBytes ∧ isRex c = false := by decide +revert
    rintro (_ | ⟨_, h⟩)
    · simp [hforbidden.2] at hr
    · exact hforbidden.1 (hl c h)
  have hud : p.forbids i.form = false := by
    rw [Bool.eq_false_iff, Ne, hp.forbids_iff_of_sse hf]
    simp only [not_or]
    exact ⟨hno (by decide), hno (by decide), hno (by decide)⟩
  have hop : p.opSize = false := by
    rw [Bool.eq_false_iff, Ne, hp.opSize, R.mem_append_rex (by decide)]
    exact hno (by decide)
  have hstray : p.strayRex = true := by
    refine hp.stray.mpr ⟨rfl, r, ?_, hr⟩
    rw [List.cons_append, List.dropLast_cons_of_ne_nil (by simp [hne])]
    exact List.mem_cons_self
  rw [R.body, List.append_assoc, List.append_assoc, hread, PrefixScan.misspelt, if_pos hf, refusedLegacy_of_stray hop hstray]
  exact withTail_spelling _ (by simp) ht (by rw [hreg, R.ud_eq, hud]) _

/-- Two REX bytes before the legacy form. -/
theorem decode_rex_rex {r r' : Byte} (hr : isRex r = true) (hr' : isRex r' = true) {rest : List Byte} {t : Tail}
    (ht : decodeTail (r'.extractLsb' 1 1) (r'.extractLsb' 0 1) rest = some t) :
    decode .mode64 (r :: r' :: 0x0F#8 :: 0xC6#8 :: rest) = .refused .rexNotAdjacent := by
  have hscan : scanPrefixes .mode64 .empty (r :: r' :: 0x0F#8 :: 0xC6#8 :: rest) =
      ({ PrefixScan.empty with rex := some r', strayRex := true }, 0x0F#8 :: 0xC6#8 :: rest) := by
    rw [scanPrefixes_step _ _ _ r _ (add_rex rfl hr _), scanPrefixes_step _ _ _ r' _ (add_rex rfl hr' _),
      scanPrefixes_stop _ _ _ _ (add_formByte _ _ (by decide))]
    rfl
  rw [decode, if_pos (show Mode.mode64.admitted = true from rfl), hscan, decodeFamily_legacy]
  exact withTail_spelling _ (by simp) ht rfl _

/-- Settles O6: each spelling leaves its trace in the scan, none of them is a #UD condition, and the refusals are looked for in the
order of the model. -/
theorem prefixSpellingsRefused : Obligations.PrefixSpellingsRefused := by
  intro m i l rest hw hl
  let R := Instr.reading hw
  refine ⟨fun ha h => R.decode_repeated (wf_admitted hw) hl rest ha h, ?_, ?_, ?_⟩
  · rintro rfl h67 hrest
    exact R.decode_address16 hl h67 hrest
  · rintro rfl hf r hlo hhi hne
    exact R.decode_strayRex hf (isRex_of_range hlo hhi) hl hne rest
  · rintro rfl r r' hlo hhi hlo' hhi' t ht
    exact decode_rex_rex (isRex_of_range hlo hhi) (isRex_of_range hlo' hhi') ht

end Sys2Proof
end

section
/-! SUPPORT. O7 to O11, the values of the VEX and EVEX fields that are no instruction of the spec, after any admitted prefixes
(30_encoding.md R93, R95, R98 to R102, R112). -/

namespace Sys2Proof

/-- After admitted prefixes the family of the next byte decides, with a scan that forbids nothing. -/
theorem decode_prefixes {m : Mode} (hm : m.admitted = true) {p : Prefixes} (hw : p.wf m = true) {b : Byte} (hb : b ∈ formBytes)
    (bs : List Byte) :
    ∃ s : PrefixScan, ¬ (m = .mode32 ∧ s.addrSizes ≠ 0) ∧ s.udVex = false ∧
      decode m (p.bytes ++ b :: bs) = decodeFamily m s (b :: bs) := by
  have hl : ∀ b ∈ p.bytes, b ∈ admittedPrefixBytes := fun b hb => mem_prefixes_bytes hb
  obtain ⟨s, hs, hscan⟩ := exists_reads (isPrefixByte_of_admitted (m := m) hl)
  have hplain : s.Plain none := plain_of_reads (by simp) hl (by simpa using hs)
  refine ⟨s, not_address16 hs.toHolds fun hm32 => addrSize_notMem_prefixes_bytes (hm32 ▸ hw), ?_, ?_⟩
  · simp [PrefixScan.udVex, hplain.lock, hplain.rep, hplain.opSize, hplain.strayRex, hplain.rex]
  · rw [decode, if_pos hm, hscan, scanPrefixes_stop m s b bs (add_formByte m s hb)]

/-- The bytes after C4H, C5H or 62H are a VEX or EVEX prefix in an admitted mode (30_encoding.md R95, R102). -/
def Marked (m : Mode) (b : Byte) : Prop := m = .mode64 ∨ m = .mode32 ∧ b.extractLsb' 6 2 = 3#2

theorem Marked.admitted {m : Mode} {b : Byte} (h : Marked m b) : m.admitted = true := by
  rcases h with rfl | ⟨rfl, -⟩ <;> rfl

theorem Marked.vexMarked {m : Mode} {b : Byte} (h : Marked m b) (bs : List Byte) : vexMarked m (b :: bs) = true :=
  vexMarked_of bs (h.imp_right And.right)

section
variable {m : Mode} {p : Prefixes} (hw : p.wf m = true)
include hw

theorem decode_vexC5 {b : Byte} (hb : Marked m b) (bs : List Byte) :
    ∃ s : PrefixScan, ¬ (m = .mode32 ∧ s.addrSizes ≠ 0) ∧ s.udVex = false ∧
      decode m (p.bytes ++ 0xC5#8 :: b :: bs) = decodeVexC5 m s (b :: bs) := by
  obtain ⟨s, ha, hud, hdec⟩ := decode_prefixes hb.admitted hw (b := 0xC5) (by decide) (b :: bs)
  exact ⟨s, ha, hud, hdec.trans (decodeFamily_vexC5 s bs (hb.vexMarked bs))⟩

theorem decode_vexC4 {b : Byte} (hb : Marked m b) (bs : List Byte) :
    ∃ s : PrefixScan, ¬ (m = .mode32 ∧ s.addrSizes ≠ 0) ∧ s.udVex = false ∧
      decode m (p.bytes ++ 0xC4#8 :: b :: bs) = decodeVexC4 m s (b :: bs) := by
  obtain ⟨s, ha, hud, hdec⟩ := decode_prefixes hb.admitted hw (b := 0xC4) (by decide) (b :: bs)
  exact ⟨s, ha, hud, hdec.trans (decodeFamily_vexC4 s bs (hb.vexMarked bs))⟩

theorem decode_evex {b : Byte} (hb : Marked m b) (bs : List Byte) :
    ∃ s : PrefixScan, ¬ (m = .mode32 ∧ s.addrSizes ≠ 0) ∧ s.udVex = false ∧
      decode m (p.bytes ++ 0x62#8 :: b :: bs) = decodeEvex m s (b :: bs) := by
  obtain ⟨s, ha, hud, hdec⟩ := decode_prefixes hb.admitted hw (b := 0x62) (by decide) (b :: bs)
  exact ⟨s, ha, hud, hdec.trans (decodeFamily_evex s bs (hb.vexMarked bs))⟩

end

/-! ### VEX (30_encoding.md R93, R95) -/

theorem decodeVexFields_vshufpd (m : Mode) (p : PrefixScan) (ref : Option DecodeRefusal) (r x b : BitVec 1) (vvvv : BitVec 4)
    (l : BitVec 1) (mk128 mk256 : Prefixes → BitVec 4 → BitVec 4 → RegMem → BitVec 8 → Instr) (bs : List Byte) :
    decodeVexFields m p ref r x b vvvv l 1#2 mk128 mk256 bs = .refused .vshufpd := rfl

theorem decodeVexFields_pp_ud {m : Mode} {p : PrefixScan} (ha : ¬ (m = .mode32 ∧ p.addrSizes ≠ 0)) (ref : Option DecodeRefusal)
    (r x b : BitVec 1) (vvvv : BitVec 4) (l : BitVec 1) {pp : BitVec 2} (hpp : pp = 2#2 ∨ pp = 3#2)
    (mk128 mk256 : Prefixes → BitVec 4 → BitVec 4 → RegMem → BitVec 8 → Instr) {bs : List Byte}
    (ht : (decodeTail 0#1 0#1 bs).isSome = true) : decodeVexFields m p ref r x b vvvv l pp mk128 mk256 bs = .ud := by
  have hpp' : pp ≠ 1#2 ∧ (pp != 0#2) = true := by rcases hpp with rfl | rfl <;> decide
  obtain ⟨t, ht⟩ := Option.isSome_iff_exists.mp ht
  rw [decodeVexFields, if_neg hpp'.1]
  exact withTail_ud ha (fun _ => by simp [hpp'.2]) ref (decodeTail_isSome_of ht) _

/-- Settles O7: the map is looked at first, then `pp`, of which 01 is another instruction and 10 and 11 are #UD. -/
theorem vexFieldValues : Obligations.VexFieldValues := by
  intro m p b₁ b₂ rest hb hw
  obtain ⟨s, ha, -, hC5⟩ := decode_vexC5 hw hb (0xC6#8 :: rest)
  obtain ⟨s', ha', -, hC4⟩ := decode_vexC4 hw hb (b₂ :: 0xC6#8 :: rest)
  refine ⟨fun hpp => ?_, fun hpp ht => ?_, fun hmap => ⟨fun hpp => ?_, fun hpp ht => ?_⟩, fun hmap => ?_⟩
  · refine hC5.trans ?_
    rw [decodeVexC5, if_neg (by decide), hpp, decodeVexFields_vshufpd]
  · refine hC5.trans ?_
    rw [decodeVexC5, if_neg (by decide), decodeVexFields_pp_ud ha _ _ _ _ _ _ hpp _ _ ht]
  · refine hC4.trans ?_
    rw [decodeVexC4, if_neg (by simp [hmap]), hpp, decodeVexFields_vshufpd]
  · refine hC4.trans ?_
    rw [decodeVexC4, if_neg (by simp [hmap]), decodeVexFields_pp_ud ha' _ _ _ _ _ _ hpp _ _ ht]
  · refine hC4.trans ?_
    rw [decodeVexC4, if_pos (.inl hmap)]

/-! ### EVEX (30_encoding.md R98 to R102) -/

theorem decodeEvex_other (m : Mode) (p : PrefixScan) {p0 p1 : Byte} (p2 : Byte) (bs : List Byte) {r : DecodeRefusal}
    (h : evexOther p0 p1 = some r) : decodeEvex m p (p0 :: p1 :: p2 :: 0xC6#8 :: bs) = .refused r := by
  simp only [decodeEvex, ne_eq, not_true_eq_false, if_false, h]

section
variable {m : Mode} {p : PrefixScan} (ha : ¬ (m = .mode32 ∧ p.addrSizes ≠ 0)) {p0 p1 p2 : Byte} (h : evexOther p0 p1 = none)
  {bs : List Byte} {t : Tail} (ht : decodeTail 0#1 0#1 bs = some t)
include ha h ht

theorem decodeEvex_judged (hud : evexUd p p0 p1 p2 t.rm.isReg = true) :
    decodeEvex m p (p0 :: p1 :: p2 :: 0xC6#8 :: bs) = .ud := by
  obtain ⟨u, hu, hreg, -⟩ := decodeTail_as ht (~~~(p0.extractLsb' 6 1)) (~~~(p0.extractLsb' 5 1))
  simp only [decodeEvex, ne_eq, not_true_eq_false, if_false, h]
  exact withTail_judged _ ha hu _ (hreg ▸ hud)

theorem decodeEvex_ignoredBit (hud : evexUd p p0 p1 p2 t.rm.isReg = false) (hi : ignoredEvex m p0 p1 p2 = some .ignoredBit) :
    decodeEvex m p (p0 :: p1 :: p2 :: 0xC6#8 :: bs) = .refused .ignoredBit := by
  obtain ⟨u, hu, hreg, -⟩ := decodeTail_as ht (~~~(p0.extractLsb' 6 1)) (~~~(p0.extractLsb' 5 1))
  simp only [decodeEvex, ne_eq, not_true_eq_false, if_false, h, hi]
  exact withTail_spelling _ ha hu (hreg ▸ hud) _

end

theorem evexReserved_iff (p0 p1 : Byte) :
    evexReserved p0 p1 = true ↔ p0.extractLsb' 2 2 ≠ 0#2 ∨ p1.extractLsb' 2 1 = 0#1 ∨ p0.extractLsb' 0 2 = 0#2 := by
  simp [evexReserved, or_assoc]

theorem evexOther_of_reserved {p0 p1 : Byte} (h : evexReserved p0 p1 = true) : evexOther p0 p1 = none := if_pos h

/-- The fixed fields, the map and `pp` of a VSHUFPS. -/
theorem evexFixed {p0 p1 : Byte} (h0 : p0.extractLsb' 0 4 = 1#4) (h1 : p1.extractLsb' 0 3 = 4#3) :
    evexReserved p0 p1 = false ∧ evexOther p0 p1 = none := by
  have h0' : p0.extractLsb' 2 2 = 0#2 ∧ p0.extractLsb' 0 2 = 1#2 := by clear h1; decide +revert
  have h1' : p1.extractLsb' 2 1 = 1#1 ∧ p1.extractLsb' 0 2 = 0#2 := by clear h0 h0'; decide +revert
  simp [evexOther, evexReserved, h0', h1']

/-- Settles O8: a reserved field is #UD before anything but another opcode is asked, `W = 1` and `L'L = 11` once map and `pp` are
right. -/
theorem evexReservedFieldsAreUd : Obligations.EvexReservedFieldsAreUd := by
  intro m p p₀ p₁ p₂ rest hb hw ht
  obtain ⟨s, ha, -, hdec⟩ := decode_evex hw hb (p₁ :: p₂ :: 0xC6#8 :: rest)
  obtain ⟨t, ht⟩ := Option.isSome_iff_exists.mp ht
  refine ⟨fun hres => ?_, fun h0 h1 hfield => ?_⟩
  · have hres' := (evexReserved_iff p₀ p₁).mpr hres
    refine hdec.trans ?_
    rw [decodeEvex_judged ha (evexOther_of_reserved hres') ht]
    simp [evexUd, hres']
  · refine hdec.trans ?_
    rw [decodeEvex_judged ha (evexFixed h0 h1).2 ht]
    rcases hfield with h | h <;> simp [evexUd, h]

/-- Settles O9: the opcode byte is asked first; with the fixed fields right, map and `pp` are. -/
theorem evexOtherInstructionsRefused : Obligations.EvexOtherInstructionsRefused := by
  intro m p p₀ p₁ p₂ rest hb hw
  refine ⟨fun op hop => ?_, fun hfix₀ hfix₁ => ?_⟩
  · obtain ⟨s, -, -, hdec⟩ := decode_evex hw hb (p₁ :: p₂ :: op :: rest)
    refine hdec.trans ?_
    rw [decodeEvex, if_pos hop]
  · obtain ⟨s, -, -, hdec⟩ := decode_evex hw hb (p₁ :: p₂ :: 0xC6#8 :: rest)
    refine ⟨fun hmap => hdec.trans (decodeEvex_other m s p₂ rest ?_), fun hmap =>
      ⟨fun hpp => hdec.trans (decodeEvex_other m s p₂ rest ?_), fun hpp => hdec.trans (decodeEvex_other m s p₂ rest ?_)⟩⟩
    · rcases hmap with h | h <;> simp [evexOther, evexReserved, hfix₀, hfix₁, h]
    · simp [evexOther, evexReserved, hfix₀, hfix₁, hmap, hpp]
    · rcases hpp with h | h <;> simp [evexOther, evexReserved, hfix₀, hfix₁, hmap, h]

/-- Settles O10: both are conditions of `evexUd`, `b = 1` for a register only. -/
theorem evexOperandFieldsAreUd : Obligations.EvexOperandFieldsAreUd := by
  intro m p p₀ p₁ p₂ hb hw h0 h1 _ _
  have hother := (evexFixed h0 h1).2
  refine ⟨fun modrm imm8 rest hreg hbc => ?_, fun rest hz haaa ht => ?_⟩
  · obtain ⟨s, ha, -, hdec⟩ := decode_evex hw hb (p₁ :: p₂ :: 0xC6#8 :: modrm :: imm8 :: rest)
    have ht : decodeTail 0#1 0#1 (modrm :: imm8 :: rest) =
        some ⟨modrm.extractLsb' 3 3, .reg (modrm.extractLsb' 0 3), imm8, rest⟩ := if_pos hreg
    refine hdec.trans ?_
    rw [decodeEvex_judged ha hother ht]
    simp [evexUd, TailRM.isReg, hbc]
  · obtain ⟨s, ha, -, hdec⟩ := decode_evex hw hb (p₁ :: p₂ :: 0xC6#8 :: rest)
    obtain ⟨t, ht⟩ := Option.isSome_iff_exists.mp ht
    refine hdec.trans ?_
    rw [decodeEvex_judged ha hother ht]
    simp [evexUd, hz, haaa]

/-! ### Ignored bits in Mode32 (30_encoding.md R95, R102) -/

theorem ignoredVexC4_eq_some {b₁ b₂ : Byte} (h : b₁.extractLsb' 5 1 = 0#1 ∨ b₂.extractLsb' 6 1 = 0#1) :
    ignoredVexC4 .mode32 b₁ b₂ = some .ignoredBit := if_pos ⟨rfl, h⟩

theorem ignoredEvex_eq_some {p₀ p₁ p₂ : Byte}
    (h : p₀.extractLsb' 5 1 = 0#1 ∨ p₀.extractLsb' 4 1 = 0#1 ∨ p₁.extractLsb' 6 1 = 0#1 ∨ p₂.extractLsb' 3 1 = 0#1) :
    ignoredEvex .mode32 p₀ p₁ p₂ = some .ignoredBit := by
  have hbits : p₀.extractLsb' 5 1 = 0#1 ∨ p₀.extractLsb' 4 1 = 0#1 → p₀.extractLsb' 4 2 ≠ 3#2 := by
    clear h
    decide +revert
  exact if_pos ⟨rfl, (or_assoc.mpr h).imp_left hbits⟩

/-- Settles O11: the spelling is #UD by none of its fields, so the refusal of the ignored bit is reached. -/
theorem ignoredBitsRefused : Obligations.IgnoredBitsRefused := by
  intro p rest t hw ht
  refine ⟨fun b₁ b₂ hmark hmap hpp hbits => ?_, fun p₀ p₁ p₂ hmark h0 h1 hW hll hz hbc hbits => ?_⟩
  · obtain ⟨s, ha, hud, hdec⟩ := decode_vexC4 hw (.inr ⟨rfl, hmark⟩) (b₂ :: 0xC6#8 :: rest)
    obtain ⟨u, hu, -, -⟩ := decodeTail_as ht (~~~(b₁.extractLsb' 6 1)) (~~~(b₁.extractLsb' 5 1))
    refine hdec.trans ?_
    rw [decodeVexC4, if_neg (by simp [hmap]), hpp, ignoredVexC4_eq_some hbits, decodeVexFields_zero]
    exact withTail_spelling _ ha hu hud _
  · obtain ⟨s, ha, hud, hdec⟩ := decode_evex hw (.inr ⟨rfl, hmark⟩) (p₁ :: p₂ :: 0xC6#8 :: rest)
    obtain ⟨hres, hother⟩ := evexFixed h0 h1
    have hbc' : t.rm.isReg = true → p₂.extractLsb' 4 1 ≠ 1#1 := fun h => by simp [hbc h]
    have hud' : evexUd s p₀ p₁ p₂ t.rm.isReg = false := by
      simpa [evexUd, hud, hres, hW, hll] using ⟨hz, hbc'⟩
    refine hdec.trans ?_
    rw [decodeEvex_ignoredBit ha hother ht hud' (ignoredEvex_eq_some hbits)]

end Sys2Proof
end

section
/-! SUPPORT. O3, whatever decodes is well-formed and as long as its length says (30_encoding.md R108, R114). A scan that forbids and
misspells nothing has taken one byte for each prefix it holds; the rest is counted by the header and by what is read after it. -/

namespace Sys2Proof

/-! ### How many bytes a scan has taken -/

/-- The prefixes a scan holds. -/
def PrefixScan.count (s : PrefixScan) : Nat := s.segs.length + s.addrSizes + s.rex.toList.length

theorem isPrefixByte_of_add {m : Mode} {s q : PrefixScan} {b : Byte} (h : s.add m b = some q) : IsPrefixByte m b := by
  by_contra hb
  obtain ⟨hlegacy, hrex⟩ := not_or.mp hb
  have hadd : s.add m b = s.leaveRex.addLegacy b := if_neg hrex
  simp only [Machine.legacyPrefixBytes, List.mem_cons, List.not_mem_nil, or_false, not_or] at hlegacy
  simp_all [PrefixScan.addLegacy, segOfByte]

/-- A legacy prefix that forbids nothing is one segment override or one 67H. -/
theorem seg_or_addrSize {b : Byte} (hb : b ∈ Machine.legacyPrefixBytes) (h66 : b ≠ 0x66#8) (hF2 : b ≠ 0xF2#8) (hF3 : b ≠ 0xF3#8)
    (hF0 : b ≠ 0xF0#8) : (segOfByte b).toList.length + [b].count 0x67#8 = 1 := by
  decide +revert

theorem add_plain {m : Mode} {s q : PrefixScan} {b : Byte} (h : s.add m b = some q) (hq : q.Plain q.rex) :
    s.Plain s.rex ∧ q.count = s.count + 1 := by
  obtain ⟨hlock, hrep, hop, hstray, -⟩ := hq
  rcases isPrefixByte_of_add h with hb | ⟨hm, hb⟩
  · rw [add_legacyPrefix m hb] at h
    obtain rfl := Option.some.inj h
    simp only [PrefixScan.leaveRex, Bool.or_eq_false_iff, beq_eq_false_iff_ne] at hlock hrep hop hstray
    have hrex : s.rex = none := Option.not_isSome_iff_eq_none.mp (by simp [hstray.2])
    have hone := seg_or_addrSize hb hop.2 hrep.1.2 hrep.2 hlock.2
    refine ⟨⟨hlock.1, hrep.1.1, hop.1, hstray.1, rfl⟩, ?_⟩
    simp only [PrefixScan.count, PrefixScan.leaveRex, List.length_append, hrex, Option.toList_none, List.length_nil]
    omega
  · rw [add_rex hm hb] at h
    obtain rfl := Option.some.inj h
    simp only [PrefixScan.leaveRex, Bool.or_eq_false_iff] at hlock hrep hop hstray
    have hrex : s.rex = none := Option.not_isSome_iff_eq_none.mp (by simp [hstray.2])
    exact ⟨⟨hlock, hrep, hop, hstray.1, rfl⟩, by simp [PrefixScan.count, PrefixScan.leaveRex, hrex]⟩

theorem scanPrefixes_count {m : Mode} {s q : PrefixScan} {bs r : List Byte} (h : scanPrefixes m s bs = (q, r))
    (hq : q.Plain q.rex) : s.Plain s.rex ∧ s.count + bs.length = q.count + r.length := by
  induction bs generalizing s with
  | nil =>
    cases h
    exact ⟨hq, rfl⟩
  | cons b bs ih =>
    cases hadd : s.add m b with
    | none =>
      rw [scanPrefixes_stop m s b bs hadd] at h
      cases h
      exact ⟨hq, rfl⟩
    | some s' =>
      rw [scanPrefixes_step m s s' b bs hadd] at h
      obtain ⟨hs', hlen⟩ := ih h
      obtain ⟨hs, hcount⟩ := add_plain hadd hs'
      refine ⟨hs, ?_⟩
      rw [List.length_cons]
      omega

/-- REX bytes are scanned in Mode64 only. -/
theorem scanPrefixes_rex {m : Mode} {s : PrefixScan} (bs : List Byte) (hs : s.rex.isSome = true → m = .mode64) :
    (scanPrefixes m s bs).1.rex.isSome = true → m = .mode64 := by
  induction bs generalizing s with
  | nil => exact hs
  | cons b bs ih =>
    cases hadd : s.add m b with
    | none => rwa [scanPrefixes_stop m s b bs hadd]
    | some q =>
      rw [scanPrefixes_step m s q b bs hadd]
      refine ih ?_
      rcases isPrefixByte_of_add hadd with hb | ⟨hm, -⟩
      · rw [add_legacyPrefix m hb] at hadd
        cases hadd
        simp [PrefixScan.leaveRex]
      · exact fun _ => hm

/-- Accepted prefixes fit the mode and are as many as the scan holds. -/
theorem accept_some {m : Mode} (hm : m.admitted = true) {s : PrefixScan} {q : Prefixes} (h : s.accept = some q)
    (ha : ¬ (m = .mode32 ∧ s.addrSizes ≠ 0)) : q.wf m = true ∧ q.length = s.segs.length + s.addrSizes := by
  have hle : s.addrSizes ≤ 1 := by
    by_contra hle
    rw [accept_eq_none (.inr (by omega))] at h
    cases h
  have hwf : decide (m = .mode64) = true ∨ s.addrSizes = 0 := by
    cases m with
    | mode64 => exact .inl rfl
    | mode32 => exact .inr (by simpa using ha)
    | _ => cases hm
  have hq : q = ⟨s.segs.head?, decide (s.addrSizes = 1)⟩ ∧ s.segs.head?.toList = s.segs := by
    unfold PrefixScan.accept at h
    split at h
    · next hs => simp_all
    · next hs => simp_all
    · cases h
  obtain ⟨rfl, hsegs⟩ := hq
  have haddr : s.addrSizes = 0 ∨ s.addrSizes = 1 := by omega
  refine ⟨?_, ?_⟩
  · rcases haddr with h0 | h1
    · simp [Prefixes.wf, h0]
    · simpa [Prefixes.wf, h1] using hwf
  · rw [← hsegs]
    cases s.segs.head? <;> rcases haddr with h0 | h1 <;> simp [Prefixes.length, *]

/-! ### Low register numbers without extension bits -/

/-- Every register number that `r/m` names needs no extension bit but those of the form. -/
def TailRM.isLow : TailRM → Bool
  | .reg _ => true
  | .mem f => f.isLow

theorem isLow4_zero_append (r : BitVec 3) : isLow4 (0#1 ++ r) = true := by decide +revert

theorem isLow5_zero_append (v : BitVec 4) : isLow5 (0#1 ++ v) = isLow4 v := by decide +revert

theorem decodeSib_isLow {md : BitVec 2} {sib : Byte} {bs r : List Byte} {f : MemForm}
    (h : decodeSib md 0#1 0#1 sib bs = some (f, r)) : f.isLow = true := by
  unfold decodeSib at h
  split at h
  · split at h
    · cases h
      exact isLow4_zero_append _
    · cases h
  · split at h
    · cases h
      exact Bool.and_eq_true_iff.mpr ⟨isLow4_zero_append _, isLow4_zero_append _⟩
    · cases h

theorem decodeMem_isLow {md : BitVec 2} {rm : BitVec 3} {bs r : List Byte} {f : MemForm}
    (h : decodeMem md rm 0#1 0#1 bs = some (f, r)) : f.isLow = true := by
  unfold decodeMem at h
  split at h
  · cases bs with
    | nil => cases h
    | cons sib bs => exact decodeSib_isLow h
  · split at h
    · split at h <;> cases h
      rfl
    · split at h
      · cases h
        exact isLow4_zero_append _
      · cases h

theorem decodeTail_isLow {bs : List Byte} {t : Tail} (h : decodeTail 0#1 0#1 bs = some t) : t.rm.isLow = true := by
  rcases bs with _ | ⟨modrm, bs⟩
  · cases h
  · simp only [decodeTail] at h
    split at h
    · cases bs <;> cases h
      rfl
    · split at h
      · next hm =>
        cases h
        exact decodeMem_isLow hm
      · cases h
      · cases h

/-! ### The operand a tail gives -/

theorem toRegMem_wf (rm : TailRM) (b : BitVec 1) : (rm.toRegMem b).wf = rm.wf := by cases rm <;> rfl

theorem toRegMem_length (rm : TailRM) (b : BitVec 1) : (rm.toRegMem b).length = rm.length := by cases rm <;> rfl

theorem toRegMem_isLow {rm : TailRM} (h : rm.isLow = true) : (rm.toRegMem 0#1).isLow = true := by
  cases rm with
  | reg r => exact isLow4_zero_append r
  | mem f => exact h

theorem toRegMemBcst_wf (rm : TailRM) (x b : BitVec 1) (bc : Bool) : (rm.toRegMemBcst x b bc).wf = rm.wf := by
  cases rm <;> cases bc <;> rfl

theorem toRegMemBcst_length (rm : TailRM) (x b : BitVec 1) (bc : Bool) : (rm.toRegMemBcst x b bc).length = rm.length := by
  cases rm <;> cases bc <;> rfl

theorem isLow5_zero_zero_append (r : BitVec 3) : isLow5 (0#1 ++ 0#1 ++ r) = true := by decide +revert

theorem toRegMemBcst_isLow {rm : TailRM} (h : rm.isLow = true) (bc : Bool) : (rm.toRegMemBcst 0#1 0#1 bc).isLow = true := by
  cases rm with
  | reg r => exact isLow5_zero_zero_append r
  | mem f => cases bc <;> exact h

/-! ### The families -/

/-- What is to be shown of a form decoded after a scan. -/
structure Counted (m : Mode) (s : PrefixScan) (bs : List Byte) (i : Instr) (rest : List Byte) : Prop where
  wf : i.wf m = true
  plain : s.Plain s.rex
  length : s.count + bs.length = i.length + rest.length

theorem decodeLegacy_counted {m : Mode} (hm : m.admitted = true) {s : PrefixScan} (hs : s.rex.isSome = true → m = .mode64)
    {bs rest : List Byte} {i : Instr} (h : decodeLegacy m s bs = .ok i rest) :
    Counted m s (0x0F#8 :: 0xC6#8 :: bs) i rest := by
  obtain ⟨t, q, ha, ht, hud, href, hq, hk⟩ := withTail_ok h
  obtain ⟨rfl, rfl⟩ := Decoded.ok.inj hk
  obtain ⟨hqw, hqlen⟩ := accept_some hm hq ha
  obtain ⟨htw, htlen⟩ := decodeTail_some ht
  obtain ⟨hlock, hrep⟩ := Bool.or_eq_false_iff.mp hud
  have hplain : s.opSize = false ∧ s.strayRex = false := by
    unfold PrefixScan.refusedLegacy at href
    cases hop : s.opSize <;> cases hst : s.strayRex <;> simp [hop, hst] at href ⊢
  refine ⟨Bool.and_eq_true_iff.mpr ⟨hm, ?_⟩, ⟨hlock, hrep, hplain.1, hplain.2, rfl⟩, ?_⟩
  · cases hrex : s.rex with
    | none =>
      rw [hrex] at ht
      simp [wfLegacy, rexBit, hqw, toRegMem_wf, htw, isLow4_zero_append, toRegMem_isLow (decodeTail_isLow ht)]
    | some v => simpa [wfLegacy, hqw, toRegMem_wf, htw] using hs (by simp [hrex])
  · simp only [Instr.length, instrLength, toRegMem_length, PrefixScan.count, List.length_cons, htlen, hqlen]
    cases s.rex <;> simp [rexHeader] <;> omega

/-- What a VEX form that decodes went through. -/
theorem decodeVexFields_ok {m : Mode} (hm : m.admitted = true) {s : PrefixScan} {ref : Option DecodeRefusal} {r x b : BitVec 1}
    {vvvv : BitVec 4} {l : BitVec 1} {pp : BitVec 2}
    {mk128 mk256 : Prefixes → BitVec 4 → BitVec 4 → RegMem → BitVec 8 → Instr} {bs rest : List Byte} {i : Instr}
    (h : decodeVexFields m s ref r x b vvvv l pp mk128 mk256 bs = .ok i rest) :
    ∃ t q, decodeTail x b bs = some t ∧ s.Plain none ∧ ref = none ∧ q.wf m = true ∧ q.length = s.count ∧
      i = (if l = 0#1 then mk128 else mk256) q (r ++ t.reg) vvvv (t.rm.toRegMem b) t.imm8 ∧ rest = t.rest := by
  unfold decodeVexFields at h
  split at h
  · cases h
  · obtain ⟨t, q, ha, ht, hud, href, hq, hk⟩ := withTail_ok h
    obtain ⟨hqw, hqlen⟩ := accept_some hm hq ha
    simp only [PrefixScan.udVex, Bool.or_eq_false_iff] at hud
    obtain ⟨⟨⟨⟨⟨hlock, hrep⟩, hop⟩, hrex⟩, hstray⟩, -⟩ := hud
    have hrex : s.rex = none := Option.not_isSome_iff_eq_none.mp (by simp [hrex])
    refine ⟨t, q, ht, ⟨hlock, hrep, hop, hstray, hrex⟩, href, hqw, by simp [PrefixScan.count, hqlen, hrex], ?_⟩
    split at hk <;> obtain ⟨rfl, rfl⟩ := Decoded.ok.inj hk <;> simp [*]

theorem vexC5_low {b1 : Byte} (h : b1.extractLsb' 6 2 = 3#2) :
    ~~~(b1.extractLsb' 7 1) = 0#1 ∧ isLow4 (~~~(b1.extractLsb' 3 4)) = true := by decide +revert

theorem vex_low {b1 : Byte} (h : b1.extractLsb' 6 2 = 3#2) :
    ~~~(b1.extractLsb' 7 1) = 0#1 ∧ ~~~(b1.extractLsb' 6 1) = 0#1 := by decide +revert

theorem isLow4_vvvv {b : Byte} (h : b.extractLsb' 6 1 ≠ 0#1) : isLow4 (~~~(b.extractLsb' 3 4)) = true := by decide +revert

theorem not_bit_of_ne_zero {v : BitVec 1} (h : v ≠ 0#1) : ~~~v = 0#1 := by decide +revert

theorem marked_of_vexMarked {m : Mode} (hm : m.admitted = true) {b : Byte} {bs : List Byte} (h : vexMarked m (b :: bs) = true) :
    m = .mode64 ∨ m = .mode32 ∧ b.extractLsb' 6 2 = 3#2 := by
  cases m with
  | mode64 => exact .inl rfl
  | mode32 => exact .inr ⟨rfl, by simpa [vexMarked] using h⟩
  | _ => cases hm

theorem vexC5Row_wf {m : Mode} (hm : m.admitted = true) {q : Prefixes} {dst src1 : BitVec 4} {src2 : RegMem} (imm8 : Byte)
    (l : BitVec 1) (hw : wfVexC5 m q dst src1 src2 = true) :
    ((if l = 0#1 then Instr.vshufpsVex128C5 else .vshufpsVex256C5) q dst src1 src2 imm8).wf m = true ∧
      ((if l = 0#1 then Instr.vshufpsVex128C5 else .vshufpsVex256C5) q dst src1 src2 imm8).length = instrLength q 3 src2.length := by
  split <;> exact ⟨Bool.and_eq_true_iff.mpr ⟨hm, hw⟩, rfl⟩

theorem decodeVexC5_counted {m : Mode} (hm : m.admitted = true) {s : PrefixScan} {bs rest : List Byte} {i : Instr}
    (hv : vexMarked m bs = true) (h : decodeVexC5 m s bs = .ok i rest) : Counted m s (0xC5#8 :: bs) i rest := by
  rcases bs with _ | ⟨b1, _ | ⟨op, bs⟩⟩
  · cases h
  · cases h
  · simp only [decodeVexC5] at h
    split at h
    · cases h
    · obtain ⟨t, q, ht, hplain, -, hqw, hqlen, rfl, rfl⟩ := decodeVexFields_ok hm h
      obtain ⟨htw, htlen⟩ := decodeTail_some ht
      have hw : wfVexC5 m q (~~~(b1.extractLsb' 7 1) ++ t.reg) (~~~(b1.extractLsb' 3 4)) (t.rm.toRegMem 0#1) = true := by
        rw [wfVexC5, hqw, toRegMem_wf, htw, toRegMem_isLow (decodeTail_isLow ht)]
        rcases marked_of_vexMarked hm hv with rfl | ⟨rfl, hmark⟩
        · rfl
        · obtain ⟨hr, hs⟩ := vexC5_low hmark
          rw [hr, hs, isLow4_zero_append]
          rfl
      obtain ⟨hwf, hlen⟩ := vexC5Row_wf hm t.imm8 (b1.extractLsb' 2 1) hw
      refine ⟨hwf, by rwa [hplain.rex], ?_⟩
      rw [hlen, instrLength, toRegMem_length]
      simp only [List.length_cons, htlen]
      omega

theorem vexC4Row_wf {m : Mode} (hm : m.admitted = true) {q : Prefixes} (w : Bool) {dst src1 : BitVec 4} {src2 : RegMem}
    (imm8 : Byte) (l : BitVec 1) (hw : wfVexC4 m q dst src1 src2 = true) :
    ((if l = 0#1 then (Instr.vshufpsVex128C4 · w) else (Instr.vshufpsVex256C4 · w)) q dst src1 src2 imm8).wf m = true ∧
      ((if l = 0#1 then (Instr.vshufpsVex128C4 · w) else (Instr.vshufpsVex256C4 · w)) q dst src1 src2 imm8).length =
        instrLength q 4 src2.length := by
  split <;> exact ⟨Bool.and_eq_true_iff.mpr ⟨hm, hw⟩, rfl⟩

theorem decodeVexC4_counted {m : Mode} (hm : m.admitted = true) {s : PrefixScan} {bs rest : List Byte} {i : Instr}
    (hv : vexMarked m bs = true) (h : decodeVexC4 m s bs = .ok i rest) : Counted m s (0xC4#8 :: bs) i rest := by
  rcases bs with _ | ⟨b1, _ | ⟨b2, _ | ⟨op, bs⟩⟩⟩
  · cases h
  · cases h
  · cases h
  · simp only [decodeVexC4] at h
    split at h
    · cases h
    · obtain ⟨t, q, ht, hplain, href, hqw, hqlen, rfl, rfl⟩ := decodeVexFields_ok hm h
      obtain ⟨htw, htlen⟩ := decodeTail_some ht
      have hw : wfVexC4 m q (~~~(b1.extractLsb' 7 1) ++ t.reg) (~~~(b2.extractLsb' 3 4))
          (t.rm.toRegMem (~~~(b1.extractLsb' 5 1))) = true := by
        rw [wfVexC4, hqw, toRegMem_wf, htw]
        rcases marked_of_vexMarked hm hv with rfl | ⟨rfl, hmark⟩
        · rfl
        · obtain ⟨hr, hx⟩ := vex_low hmark
          have hbits : b1.extractLsb' 5 1 ≠ 0#1 ∧ b2.extractLsb' 6 1 ≠ 0#1 := by
            rw [← not_or]
            intro hor
            rw [ignoredVexC4_eq_some hor] at href
            cases href
          have hb := not_bit_of_ne_zero hbits.1
          rw [hx, hb] at ht
          rw [hr, hb, isLow4_zero_append, isLow4_vvvv hbits.2, toRegMem_isLow (decodeTail_isLow ht)]
          rfl
      obtain ⟨hwf, hlen⟩ := vexC4Row_wf hm (b2.extractLsb' 7 1 == 1#1) t.imm8 (b2.extractLsb' 2 1) hw
      refine ⟨hwf, by rwa [hplain.rex], ?_⟩
      rw [hlen, instrLength, toRegMem_length]
      simp only [List.length_cons, htlen]
      omega

theorem evexRow_wf {m : Mode} (hm : m.admitted = true) (ll : BitVec 2) {q : Prefixes} {dst src1 : BitVec 5} {src2 : RegMemBcst}
    {aaa : BitVec 3} {z : Bool} (imm8 : Byte) (hw : wfEvex m q dst src1 src2 aaa z = true) :
    (evexRow ll q dst src1 src2 aaa z imm8).wf m = true ∧
      (evexRow ll q dst src1 src2 aaa z imm8).length = instrLength q 5 src2.length := by
  unfold evexRow
  split
  · exact ⟨Bool.and_eq_true_iff.mpr ⟨hm, hw⟩, rfl⟩
  · split <;> exact ⟨Bool.and_eq_true_iff.mpr ⟨hm, hw⟩, rfl⟩

/-- Without an ignored bit every extension bit of P0, P1 and P2 is that of number 0. -/
theorem ignoredEvex_none {p0 p1 p2 : Byte} (h : ignoredEvex .mode32 p0 p1 p2 = none) :
    (~~~(p0.extractLsb' 4 1) = 0#1 ∧ ~~~(p0.extractLsb' 5 1) = 0#1) ∧ isLow4 (~~~(p1.extractLsb' 3 4)) = true ∧
      ~~~(p2.extractLsb' 3 1) = 0#1 := by
  have hbits : p0.extractLsb' 4 2 = 3#2 ∧ p1.extractLsb' 6 1 ≠ 0#1 ∧ p2.extractLsb' 3 1 ≠ 0#1 := by
    simpa [ignoredEvex] using h
  obtain ⟨h0, h1, h2⟩ := hbits
  have h0' : ~~~(p0.extractLsb' 4 1) = 0#1 ∧ ~~~(p0.extractLsb' 5 1) = 0#1 := by
    clear h h1 h2
    decide +revert
  exact ⟨h0', isLow4_vvvv h1, not_bit_of_ne_zero h2⟩

theorem decodeEvex_counted {m : Mode} (hm : m.admitted = true) {s : PrefixScan} {bs rest : List Byte} {i : Instr}
    (hv : vexMarked m bs = true) (h : decodeEvex m s bs = .ok i rest) : Counted m s (0x62#8 :: bs) i rest := by
  rcases bs with _ | ⟨p0, _ | ⟨p1, _ | ⟨p2, _ | ⟨op, bs⟩⟩⟩⟩
  · cases h
  · cases h
  · cases h
  · cases h
  · simp only [decodeEvex] at h
    split at h
    · cases h
    · split at h
      · cases h
      · obtain ⟨t, q, ha, ht, hud, href, hq, hk⟩ := withTail_ok h
        obtain ⟨rfl, rfl⟩ := Decoded.ok.inj hk
        obtain ⟨hqw, hqlen⟩ := accept_some hm hq ha
        obtain ⟨htw, htlen⟩ := decodeTail_some ht
        simp only [evexUd, PrefixScan.udVex, Bool.or_eq_false_iff] at hud
        obtain ⟨⟨⟨⟨⟨⟨⟨⟨⟨hlock, hrep⟩, hop⟩, hrex⟩, hstray⟩, -⟩, -⟩, -⟩, hz⟩, -⟩ := hud
        have hrex : s.rex = none := Option.not_isSome_iff_eq_none.mp (by simp [hrex])
        have hmask : (!(p2.extractLsb' 7 1 == 1#1) || p2.extractLsb' 0 3 != 0#3) = true := by
          rw [bne, ← Bool.not_and, hz]
          rfl
        have hw : wfEvex m q (~~~(p0.extractLsb' 4 1) ++ ~~~(p0.extractLsb' 7 1) ++ t.reg)
            (~~~(p2.extractLsb' 3 1) ++ ~~~(p1.extractLsb' 3 4))
            (t.rm.toRegMemBcst (~~~(p0.extractLsb' 6 1)) (~~~(p0.extractLsb' 5 1)) (p2.extractLsb' 4 1 == 1#1))
            (p2.extractLsb' 0 3) (p2.extractLsb' 7 1 == 1#1) = true := by
          rw [wfEvex, hqw, toRegMemBcst_wf, htw, hmask]
          rcases marked_of_vexMarked hm hv with rfl | ⟨rfl, hmark⟩
          · rfl
          · obtain ⟨hr, hx⟩ := vex_low hmark
            obtain ⟨⟨hr', hb⟩, hv4, hv'⟩ := ignoredEvex_none href
            rw [hx, hb] at ht
            rw [hr, hx, hr', hb, hv', isLow5_zero_append, hv4, isLow5_zero_zero_append, toRegMemBcst_isLow (decodeTail_isLow ht)]
            rfl
        obtain ⟨hwf, hlen⟩ := evexRow_wf hm (p2.extractLsb' 5 2) t.imm8 hw
        refine ⟨hwf, ⟨hlock, hrep, hop, hstray, rfl⟩, ?_⟩
        rw [hlen, instrLength, toRegMemBcst_length]
        simp only [List.length_cons, htlen, PrefixScan.count, hqlen, hrex, Option.toList_none, List.length_nil]
        omega

theorem decodeFamily_counted {m : Mode} (hm : m.admitted = true) {s : PrefixScan} (hs : s.rex.isSome = true → m = .mode64)
    {bs rest : List Byte} {i : Instr} (h : decodeFamily m s bs = .ok i rest) : Counted m s bs i rest := by
  rcases bs with _ | ⟨b0, bs⟩
  · cases h
  · simp only [decodeFamily] at h
    split at h
    · next hb =>
      subst hb
      rcases bs with _ | ⟨op, bs⟩
      · cases h
      · simp only [decodeEscape] at h
        split at h
        · next hop =>
          subst hop
          exact decodeLegacy_counted hm hs h
        · cases h
    · split at h
      · next hb =>
        obtain ⟨rfl, hv⟩ := hb
        exact decodeVexC5_counted hm hv h
      · split at h
        · next hb =>
          obtain ⟨rfl, hv⟩ := hb
          exact decodeVexC4_counted hm hv h
        · split at h
          · next hb =>
            obtain ⟨rfl, hv⟩ := hb
            exact decodeEvex_counted hm hv h
          · cases h

/-- Settles O3: each family gives a well-formed instruction only, and the bytes taken by the scan, the header and the operand are
those its length counts. -/
theorem decodedIsWellFormed : Obligations.DecodedIsWellFormed := by
  intro m bs rest i h
  unfold decode at h
  split at h
  · next hm =>
    have hcounted := decodeFamily_counted hm (scanPrefixes_rex bs (by simp [PrefixScan.empty])) h
    obtain ⟨-, hlen⟩ := scanPrefixes_count (s := .empty) (Prod.mk.eta.symm) hcounted.plain
    have hempty : PrefixScan.empty.count = 0 := rfl
    have hlen' := hcounted.length
    exact ⟨hcounted.wf, by omega⟩
  · cases h

end Sys2Proof
end

section
/-! SUPPORT. O12 to O19, the fetch and the step: which bytes the decoder sees, what becomes of an instruction that is cut off by the
fifteenth byte or by one that cannot be fetched, and what a completed step changes (00_scope.md R16, 10_state.md R33 to R35,
30_encoding.md R109). -/

namespace Sys2Proof.Machine

/-! ### The window -/

/-- Bytes known from number `k` on stand at the front of what is fetched from there. -/
theorem fetchFrom_eq_append {s : State} {l : List Byte} {n k : Nat} (hl : l.length ≤ n)
    (h : ∀ j < l.length, s.fetchByte (k + j) = l[j]?) :
    s.fetchFrom n k = l ++ s.fetchFrom (n - l.length) (k + l.length) := by
  induction l generalizing n k with
  | nil => rfl
  | cons b l ih =>
    obtain ⟨n, rfl⟩ : ∃ n', n = n' + 1 := ⟨n - 1, by rw [List.length_cons] at hl; omega⟩
    have hb : s.fetchByte k = some b := h 0 (by simp)
    have hrest : ∀ j < l.length, s.fetchByte (k + 1 + j) = l[j]? := fun j hj => by
      have hj' := h (j + 1) (by simpa using hj)
      rwa [Nat.add_assoc, Nat.add_comm 1 j]
    simp only [State.fetchFrom, hb, ih (Nat.le_of_succ_le_succ hl) hrest, List.cons_append, List.length_cons,
      Nat.add_sub_add_right]
    rw [Nat.add_assoc, Nat.add_comm 1]

theorem window_eq_append {s : State} {l : List Byte} (hl : l.length ≤ 15) (h : ∀ j < l.length, s.fetchByte j = l[j]?) :
    s.window = l ++ s.fetchFrom (15 - l.length) l.length := by
  have hw := fetchFrom_eq_append (n := 15) (k := 0) hl (by simpa using h)
  rwa [Nat.zero_add] at hw

/-- The first `n` bytes of a list that is fetched that far. -/
theorem window_eq_take {s : State} {l : List Byte} {n : Nat} (hn : n ≤ 15) (hl : n ≤ l.length)
    (h : ∀ j < n, s.fetchByte j = l[j]?) : s.window = l.take n ++ s.fetchFrom (15 - n) n := by
  have hlen : (l.take n).length = n := by simpa using hl
  have hw := window_eq_append (s := s) (l := l.take n) (by rwa [hlen]) fun j hj => by
    rw [hlen] at hj
    rw [h j hj, List.getElem?_take_of_lt hj]
  rwa [hlen] at hw

theorem fetchFrom_of_none {s : State} (n : Nat) {k : Nat} (h : s.fetchByte k = none) : s.fetchFrom n k = [] := by
  cases n <;> simp [State.fetchFrom, h]

theorem fetchFrom_forall {s : State} {P : Byte → Prop} {n k : Nat} (h : ∀ j < n, ∃ b, s.fetchByte (k + j) = some b ∧ P b) :
    (s.fetchFrom n k).length = n ∧ ∀ b ∈ s.fetchFrom n k, P b := by
  induction n generalizing k with
  | zero => exact ⟨rfl, fun _ hb => by cases hb⟩
  | succ n ih =>
    obtain ⟨b, hb, hP⟩ := h 0 n.succ_pos
    obtain ⟨hlen, hall⟩ := ih (k := k + 1) fun j hj => by
      have hj' := h (j + 1) (Nat.succ_lt_succ hj)
      rwa [Nat.add_assoc, Nat.add_comm 1 j]
    rw [Nat.add_zero] at hb
    simp only [State.fetchFrom, hb]
    exact ⟨congrArg (· + 1) hlen, List.forall_mem_cons.mpr ⟨hP, hall⟩⟩

/-! ### What a step makes of the decoder's answer -/

theorem step_of_decode_ok {s : State} {i : Instr} {rest : List Byte} (hm : s.mode.admitted = true)
    (h : decode s.mode s.window = .ok i rest) : step s = exec i s := by
  have hfetch : s.fetch = .next i := by simp [State.fetch, hm, h]
  rw [step, hfetch, andThen_next]

theorem step_of_truncated {s : State} (hm : s.mode.admitted = true) (h : decode s.mode s.window = .truncated) :
    step s = if s.window.length = 15 then .fault .generalProtection else .refused .fetchOutside := by
  rw [step, State.fetch, if_pos hm, h]
  change andThen (if s.window.length = 15 then raise .generalProtection else .refused .fetchOutside) _ = _
  split <;> rfl

theorem step_unadmitted {s : State} (hm : s.mode.admitted = false) : step s = .refused .unadmittedMode := by
  rw [step, State.fetch, hm]
  rfl

/-- Settles O12: the fetch gives the decoded instruction and changes nothing. -/
theorem stepRunsDecodedInstruction : Obligations.StepRunsDecodedInstruction := fun _ _ _ hm h => step_of_decode_ok hm h

theorem encode_length (i : Instr) : (encode i).length = i.length ∧ 4 ≤ i.length ∧ i.length ≤ 14 := by
  cases i with
  | shufps p rex dst src2 imm8 => exact Laws.EncodeLength.shufps p rex dst src2 imm8
  | vshufpsVex128C5 p dst src1 src2 imm8 => exact Laws.EncodeLength.vshufpsVex128C5 p dst src1 src2 imm8
  | vshufpsVex128C4 p w dst src1 src2 imm8 => exact Laws.EncodeLength.vshufpsVex128C4 p w dst src1 src2 imm8
  | vshufpsVex256C5 p dst src1 src2 imm8 => exact Laws.EncodeLength.vshufpsVex256C5 p dst src1 src2 imm8
  | vshufpsVex256C4 p w dst src1 src2 imm8 => exact Laws.EncodeLength.vshufpsVex256C4 p w dst src1 src2 imm8
  | vshufpsEvex128 p dst src1 src2 aaa z imm8 => exact Laws.EncodeLength.vshufpsEvex128 p dst src1 src2 aaa z imm8
  | vshufpsEvex256 p dst src1 src2 aaa z imm8 => exact Laws.EncodeLength.vshufpsEvex256 p dst src1 src2 aaa z imm8
  | vshufpsEvex512 p dst src1 src2 aaa z imm8 => exact Laws.EncodeLength.vshufpsEvex512 p dst src1 src2 aaa z imm8

/-- Settles O13: the window begins with the encoding, which decodes whatever follows it. -/
theorem encodedInstructionSteps : Obligations.EncodedInstructionSteps := by
  intro s i hw h
  obtain ⟨hlen, -, h14⟩ := encode_length i
  have hwindow := window_eq_append (s := s) (l := encode i) (by omega) (by rwa [hlen])
  exact step_of_decode_ok (wf_admitted hw) (hwindow ▸ decodeOfEncode s.mode i _ hw)

/-! ### Instructions that do not end (30_encoding.md R109, 10_state.md R35) -/

theorem step_prefixBytes {s : State} (hm : s.mode.admitted = true)
    (h : ∀ j < 15, ∃ b, s.fetchByte j = some b ∧ b ∈ legacyPrefixBytes) : step s = .fault .generalProtection := by
  obtain ⟨hlen, hall⟩ := fetchFrom_forall (s := s) (n := 15) (k := 0) (by simpa using h)
  rw [step_of_truncated hm (decode_prefixBytes_truncated hm fun b hb => .inl (hall b hb))]
  exact if_pos hlen

/-- Settles O14: the first clause is the fetch; prefix bytes alone are no instruction; and a length is a sum of bounded parts. -/
theorem overLongInstruction : Obligations.OverLongInstruction := by
  refine ⟨fun s hm hlen h => ?_, fun s hm h => step_prefixBytes hm h, fun m i _ => (encode_length i).2.2, ?_⟩
  · rw [step_of_truncated hm h, if_pos hlen]
  · exact ⟨.vshufpsEvex128 ⟨some .fs, true⟩ 0 0 (.mem (.sib 0 0 0 (.disp32 0))) 0 false 0, by decide⟩

/-- Settles O15: the fifteen bytes of the window are a part cut off the instruction, which is truncated before its prefixes are
judged. -/
theorem overLongFormIsGp : Obligations.OverLongFormIsGp := by
  intro s i l hw hl h67 hlen h
  have hlen' : 15 < (l ++ encodeBody i).length := by rwa [List.length_append]
  have hwindow : s.window = (l ++ encodeBody i).take 15 := by
    simpa [State.fetchFrom] using window_eq_take (Nat.le_refl 15) hlen'.le h
  have hne : (l ++ encodeBody i).take 15 ≠ l ++ encodeBody i := fun e => by
    rw [List.take_eq_self_iff] at e
    omega
  have hcut := decode_cut hw (fun b hb => .inl (hl b hb)) h67 (List.take_prefix 15 _) hne
  rw [step_of_truncated (wf_admitted hw) (hwindow ▸ hcut), hwindow, if_pos]
  simpa using hlen'.le

theorem fetchAddr_mode64 {s : State} (j : Nat) (hm : s.mode = .mode64) :
    s.fetchAddr j = if s.rip.toNat + j < 2 ^ 64 ∧ canonical (s.rip + BitVec.ofNat 64 j) = true then
      some (s.rip + BitVec.ofNat 64 j) else none := by
  simp only [State.fetchAddr, hm]

theorem fetchAddr_mode32 {s : State} (j : Nat) (hm : s.mode = .mode32) :
    s.fetchAddr j = if s.segs.cs.base.toNat + s.rip.toNat + j < 2 ^ 32 then some (s.segs.cs.base + s.rip + BitVec.ofNat 64 j)
      else none := by
  simp only [State.fetchAddr, hm]

theorem fetchByte_mode64 {s : State} (j : Nat) (hm : s.mode = .mode64) :
    s.fetchByte j = if s.rip.toNat + j < 2 ^ 64 ∧ canonical (s.rip + BitVec.ofNat 64 j) = true then
      some (Memory.read s.mem (s.rip.toNat + j)) else none := by
  rw [State.fetchByte, fetchAddr_mode64 j hm]
  by_cases h : s.rip.toNat + j < 2 ^ 64 ∧ canonical (s.rip + BitVec.ofNat 64 j) = true
  · have haddr : (s.rip + BitVec.ofNat 64 j).toNat = s.rip.toNat + j := by
      obtain ⟨hlt, -⟩ := h
      simp only [BitVec.toNat_add, BitVec.toNat_ofNat]
      omega
    simp only [if_pos h, haddr]
  · simp only [if_neg h]

theorem fetchByte_mode32 {s : State} (j : Nat) (hm : s.mode = .mode32) :
    s.fetchByte j = if s.segs.cs.base.toNat + s.rip.toNat + j < 2 ^ 32 then
      some (Memory.read s.mem (s.segs.cs.base.toNat + s.rip.toNat + j)) else none := by
  rw [State.fetchByte, fetchAddr_mode32 j hm]
  by_cases h : s.segs.cs.base.toNat + s.rip.toNat + j < 2 ^ 32
  · have haddr : (s.segs.cs.base + s.rip + BitVec.ofNat 64 j).toNat = s.segs.cs.base.toNat + s.rip.toNat + j := by
      simp only [BitVec.toNat_add, BitVec.toNat_ofNat]
      omega
    simp only [if_pos h, haddr]
  · simp only [if_neg h]

/-- An instruction of which a byte cannot be fetched is cut off there. -/
theorem step_unfetchable {s : State} {i : Instr} {n : Nat} (hw : i.wf s.mode = true) (hn : n < i.length)
    (h : ∀ j < n, s.fetchByte j = (encode i)[j]?) (hnone : s.fetchByte n = none) : step s = .refused .fetchOutside := by
  obtain ⟨hlen, -, h14⟩ := encode_length i
  have hwindow : s.window = (encode i).take n := by
    simpa [fetchFrom_of_none _ hnone] using window_eq_take (by omega) (by omega) h
  have hne : (encode i).take n ≠ encode i := fun e => by
    rw [List.take_eq_self_iff] at e
    omega
  have hcut := decode_cut hw (isPrefixByte_of_admitted fun b hb => mem_prefixes_bytes hb)
    (fun hm => addrSize_notMem_prefixes_bytes (hm ▸ wf_prefixes hw)) (List.take_prefix n (encode i)) hne
  rw [step_of_truncated (wf_admitted hw) (hwindow ▸ hcut), hwindow, if_neg]
  rw [List.length_take]
  omega

/-- Settles O16: the test of `fetchAddr` is made on the exact sum, and an instruction with a byte that fails it is cut off. -/
theorem unfetchableInstructionRefused : Obligations.UnfetchableInstructionRefused :=
  ⟨fun _ j hm => fetchByte_mode64 j hm, fun _ j hm => fetchByte_mode32 j hm, fun _ _ _ hw hn h hnone => step_unfetchable hw hn h hnone⟩

/-! ### What a completed step changes -/

/-- Settles O17: the fetched instruction is well-formed with a length in bounds, and its meaning writes its destination and `rip`. -/
theorem stepWritesOneVectorAndRip : Obligations.StepWritesOneVectorAndRip := by
  intro s t h
  obtain ⟨i, hfetch, hexec⟩ := step_next h
  obtain ⟨-, rest, hdec⟩ := fetch_next hfetch
  obtain ⟨v, ht⟩ := exec_next hexec
  obtain ⟨-, h4, h14⟩ := encode_length i
  exact ⟨i, v, rest, hdec, (decodedIsWellFormed s.mode _ rest i hdec).1, h4, h14, ht⟩

/-- An instruction keeps the invariant: it changes neither memory, mode nor CR0, and its `rip` is reduced modulo 2^32 in Mode32. -/
theorem exec_keeps_invariant {i : Instr} {s t : State} (hs : Invariant s) (h : exec i s = .next t) : Invariant t := by
  obtain ⟨v, rfl⟩ := exec_next h
  obtain ⟨hmem, -, hpe, hreal⟩ := hs
  refine ⟨hmem, fun hm => ?_, hpe, hreal⟩
  rw [advance_rip, setVec_ripNext, ripNext_toNat, if_pos (show s.mode = .mode32 from hm)]
  exact Nat.mod_lt _ (by decide)

/-- Settles O18: a step that completes is the meaning of one instruction. -/
theorem stepKeepsInvariant : Obligations.StepKeepsInvariant := by
  intro s t hs h
  obtain ⟨i, -, hexec⟩ := step_next h
  exact exec_keeps_invariant hs hexec

/-- Settles O19. After reset memory lists nothing, and the mode is real-address with CR0.PE 0. -/
theorem invariantAtReset : Obligations.InvariantAtReset :=
  ⟨reset_wf, nofun, fun h => by cases h <;> contradiction, fun _ => by decide⟩

end Sys2Proof.Machine
end

section
/-! SUPPORT. O37 and O38, what a completed instruction leaves unchanged (10_state.md R34, R46), and O36, `VEX.W`. -/

namespace Sys2Proof.Machine

theorem sameExcept_setVec_advance (s : State) (r : BitVec 5) (v : Zmm) (n : Nat) :
    SameExcept r s ((s.setVec r v).advance n) :=
  ⟨fun q hq => setVec_vec_other s r q v hq, rfl, rfl, rfl, rfl, rfl, rfl, rfl, rfl, rfl, rfl, rfl, rfl, rfl, fun _ => rfl⟩

/-- Settles O37: the one write of an instruction is its destination register. -/
theorem instructionFrame : Obligations.InstructionFrame := by
  intro i s t h
  obtain ⟨v, rfl⟩ := exec_next h
  exact sameExcept_setVec_advance s (dstOf i) v i.length

/-- Settles O38: the write of the destination leaves `rip`, which is advanced once. -/
theorem ripAdvance : Obligations.RipAdvance := by
  intro i s t h
  obtain ⟨v, rfl⟩ := exec_next h
  rw [advance_rip, setVec_ripNext, ripNext_toNat]

/-- Settles O36: the arms of the three-byte rows do not take `W`. -/
theorem vexWIgnored : Obligations.VexWIgnored := fun _ _ _ _ _ _ _ _ => ⟨rfl, rfl⟩

end Sys2Proof.Machine
end

section
/-! SUPPORT. O50, O51, O52 and O21: every instruction begins with its enabling checks, so what they answer is its answer
(60_exceptions.md R203, R204, R213, R214, R218). -/

namespace Sys2Proof.Machine

/-- Every instruction begins with the checks of its form and its own fields. -/
theorem exec_enabled_first (i : Instr) (s : State) :
    ∃ k : Unit → Res State, exec i s = andThen (s.enabled i.form (maskFieldsOf i == some (0#3, true))) k := by
  cases i with
  | shufps | vshufpsVex128C5 | vshufpsVex128C4 | vshufpsVex256C5 | vshufpsVex256C4 => exact ⟨_, rfl⟩
  | vshufpsEvex128 p dst src1 src2 aaa z imm8 =>
    rw [show maskFieldsOf (.vshufpsEvex128 p dst src1 src2 aaa z imm8) = some (aaa, z) from rfl, maskUd_some]
    exact ⟨_, rfl⟩
  | vshufpsEvex256 p dst src1 src2 aaa z imm8 =>
    rw [show maskFieldsOf (.vshufpsEvex256 p dst src1 src2 aaa z imm8) = some (aaa, z) from rfl, maskUd_some]
    exact ⟨_, rfl⟩
  | vshufpsEvex512 p dst src1 src2 aaa z imm8 =>
    rw [show maskFieldsOf (.vshufpsEvex512 p dst src1 src2 aaa z imm8) = some (aaa, z) from rfl, maskUd_some]
    exact ⟨_, rfl⟩

theorem exec_of_disabled {i : Instr} {s : State} (h : Disabled i s) : exec i s = .fault .invalidOpcode := by
  obtain ⟨k, hk⟩ := exec_enabled_first i s
  rw [hk, enabled_ud s _ _ ((disabled_iff i s).mp h)]
  rfl

theorem enabled_of_not_disabled {i : Instr} {s : State} (h : ¬ Disabled i s) :
    s.enabled i.form (maskFieldsOf i == some (0#3, true)) =
      if s.cr0TS = true then .fault .deviceNotAvailable
      else if s.mode.admitted = true then .next () else .refused .unadmittedMode := by
  rw [disabled_iff] at h
  rw [State.enabled, if_neg h]
  rfl

/-- Settles O50: #UD is the first check. -/
theorem disabledFormIsUd : Obligations.DisabledFormIsUd := fun _ _ h => exec_of_disabled h

/-- Settles O51: #NM is the check after #UD, before the operand is looked at. -/
theorem taskSwitchedIsNm : Obligations.TaskSwitchedIsNm := by
  intro i s h hts
  obtain ⟨k, hk⟩ := exec_enabled_first i s
  rw [hk, enabled_of_not_disabled h, if_pos (show s.cr0TS = true from hts)]
  rfl

/-- Settles O52: the fetch refuses the mode, and so does an instruction after its two checks. -/
theorem otherModesRefused : Obligations.OtherModesRefused := by
  intro i s hm
  refine ⟨step_unadmitted hm, fun h hts => ?_⟩
  obtain ⟨k, hk⟩ := exec_enabled_first i s
  have hts' : ¬ s.cr0TS = true := Bool.eq_false_iff.mp hts
  rw [hk, enabled_of_not_disabled h, if_neg hts', if_neg (Bool.eq_false_iff.mp hm)]
  rfl

theorem reset_udState (f : Form) : State.reset.udState f = true := by cases f <;> rfl

/-- Settles O21: CR4 is 0 after reset, which disables each form, and the mode is real-address. -/
theorem resetDisablesEveryForm : Obligations.ResetDisablesEveryForm :=
  ⟨fun i => exec_of_disabled ((disabled_iff i _).mpr (by rw [reset_udState, Bool.true_or])), step_unadmitted rfl⟩

end Sys2Proof.Machine
end

section
/-! SUPPORT. O1, O20 and O22, words of the opcode table and the values after reset and INIT (95_test_vectors.md section 2.8,
10_state.md R45). -/

namespace Sys2Proof.Machine

/-- Settles O1, by running the decoder on each word. -/
theorem tableWordsDecode : Obligations.TableWordsDecode := by
  unfold Obligations.TableWordsDecode
  decide

theorem reset_vec (r : BitVec 5) : State.reset.vec r = 0#512 := by simp [State.vec, State.reset]

theorem reset_reg (r : BitVec 4) : State.reset.reg r = 0#64 := by simp [State.reg, State.reset]

/-- Settles O20: the registers are all 0, the other values are those written in `State.reset`. -/
theorem resetValues : Obligations.ResetValues :=
  ⟨fun r _ => by simp [reset_vec], rfl, rfl, rfl, rfl, rfl, rfl, rfl, rfl, rfl, rfl, rfl, fun r _ => by rw [reset_reg]; rfl⟩

theorem initSignal_reg (s : State) (r : BitVec 4) : s.initSignal.reg r = 0#64 := reset_reg r

/-- CR0 after INIT: CD and NW, bits 30 and 29, are kept, the others are those of 60000010H. -/
theorem initSignal_cr0_bit (s : State) {j : Nat} (hj : j < 32) :
    s.initSignal.cr0.getLsbD j = if j = 29 ∨ j = 30 then s.cr0.getLsbD j else (0x60000010#32).getLsbD j := by
  have hmask : ∀ j < 32, (0x60000000#32).getLsbD j = decide (j = 29 ∨ j = 30) := by decide
  have hrest : ∀ j < 32, (0x00000010#32).getLsbD j = (!decide (j = 29 ∨ j = 30) && (0x60000010#32).getLsbD j) := by decide
  rw [initSignal_cr0, BitVec.getLsbD_or, BitVec.getLsbD_and, hmask j hj, hrest j hj]
  by_cases h : j = 29 ∨ j = 30 <;> simp [h]

/-- Settles O22: the fields of `State.initSignal`, of which CR0 is read bit by bit. -/
theorem initSignalValues : Obligations.InitSignalValues := by
  rintro s _ rfl
  exact ⟨rfl, rfl, rfl, rfl, rfl, rfl, rfl, rfl, rfl, rfl, rfl, fun j hj => initSignal_cr0_bit s hj,
    fun r _ => by rw [initSignal_reg]; rfl, fun r _ => initSignal_reg s r⟩

end Sys2Proof.Machine
end

section
/-! SUPPORT. O24 to O35, the value an instruction writes: the shuffle by lanes and elements, that each form completes with it, and what
follows for particular operands (40_shufps_sse.md, 41_vshufps_vex.md, 42_vshufps_evex.md). -/

namespace Sys2Proof.Machine

/-! ### A vector is its elements and the bits above them -/

theorem zmm_ext {n : Nat} {v w : Zmm} (h : ∀ e < n, elem v e = elem w e)
    (habove : ∀ k, 32 * n ≤ k → v.getLsbD k = w.getLsbD k) : v = w := by
  apply BitVec.eq_of_getLsbD_eq
  intro k _
  by_cases hk : 32 * n ≤ k
  · exact habove k hk
  · have hbit (u : Zmm) : (elem u (k / 32)).getLsbD (k % 32) = u.getLsbD k := by
      simp [elem, Nat.mod_lt, Nat.div_add_mod]
    rw [← hbit v, ← hbit w, h (k / 32) (by omega)]

theorem zmm_ext_all {v w : Zmm} (h : ∀ e < 16, elem v e = elem w e) : v = w :=
  zmm_ext h fun k hk => by rw [BitVec.getLsbD_of_ge _ _ hk, BitVec.getLsbD_of_ge _ _ hk]

theorem extractLsb'_eq_zero {v : Zmm} {n m : Nat} (h : ∀ k, n ≤ k → v.getLsbD k = false) : v.extractLsb' n m = 0#m := by
  apply BitVec.eq_of_getLsbD_eq
  intro i hi
  simp [h]

/-! ### The shuffle (40_shufps_sse.md R131, R132, R134) -/

theorem shuffledElem_congr {a a' b b' : Nat → BitVec 32} {n : Nat} (ha : ∀ j < 4 * n, a j = a' j) (hb : ∀ j < 4 * n, b j = b' j)
    (imm8 : BitVec 8) {e : Nat} (he : e < 4 * n) : shuffledElem a b imm8 e = shuffledElem a' b' imm8 e := by
  have hlt := (imm8.extractLsb' (2 * (e % 4)) 2).isLt
  unfold shuffledElem
  rw [ha _ (by omega), hb _ (by omega)]

theorem shuffledElem_map (g : BitVec 32 → BitVec 32) (a b : Nat → BitVec 32) (imm8 : BitVec 8) (e : Nat) :
    shuffledElem (fun j => g (a j)) (fun j => g (b j)) imm8 e = g (shuffledElem a b imm8 e) := (apply_ite g _ _ _).symm

/-- Settles O24: the shuffle is built of its lanes. -/
theorem shuffleLanesAndElements : Obligations.ShuffleLanesAndElements := by
  intro n a b imm8 hn
  refine ⟨fun l hl => build_part 128 n _ l (by decide) (by omega) hl, fun e he => ?_,
    fun i hi => build_getLsbD_above _ (by decide) (by omega) hi⟩
  rw [shuffle_elem n a b imm8 e hn he, shuffledElem]
  split <;> rfl

/-- Settles O25: an element of the shuffle is an element of a source, at a place the data does not decide. -/
theorem shuffleMovesPatterns : Obligations.ShuffleMovesPatterns := by
  intro g n a b a' b' imm8 hn ha hb e he
  rw [shuffle_elem n a' b' imm8 e hn he, shuffle_elem n a b imm8 e hn he, shuffledElem_congr ha hb imm8 he, shuffledElem_map]

/-! ### An enabled form whose second source is read completes -/

section
variable {s : State} {f : Form} {p : Prefixes} {b : Zmm}

theorem execShufps_of_source {rex : Option Bool} {src2 : RegMem} (he : ShufpsEnabled .sse s)
    (hb : s.source2 .sse p (instrLength p (rexHeader rex) src2.length) src2 = .next b) (dst : BitVec 4) (imm8 : BitVec 8) :
    execShufps p rex dst src2 imm8 s =
      .next ((s.setVec (vreg dst) (legacyResult (s.vec (vreg dst)) b imm8)).advance
        (instrLength p (rexHeader rex) src2.length)) := by
  simp only [execShufps, enabled_of_premise s _ he, andThen_next, hb]

theorem vexOp_of_source {len : Nat} {src2 : RegMem} (he : ShufpsEnabled f s) (hb : s.source2 f p len src2 = .next b)
    (dst src1 : BitVec 4) (imm8 : BitVec 8) :
    vexOp f p len dst src1 src2 imm8 s =
      .next ((s.setVec (vreg dst) (shuffle f.lanes (s.vec (vreg src1)) b imm8)).advance len) := by
  simp only [vexOp, enabled_of_premise s _ he, andThen_next, hb]

theorem evexOp_of_source {src2 : RegMemBcst} {aaa : BitVec 3} {z : Bool} (he : ShufpsEnabled f s) (hz : z = true → aaa ≠ 0#3)
    (hb : s.source2Evex f p (instrLength p 5 src2.length) src2 = .next b) (dst src1 : BitVec 5) (imm8 : BitVec 8) :
    evexOp f p dst src1 src2 aaa z imm8 s =
      .next ((s.setVec dst (s.masked f.kl aaa z (s.vec dst) (shuffle f.lanes (s.vec src1) b imm8))).advance
        (instrLength p 5 src2.length)) := by
  have hud : (z && aaa == 0#3) = false := by
    cases z with
    | false => rfl
    | true => simpa using hz rfl
  simp only [evexOp, hud, enabled_of_premise s _ he, andThen_next, hb]

end

/-! ### Values (40_shufps_sse.md R135, 41_vshufps_vex.md R150, R151, 42_vshufps_evex.md R175 to R177) -/

theorem lanes_le_four (f : Form) : f.lanes ≤ 4 := by cases f <;> decide

theorem kl_eq_lanes (f : Form) : f.kl = 4 * f.lanes := by cases f <;> rfl

theorem elem_shuffle_of_source {f : Form} (a : Zmm) {b : Zmm} {x : Nat → BitVec 32} (hb : ∀ j < f.kl, elem b j = x j)
    (imm8 : BitVec 8) {e : Nat} (he : e < f.kl) : elem (shuffle f.lanes a b imm8) e = shuffledElem (elem a) x imm8 e := by
  rw [kl_eq_lanes] at hb he
  rw [shuffle_elem f.lanes a b imm8 e (lanes_le_four f) he]
  exact shuffledElem_congr (fun _ _ => rfl) hb imm8 he

theorem vexOp_result {f : Form} {p : Prefixes} {len : Nat} {src2 : RegMem} {s : State} {x : Nat → BitVec 32}
    (he : ShufpsEnabled f s) (hx : Source2Is s f p len src2 x) (dst src1 : BitVec 4) (imm8 : BitVec 8) :
    ∃ v : Zmm, vexOp f p len dst src1 src2 imm8 s = .next ((s.setVec (vreg dst) v).advance len) ∧
      (∀ e < f.kl, elem v e = shuffledElem (elem (s.vec (vreg src1))) x imm8 e) ∧ ∀ k, f.vl ≤ k → v.getLsbD k = false := by
  obtain ⟨b, hb, hbx⟩ := source2_next s f p len src2 x hx
  exact ⟨_, vexOp_of_source he hb dst src1 imm8, fun e hlt => elem_shuffle_of_source _ hbx imm8 hlt,
    fun k hk => shuffle_getLsbD_above hk _ _ _⟩

theorem evexOp_result {f : Form} {p : Prefixes} {src2 : RegMemBcst} {aaa : BitVec 3} {z : Bool} {s : State}
    {x : Nat → BitVec 32} (he : ShufpsEnabled f s) (hz : z = true → aaa ≠ 0#3)
    (hx : Source2EvexIs s f p (instrLength p 5 src2.length) src2 x) (dst src1 : BitVec 5) (imm8 : BitVec 8) :
    ∃ v : Zmm, evexOp f p dst src1 src2 aaa z imm8 s = .next ((s.setVec dst v).advance (instrLength p 5 src2.length)) ∧
      (∀ e < f.kl, elem v e =
        if aaa = 0#3 ∨ (s.mask aaa).getLsbD e = true then shuffledElem (elem (s.vec src1)) x imm8 e
        else if z = true then 0#32 else elem (s.vec dst) e) ∧
      ∀ k, f.vl ≤ k → v.getLsbD k = false := by
  obtain ⟨b, hb, hbx⟩ := source2Evex_next s f p _ src2 x hx
  refine ⟨_, evexOp_of_source he hz hb dst src1 imm8, fun e hlt => ?_, fun k hk => masked_getLsbD_above hk _ _ _ _ _⟩
  rw [masked_elem s f.kl aaa z _ _ e (kl_le_sixteen f) hlt, elem_shuffle_of_source _ hbx imm8 hlt]
  simp [State.writes]

/-- Settles O26. -/
theorem shufpsResult : Obligations.ShufpsResult := by
  intro p rex dst src2 imm8 s x he hx
  obtain ⟨b, hb, hbx⟩ := source2_next s _ p _ src2 x hx
  refine ⟨_, execShufps_of_source he hb dst imm8, fun e hlt => ?_, legacyResult_above _ b imm8⟩
  rw [legacyResult_elem _ b imm8 e hlt]
  exact shuffledElem_congr (n := 1) (fun _ _ => rfl) hbx imm8 hlt

/-- Settles O27: both spellings are the one VEX operation at their own length. -/
theorem vex128Result : Obligations.Vex128Result := by
  intro i p w dst src1 src2 imm8 s x hi he hx
  rcases hi with rfl | rfl <;>
  · obtain ⟨v, hv, helem, habove⟩ := vexOp_result he hx dst src1 imm8
    exact ⟨v, hv, helem, extractLsb'_eq_zero habove⟩

/-- Settles O28: both spellings are the one VEX operation at their own length. -/
theorem vex256Result : Obligations.Vex256Result := by
  intro i p w dst src1 src2 imm8 s x hi he hx
  rcases hi with rfl | rfl <;>
  · obtain ⟨v, hv, helem, habove⟩ := vexOp_result he hx dst src1 imm8
    exact ⟨v, hv, helem, extractLsb'_eq_zero habove⟩

/-- Settles O29, the EVEX operation at 128 bits. -/
theorem evex128Result : Obligations.Evex128Result := by
  rintro p dst src1 src2 aaa z imm8 s x _ rfl he hz hx
  obtain ⟨v, hv, helem, habove⟩ := evexOp_result he hz hx dst src1 imm8
  exact ⟨v, hv, helem, extractLsb'_eq_zero habove⟩

/-- Settles O30, the EVEX operation at 256 bits. -/
theorem evex256Result : Obligations.Evex256Result := by
  rintro p dst src1 src2 aaa z imm8 s x _ rfl he hz hx
  obtain ⟨v, hv, helem, habove⟩ := evexOp_result he hz hx dst src1 imm8
  exact ⟨v, hv, helem, extractLsb'_eq_zero habove⟩

/-- Settles O31, the EVEX operation at 512 bits. -/
theorem evex512Result : Obligations.Evex512Result := by
  rintro p dst src1 src2 aaa z imm8 s x _ rfl he hz hx
  obtain ⟨v, hv, helem, -⟩ := evexOp_result he hz hx dst src1 imm8
  exact ⟨v, hv, helem⟩

/-! ### One register as both operands (40_shufps_sse.md R135 corner case (a)) -/

theorem setVec_vec_self (s : State) (r : BitVec 5) : s.setVec r (s.vec r) = s := by
  simp [State.setVec, State.vec]

/-- E4H names the four elements in their order. -/
theorem shuf128_identity (a : BitVec 128) : shuf128 a a 0xE4#8 = a := by
  simp only [shuf128, select4_eq]
  change a.extractLsb' 96 32 ++ a.extractLsb' 64 32 ++ a.extractLsb' 32 32 ++ a.extractLsb' 0 32 = a
  rw [BitVec.extractLsb'_append_extractLsb'_eq_extractLsb' (show 96 = 64 + 32 from rfl),
    BitVec.extractLsb'_append_extractLsb'_eq_extractLsb' (show 64 = 32 + 32 from rfl),
    BitVec.extractLsb'_append_extractLsb'_eq_extractLsb' (show 32 = 0 + 32 from rfl)]
  exact BitVec.extractLsb'_eq_self

theorem legacyResult_identity (v : Zmm) : legacyResult v v 0xE4#8 = v := by
  rw [legacyResult, shuf128_identity, lane,
    BitVec.extractLsb'_append_extractLsb'_eq_extractLsb' (show 128 = 128 * 0 + 128 from rfl)]
  exact BitVec.extractLsb'_eq_self

/-- An element of a register shuffled with itself is the element of that register that the control names. -/
theorem elem_legacyResult_self (v : Zmm) (imm8 : BitVec 8) {e : Nat} (he : e < 4) :
    elem (legacyResult v v imm8) e = elem v (imm8.extractLsb' (2 * e) 2).toNat := by
  rw [legacyResult_elem v v imm8 e he, shuffledElem, ite_self, Nat.mod_eq_of_lt he, Nat.div_eq_of_lt he]
  simp

/-- Settles O32: the old register is both sources of the value written. -/
theorem selfShuffleReadsFirst : Obligations.SelfShuffleReadsFirst := by
  intro p rex d s he
  have hexec (imm8 : BitVec 8) := execShufps_of_source (rex := rex) he (source2_reg s .sse p _ d) d imm8
  have hreverse : ∀ e < 4, ((0x1B#8).extractLsb' (2 * e) 2).toNat = 3 - e := by decide
  have hfirst : ∀ e < 4, ((0x00#8).extractLsb' (2 * e) 2).toNat = 0 := by decide
  refine ⟨?_, ⟨_, hexec 0x1B, fun e hlt => ?_⟩, ⟨_, hexec 0x00, fun e hlt => ?_⟩⟩
  · have h := hexec 0xE4#8
    rwa [legacyResult_identity, setVec_vec_self] at h
  · rw [advance_vec, setVec_vec_same]
    exact (elem_legacyResult_self _ 0x1B#8 hlt).trans (congrArg _ (hreverse e hlt))
  · rw [advance_vec, setVec_vec_same]
    exact (elem_legacyResult_self _ 0x00#8 hlt).trans (congrArg _ (hfirst e hlt))

/-! ### Particular operands of the EVEX forms (42_vshufps_evex.md R171, R176, R177) -/

theorem elem_zero (e : Nat) : elem 0#512 e = 0#32 := BitVec.extractLsb'_zero

/-- With every mask bit 0 the whole register is kept or zeroed. -/
theorem masked_of_empty {s : State} {aaa : BitVec 3} (ha : aaa ≠ 0#3) (hmask : ∀ j < 16, (s.mask aaa).getLsbD j = false) (z : Bool)
    (old v : Zmm) : s.masked (Form.kl .evex512) aaa z old v = if z = true then 0#512 else old := by
  refine zmm_ext_all fun e he => ?_
  rw [masked_elem_off he ha (hmask e he)]
  split
  · exact (elem_zero e).symm
  · rfl

/-- Settles O33: no element is written. -/
theorem evex512EmptyMask : Obligations.Evex512EmptyMask := by
  intro p dst src1 src2 aaa imm8 s x he ha hmask hx
  obtain ⟨b, hb, -⟩ := source2Evex_next s _ p _ src2 x hx
  have hexec (z : Bool) : exec (.vshufpsEvex512 p dst src1 src2 aaa z imm8) s =
      .next ((s.setVec dst (if z = true then 0#512 else s.vec dst)).advance (instrLength p 5 src2.length)) := by
    rw [← masked_of_empty ha hmask]
    exact evexOp_of_source he (fun _ => ha) hb dst src1 imm8
  refine ⟨?_, hexec true⟩
  rw [hexec false, if_neg Bool.false_ne_true, setVec_vec_self]

theorem vex256_result {i : Instr} {p : Prefixes} {w : Bool} {dst src1 : BitVec 4} {src2 : RegMem} {imm8 : BitVec 8} {s : State}
    {x : Nat → BitVec 32} (hi : i = .vshufpsVex256C5 p dst src1 src2 imm8 ∨ i = .vshufpsVex256C4 p w dst src1 src2 imm8)
    (he : ShufpsEnabled .vex256 s) (hx : Source2Is s .vex256 p i.length src2 x) :
    ∃ v : Zmm, exec i s = .next ((s.setVec (vreg dst) v).advance i.length) ∧
      (∀ e < 8, elem v e = shuffledElem (elem (s.vec (vreg src1))) x imm8 e) ∧ ∀ k, 256 ≤ k → v.getLsbD k = false := by
  rcases hi with rfl | rfl <;> exact vexOp_result he hx dst src1 imm8

/-- Settles O34: the values written agree element by element and are 0 above. -/
theorem evex256AgreesWithVex256 : Obligations.Evex256AgreesWithVex256 := by
  intro i p q w dst src1 src2 src2' imm8 s x hi he he' hx hx'
  obtain ⟨v, hv, helem, habove⟩ := vex256_result hi he hx
  obtain ⟨v', hv', helem', habove'⟩ :=
    evexOp_result (aaa := 0#3) (z := false) he' nofun hx' (vreg dst) (vreg src1) imm8
  have hvv : v = v' := by
    refine zmm_ext (n := 8) (fun e hlt => ?_) fun k hk => (habove k hk).trans (habove' k hk).symm
    rw [helem e hlt, helem' e hlt, if_pos (.inl rfl)]
  exact ⟨_, _, hv, hv', by rw [hvv]; rfl⟩

/-- A shuffle whose second source repeats one element looks at `imm8[3:0]` only. -/
theorem shuffle_broadcast {f : Form} (a : Zmm) (d : BitVec 32) {imm₁ imm₂ : BitVec 8}
    (h : imm₁.extractLsb' 0 4 = imm₂.extractLsb' 0 4) :
    shuffle f.lanes a (build 32 f.kl fun _ => d) imm₁ = shuffle f.lanes a (build 32 f.kl fun _ => d) imm₂ := by
  have hlow : imm₁.extractLsb' 0 2 = imm₂.extractLsb' 0 2 ∧ imm₁.extractLsb' 2 2 = imm₂.extractLsb' 2 2 := by
    have hpart (imm : BitVec 8) : imm.extractLsb' 0 2 = (imm.extractLsb' 0 4).extractLsb' 0 2 ∧
        imm.extractLsb' 2 2 = (imm.extractLsb' 0 4).extractLsb' 2 2 := by decide +revert
    rw [(hpart imm₁).1, (hpart imm₁).2, h, ← (hpart imm₂).1, ← (hpart imm₂).2]
    exact ⟨rfl, rfl⟩
  have hconst (j : Nat) (hj : j < f.kl) : elem (build 32 f.kl fun _ => d) j = d := elem_build f.kl _ j (kl_le_sixteen f) hj
  refine zmm_ext (n := f.kl) (fun e he => ?_) fun k hk => ?_
  · rw [elem_shuffle_of_source a hconst imm₁ he, elem_shuffle_of_source a hconst imm₂ he, shuffledElem, shuffledElem]
    split
    · have hpos : e % 4 = 0 ∨ e % 4 = 1 := by omega
      rcases hpos with h0 | h1
      · simp only [h0, Nat.mul_zero, hlow.1]
      · simp only [h1, Nat.mul_one, hlow.2]
    · rfl
  · rw [kl_mul_eq_vl] at hk
    rw [shuffle_getLsbD_above hk, shuffle_getLsbD_above hk]

theorem evexOp_broadcast (f : Form) (p : Prefixes) (dst src1 : BitVec 5) (m : MemForm) (aaa : BitVec 3) (z : Bool)
    {imm₁ imm₂ : BitVec 8} (s : State) (h : imm₁.extractLsb' 0 4 = imm₂.extractLsb' 0 4) :
    evexOp f p dst src1 (.bcst m) aaa z imm₁ s = evexOp f p dst src1 (.bcst m) aaa z imm₂ s := by
  simp only [evexOp, State.source2Evex, andThen_assoc, andThen_next, shuffle_broadcast _ _ h]

/-- Settles O35: the controls `imm8[7:4]` choose among equal elements. -/
theorem broadcastIgnoresHighControls : Obligations.BroadcastIgnoresHighControls := fun p dst src1 m aaa z _ _ s h =>
  ⟨evexOp_broadcast .evex128 p dst src1 m aaa z s h, evexOp_broadcast .evex256 p dst src1 m aaa z s h,
    evexOp_broadcast .evex512 p dst src1 m aaa z s h⟩

end Sys2Proof.Machine
end

section
/-! SUPPORT. O43 to O46, what an instruction does not read (10_state.md R26, R31, R36 to R38, 60_exceptions.md R230). A change of
state that leaves the checks, the memory operand, the vector registers and the mask bits as they are carries over to the outcome:
shown once for every change and every instruction. -/

namespace Sys2Proof.Machine

/-! ### Related outcomes -/

/-- Two outcomes of the same kind: results related by `R`, faults by `F`, refusals equal. -/
inductive Related {α β : Type} (R : α → β → Prop) (F : Fault → Fault → Prop) : Res α → Res β → Prop
  | next {a : α} {b : β} (h : R a b) : Related R F (.next a) (.next b)
  | fault {f g : Fault} (h : F f g) : Related R F (.fault f) (.fault g)
  | refused (r : Refusal) : Related R F (.refused r) (.refused r)

section
variable {α β γ δ : Type} {R : α → β → Prop} {S : γ → δ → Prop} {F : Fault → Fault → Prop}

theorem related_refl (hF : ∀ f, F f f) (o : Res α) : Related Eq F o o := by
  cases o with
  | next a => exact .next rfl
  | fault f => exact .fault (hF f)
  | refused r => exact .refused r

theorem related_next {a : α} {o : Res β} (h : Related R F (.next a) o) : ∃ b, o = .next b ∧ R a b := by
  cases h with
  | next h => exact ⟨_, rfl, h⟩

theorem related_fault {f : Fault} {o : Res β} (h : Related R F (.fault f) o) : ∃ g, o = .fault g ∧ F f g := by
  cases h with
  | fault h => exact ⟨_, rfl, h⟩

theorem related_refused {r : Refusal} {o : Res β} (h : Related R F (.refused r) o) : o = .refused r := by
  cases h with
  | refused => rfl

theorem related_andThen {o : Res α} {o' : Res β} {f : α → Res γ} {f' : β → Res δ} (ho : Related R F o o')
    (hf : ∀ a b, R a b → Related S F (f a) (f' b)) : Related S F (andThen o f) (andThen o' f') := by
  cases ho with
  | next h => exact hf _ _ h
  | fault h => exact .fault h
  | refused r => exact .refused r

end

/-! ### A change of state that an instruction does not see -/

/-- The change `g` of `s` leaves everything that instruction `i` reads, up to the faults of its memory operand, which `F` relates,
and is left alone by what it writes. -/
structure Unseen (g : State → State) (F : Fault → Fault → Prop) (i : Instr) (s : State) : Prop where
  fault_refl : ∀ f, F f f
  enabled : ∀ f ud, (g s).enabled f ud = s.enabled f ud
  vec : ∀ r, (g s).vec r = s.vec r
  operand : ∀ c m, memoryOf i = some (c, m) →
    Related Eq F (s.memOperand c i.prefixes i.length m) ((g s).memOperand c i.prefixes i.length m)
  masked : ∀ aaa z, maskFieldsOf i = some (aaa, z) → ∀ old t,
    (g s).masked i.form.kl aaa z old t = s.masked i.form.kl aaa z old t
  writes : ∀ r v n, ((g s).setVec r v).advance n = g ((s.setVec r v).advance n)

section
variable {g : State → State} {F : Fault → Fault → Prop} {s : State}

theorem source2_related {f : Form} {p : Prefixes} {len : Nat} {src2 : RegMem} (hvec : ∀ r, (g s).vec r = s.vec r)
    (h : ∀ c m, regMemAccess f src2 = some (c, m) → Related Eq F (s.memOperand c p len m) ((g s).memOperand c p len m)) :
    Related Eq F (s.source2 f p len src2) ((g s).source2 f p len src2) := by
  cases src2 with
  | reg r => exact .next (hvec (vreg r)).symm
  | mem m => exact h _ m rfl

theorem source2Evex_related {f : Form} {p : Prefixes} {len : Nat} {src2 : RegMemBcst} (hF : ∀ f, F f f)
    (hvec : ∀ r, (g s).vec r = s.vec r)
    (h : ∀ c m, regMemBcstAccess f src2 = some (c, m) → Related Eq F (s.memOperand c p len m) ((g s).memOperand c p len m)) :
    Related Eq F (s.source2Evex f p len src2) ((g s).source2Evex f p len src2) := by
  cases src2 with
  | reg r => exact .next (hvec r).symm
  | mem m => exact h _ m rfl
  | bcst m => exact related_andThen (h _ m rfl) fun a b hab => by rw [hab]; exact related_refl hF _

/-- Every instruction runs alike after a change it does not see, and the change carries over to its next state. -/
theorem exec_related {i : Instr} (h : Unseen g F i s) : Related (fun t t' => t' = g t) F (exec i s) (exec i (g s)) := by
  have checks {f : Form} {ud : Bool} : Related Eq F (s.enabled f ud) ((g s).enabled f ud) := by
    rw [h.enabled]
    exact related_refl h.fault_refl _
  have vex {f : Form} {p : Prefixes} {len : Nat} {dst src1 : BitVec 4} {src2 : RegMem} {imm8 : BitVec 8}
      (hop : ∀ c m, regMemAccess f src2 = some (c, m) → Related Eq F (s.memOperand c p len m) ((g s).memOperand c p len m)) :
      Related (fun t t' => t' = g t) F (vexOp f p len dst src1 src2 imm8 s) (vexOp f p len dst src1 src2 imm8 (g s)) := by
    refine related_andThen checks fun _ _ _ => related_andThen (source2_related h.vec hop) fun a b hab => ?_
    rw [hab, h.vec]
    exact .next (h.writes _ _ _)
  have evex {f : Form} {p : Prefixes} {dst src1 : BitVec 5} {src2 : RegMemBcst} {aaa : BitVec 3} {z : Bool} {imm8 : BitVec 8}
      (hop : ∀ c m, regMemBcstAccess f src2 = some (c, m) → Related Eq F (s.memOperand c p (instrLength p 5 src2.length) m)
        ((g s).memOperand c p (instrLength p 5 src2.length) m))
      (hmask : ∀ old t, (g s).masked f.kl aaa z old t = s.masked f.kl aaa z old t) :
      Related (fun t t' => t' = g t) F (evexOp f p dst src1 src2 aaa z imm8 s) (evexOp f p dst src1 src2 aaa z imm8 (g s)) := by
    refine related_andThen checks fun _ _ _ => related_andThen (source2Evex_related h.fault_refl h.vec hop) fun a b hab => ?_
    rw [hab, h.vec, h.vec, hmask]
    exact .next (h.writes _ _ _)
  cases i with
  | shufps p rex dst src2 imm8 =>
    refine related_andThen checks fun _ _ _ => related_andThen (source2_related h.vec h.operand) fun a b hab => ?_
    rw [hab, h.vec]
    exact .next (h.writes _ _ _)
  | vshufpsVex128C5 | vshufpsVex128C4 | vshufpsVex256C5 | vshufpsVex256C4 => exact vex h.operand
  | vshufpsEvex128 | vshufpsEvex256 | vshufpsEvex512 => exact evex h.operand (h.masked _ _ rfl)

end

/-- Where the faults are equal too, the outcome is the old one with the change made. -/
theorem eq_mapNext_of_related {g : State → State} {o o' : Res State} (h : Related (fun t t' => t' = g t) Eq o o') :
    o' = mapNext g o := by
  cases h with
  | next h => exact congrArg _ h
  | fault h => exact congrArg _ h.symm
  | refused r => rfl

/-! ### Opmask registers (10_state.md R26) -/

theorem masked_congr {s t : State} {kl : Nat} {aaa : BitVec 3} (h : ∀ j < kl, t.writes aaa j = s.writes aaa j) (z : Bool)
    (old v : Zmm) : t.masked kl aaa z old v = s.masked kl aaa z old v :=
  build_congr fun j hj => by rw [h j hj]

theorem writes_congr {s t : State} {aaa : BitVec 3} {j : Nat}
    (h : aaa ≠ 0#3 → (t.mask aaa).getLsbD j = (s.mask aaa).getLsbD j) : t.writes aaa j = s.writes aaa j := by
  by_cases ha : aaa = 0#3
  · simp [State.writes, ha]
  · rw [State.writes, State.writes, h ha]

/-- Settles O43: the masking loop is all that looks at an opmask register. -/
theorem opmaskBitsRead : Obligations.OpmaskBitsRead := by
  intro i s k' h
  refine eq_mapNext_of_related (g := fun t => { t with k := k' }) (exec_related ?_)
  exact {
    fault_refl := fun _ => rfl
    enabled := fun _ _ => rfl
    vec := fun _ => rfl
    operand := fun _ _ _ => related_refl (fun _ => rfl) _
    masked := fun aaa z hi => masked_congr (fun j hj => writes_congr fun ha => h aaa z hi ha j hj) z
    writes := fun _ _ _ => rfl }

/-! ### General registers (10_state.md R31) -/

theorem effAddr_congr {s : State} {g : Vector Word 16} (a32 : Bool) (len n : Nat) {m : MemForm}
    (h : ∀ r ∈ memAddrRegs m, State.reg { s with gpr := g } r = s.reg r) :
    State.effAddr { s with gpr := g } a32 len n m = s.effAddr a32 len n m := by
  have hindex {sc : BitVec 2} {i : BitVec 4} (hi : i ≠ 4#4 → State.reg { s with gpr := g } i = s.reg i) :
      State.indexPart { s with gpr := g } a32 sc i = s.indexPart a32 sc i := by
    by_cases h4 : i = 4#4
    · rw [State.indexPart, State.indexPart, if_pos h4, if_pos h4]
    · rw [State.indexPart, State.indexPart, if_neg h4, if_neg h4, State.regN, State.regN, hi h4]
  cases m with
  | base b d => rw [State.effAddr, State.effAddr, State.regN, State.regN, h b (by simp [memAddrRegs])]
  | sib sc i b d =>
    rw [State.effAddr, State.effAddr, State.regN, State.regN, h b (by simp only [memAddrRegs]; split <;> simp),
      hindex fun h4 => h i (by simp [memAddrRegs, h4])]
  | sibNoBase sc i d => rw [State.effAddr, State.effAddr, hindex fun h4 => h i (by simp [memAddrRegs, h4])]
  | dispOnly d => rfl

/-- Settles O44: a general register is read for an effective address only. -/
theorem generalRegistersRead : Obligations.GeneralRegistersRead := by
  intro i s g h
  refine eq_mapNext_of_related (g := fun t => { t with gpr := g }) (exec_related ?_)
  exact {
    fault_refl := fun _ => rfl
    enabled := fun _ _ => rfl
    vec := fun _ => rfl
    operand := fun c m hi => by
      have haddr := effAddr_congr (s := s) (g := g) (s.addr32 i.prefixes) i.length c.dispScale (m := m) fun r hr =>
        h r (by simpa [addrRegsOf, hi] using hr)
      have hop : State.memOperand { s with gpr := g } c i.prefixes i.length m = s.memOperand c i.prefixes i.length m := by
        simp only [State.memOperand, State.operandAddr]
        rw [show State.addr32 { s with gpr := g } i.prefixes = s.addr32 i.prefixes from rfl, haddr]
        rfl
      rw [hop]
      exact related_refl (fun _ => rfl) _
    masked := fun _ _ _ _ _ => rfl
    writes := fun _ _ _ => rfl }

/-! ### EFLAGS, MXCSR and x87 (10_state.md R36 to R38) -/

/-- The vectors of 60_exceptions.md R202. -/
theorem fault_vector_mem (f : Fault) : f.vector ∈ [6, 7, 12, 13, 14] := by cases f <;> simp [Fault.vector]

theorem fault_vector_ne {n : Nat} (hn : n ∉ [6, 7, 12, 13, 14]) (f : Fault) : f.vector ≠ n := fun h => hn (h ▸ fault_vector_mem f)

/-- Settles O45: nothing looks at these registers. -/
theorem flagsAndFloatStateUntouched : Obligations.FlagsAndFloatStateUntouched := by
  intro i s e m x
  refine ⟨eq_mapNext_of_related (g := fun t => { t with eflags := e, mxcsr := m, x87 := x }) (exec_related ?_),
    fun f _ => fault_vector_ne (by decide) f⟩
  exact {
    fault_refl := fun _ => rfl
    enabled := fun _ _ => rfl
    vec := fun _ => rfl
    operand := fun _ _ _ => related_refl (fun _ => rfl) _
    masked := fun _ _ _ _ _ => rfl
    writes := fun _ _ _ => rfl }

/-! ### The operand read, answer by answer -/

section
variable {s : State} {a : Word} {n : Nat}

theorem memRead_of_fault {f : Fault} (h : s.memFault a n = some f) : s.memRead a n = .fault f := by
  simp [State.memRead, h, raise]

theorem memRead_of_io (h : s.memFault a n = none) (hio : s.touchesIo a n = true) :
    s.memRead a n = .refused .readSideEffects := by
  simp [State.memRead, h, hio]

theorem memRead_of_readable (h : s.memFault a n = none) (hio : s.touchesIo a n = false) :
    s.memRead a n = .next (s.bytesAt a n) := by
  simp [State.memRead, h, hio]

end

/-! ### The privilege level (60_exceptions.md R230) -/

section
variable {s : State} (h : ∀ r ∈ s.translation, r.cpls = 0#4 ∨ r.cpls = 15#4) (c : BitVec 2)
include h

theorem regionAt_cpl (a : Word) (n b : Nat) : State.regionAt { s with cpl := c } a n b = s.regionAt a n b := by
  have hlevel : ∀ r ∈ s.translation, r.cpls.getLsbD c.toNat = r.cpls.getLsbD s.cpl.toNat := by
    have hbits : ∀ l : BitVec 2, (15#4).getLsbD l.toNat = true := by decide
    intro r hr
    rcases h r hr with h0 | h15
    · simp [h0]
    · rw [h15, hbits, hbits]
  exact List.find?_congr fun r hr => by rw [Region.covers, hlevel r hr]; rfl

theorem answerAt_cpl (a : Word) (n b : Nat) : State.answerAt { s with cpl := c } a n b = s.answerAt a n b := by
  simp only [State.answerAt, regionAt_cpl h c]

/-- Whether a byte faults does not depend on the level, only the code of its fault may. -/
theorem byteFault_cpl (a : Word) (n b : Nat) :
    State.byteFault { s with cpl := c } a n b = none ↔ s.byteFault a n b = none := by
  simp only [State.byteFault, answerAt_cpl h c]
  cases s.answerAt a n b <;> simp [Answer.faultAt]

theorem memFault_cpl (a : Word) (n : Nat) : State.memFault { s with cpl := c } a n = none ↔ s.memFault a n = none := by
  simp only [memFault_eq_none, byteFault_cpl h c]

theorem touchesIo_cpl (a : Word) (n : Nat) : State.touchesIo { s with cpl := c } a n = s.touchesIo a n := by
  simp only [State.touchesIo, answerAt_cpl h c]

/-- The read goes alike at both levels, but for which fault it reports. -/
theorem memRead_cpl {F : Fault → Fault → Prop} (a : Word) (n : Nat) (hF : (∃ f, s.memFault a n = some f) → ∀ f f', F f f') :
    Related Eq F (s.memRead a n) (State.memRead { s with cpl := c } a n) := by
  have hfault := memFault_cpl h c a n
  have hio := touchesIo_cpl h c a n
  rcases memRead_cases s a n with ⟨f, h1, h2⟩ | ⟨h1, h2, h3⟩ | ⟨h1, h2, h3⟩
  · obtain ⟨f', hf'⟩ := Option.ne_none_iff_exists'.mp (hfault.not.mpr (by simp [h1]))
    rw [h2, memRead_of_fault hf']
    exact .fault (hF ⟨f, h1⟩ f f')
  · rw [h3, memRead_of_io (hfault.mpr h1) (hio.trans h2)]
    exact .refused _
  · rw [h3, memRead_of_readable (hfault.mpr h1) (hio.trans h2)]
    exact .next rfl

theorem exec_cpl {F : Fault → Fault → Prop} (hrefl : ∀ f, F f f)
    (hF : (∃ a n f, s.memFault a n = some f) → ∀ f f', F f f') (i : Instr) :
    Related (fun t t' => t' = { t with cpl := c }) F (exec i s) (exec i { s with cpl := c }) := by
  refine exec_related (g := fun t => { t with cpl := c }) ?_
  exact {
    fault_refl := hrefl
    enabled := fun _ _ => rfl
    vec := fun _ => rfl
    operand := fun a m _ => related_andThen (related_refl hrefl (s.operandAddr a i.prefixes i.length m)) fun x y hxy => by
      subst hxy
      exact memRead_cpl h c x a.bytes fun ⟨f, hf⟩ => hF ⟨x, a.bytes, f, hf⟩
    masked := fun _ _ _ _ _ => rfl
    writes := fun _ _ _ => rfl }

end

/-- No byte faults where no case of `Translate` answers with a fault. -/
theorem memFault_of_no_fault {s : State} (h : ∀ r ∈ s.translation, r.answer = .readable ∨ r.answer = .readSideEffects) (a : Word)
    (n : Nat) : s.memFault a n = none := by
  rw [memFault_eq_none]
  intro b _
  unfold State.byteFault State.answerAt
  cases hr : s.regionAt a n b with
  | none => rfl
  | some r => rcases h r (List.mem_of_find?_eq_some hr) with hans | hans <;> simp [hans, Answer.faultAt]

/-- Settles O46: the level is looked at by `Translate` only, and by an answer of it only for the U/S bit of a code. -/
theorem privilegeIrrelevant : Obligations.PrivilegeIrrelevant := by
  intro i s c h
  have hany := exec_cpl h c (F := fun _ _ => True) (fun _ => trivial) (fun _ _ _ => trivial) i
  refine ⟨fun t ht => ?_, fun r hr => ?_, fun f hf => ?_, fun hno f hf => ?_⟩
  · rw [ht] at hany
    obtain ⟨u, hu, rfl⟩ := related_next hany
    exact hu
  · rw [hr] at hany
    exact related_refused hany
  · rw [hf] at hany
    obtain ⟨f', hf', -⟩ := related_fault hany
    exact ⟨f', hf'⟩
  · have hsame := eq_mapNext_of_related (exec_cpl h c (F := Eq) (fun _ => rfl)
      (fun ⟨a, n, f, hf⟩ => by rw [memFault_of_no_fault hno a n] at hf; cases hf) i)
    rw [hsame, hf]
    rfl

end Sys2Proof.Machine
end

section
/-! SUPPORT. O42 and O47 to O49, addresses and byte order: the factor of disp8*N, little-endian reads, the effective address as a sum
of numbers, and the segment of an operand (20_memory.md R52, R55, 30_encoding.md R82, R103 to R107). -/

namespace Sys2Proof.Machine

theorem regMemAccess_eq {f : Form} {src2 : RegMem} {c : Access} {m : MemForm} (h : regMemAccess f src2 = some (c, m)) :
    c = accessOf f := by
  cases src2 <;> cases h
  rfl

theorem regMemBcstAccess_dispScale {f : Form} (hf : (accessOf f).dispScale = (accessOf f).bytes) {src2 : RegMemBcst} {c : Access}
    {m : MemForm} (h : regMemBcstAccess f src2 = some (c, m)) : c.dispScale = c.bytes := by
  cases src2 <;> cases h
  · exact hf
  · rfl

/-- Settles O42: an EVEX operand is scaled by its own size, a broadcast one by that of its doubleword. -/
theorem displacementScale : Obligations.DisplacementScale := by
  refine ⟨rfl, rfl, rfl, rfl, rfl, rfl, rfl, fun i c m h => ?_⟩
  cases i with
  | shufps | vshufpsVex128C5 | vshufpsVex128C4 | vshufpsVex256C5 | vshufpsVex256C4 =>
    rw [regMemAccess_eq h]
    rfl
  | vshufpsEvex128 | vshufpsEvex256 | vshufpsEvex512 => exact regMemBcstAccess_dispScale rfl h

/-! ### Byte order (20_memory.md R52) -/

theorem takeDisp32_cons (b₀ b₁ b₂ b₃ : Byte) (rest : List Byte) :
    takeDisp32 (b₀ :: b₁ :: b₂ :: b₃ :: rest) = some (b₃ ++ b₂ ++ b₁ ++ b₀, rest) := rfl

/-- Settles O47: a value read is built of its bytes, and a displacement is its four bytes, the last most significant. -/
theorem littleEndian : Obligations.LittleEndian := by
  refine ⟨fun s a n v hn h => ?_, fun b₀ b₁ b₂ b₃ rest => ⟨_, takeDisp32_cons b₀ b₁ b₂ b₃ rest, ?_, ?_, ?_, ?_⟩⟩
  · obtain ⟨-, rfl⟩ := (memRead_next_iff s a n v).mp h
    exact ⟨fun b hb => build_part 8 n _ b (by decide) (by omega) hb,
      fun k hk => build_getLsbD_above _ (by decide) (by omega) hk⟩
  · exact BitVec.extractLsb'_append_eq_right
  · rw [BitVec.extractLsb'_append_eq_of_le (by decide)]
    exact BitVec.extractLsb'_append_eq_right
  · rw [BitVec.extractLsb'_append_eq_of_le (by decide), BitVec.extractLsb'_append_eq_of_le (by decide)]
    exact BitVec.extractLsb'_append_eq_right
  · rw [BitVec.extractLsb'_append_eq_of_le (by decide), BitVec.extractLsb'_append_eq_of_le (by decide),
      BitVec.extractLsb'_append_eq_of_le (by decide)]
    exact BitVec.extractLsb'_eq_self

/-! ### The effective address as a number (20_memory.md R55) -/

/-- The address size as a modulus. -/
def addrModulus (a32 : Bool) : Int := if a32 = true then 2 ^ 32 else 2 ^ 64

/-- The word holds the number `z` modulo the address size. -/
def HoldsMod (a32 : Bool) (v : Word) (z : Int) : Prop := (v.toNat : Int) ≡ z [ZMOD addrModulus a32]

theorem addrModulus_dvd (a32 : Bool) : addrModulus a32 ∣ 2 ^ 64 := by cases a32 <;> decide

/-- A number that a word holds modulo 2^64 it holds modulo either address size. -/
theorem holdsMod_of_modEq {v : Word} {z : Int} (h : (v.toNat : Int) ≡ z [ZMOD 2 ^ 64]) (a32 : Bool) : HoldsMod a32 v z :=
  h.of_dvd (addrModulus_dvd a32)

section
variable {a32 : Bool} {v w : Word} {y z : Int}

theorem truncAddr_toNat (a32 : Bool) (v : Word) : ((truncAddr a32 v).toNat : Int) = v.toNat % addrModulus a32 := by
  cases a32 with
  | true =>
    simp only [truncAddr, low32, addrModulus, if_true, BitVec.toNat_setWidth]
    omega
  | false =>
    have := v.isLt
    simp only [truncAddr, addrModulus, Bool.false_eq_true, if_false]
    omega

theorem toNat_truncAddr_of_holdsMod (h : HoldsMod a32 v z) : ((truncAddr a32 v).toNat : Int) = z % addrModulus a32 :=
  (truncAddr_toNat a32 v).trans h

theorem holdsMod_truncAddr (a32 : Bool) (v : Word) : HoldsMod a32 (truncAddr a32 v) v.toNat := by
  rw [HoldsMod, truncAddr_toNat]
  exact Int.mod_modEq _ _

theorem holdsMod_add (hv : HoldsMod a32 v y) (hw : HoldsMod a32 w z) : HoldsMod a32 (v + w) (y + z) := by
  have hsum : HoldsMod a32 (v + w) (v.toNat + w.toNat) := holdsMod_of_modEq (by
    rw [BitVec.toNat_add, Int.natCast_emod, Int.natCast_add]
    exact Int.mod_modEq _ _) a32
  exact hsum.trans (hv.add hw)

theorem holdsMod_shiftLeft (hv : HoldsMod a32 v z) (n : Nat) : HoldsMod a32 (v <<< n) (z * 2 ^ n) := by
  have hshift : HoldsMod a32 (v <<< n) (v.toNat * 2 ^ n) := holdsMod_of_modEq (by
    rw [BitVec.toNat_shiftLeft, Nat.shiftLeft_eq, Int.natCast_emod, Int.natCast_mul, Int.natCast_pow]
    exact Int.mod_modEq _ _) a32
  exact hshift.trans (hv.mul_right _)

theorem toNat_modEq_toInt (v : Word) : (v.toNat : Int) ≡ v.toInt [ZMOD 2 ^ 64] := by
  rw [BitVec.toInt_eq_toNat_bmod]
  exact (Int.bmod_emod (m := 2 ^ 64)).symm

theorem signExtend_modEq {n : Nat} (hn : n ≤ 64) (d : BitVec n) : ((d.signExtend 64).toNat : Int) ≡ d.toInt [ZMOD 2 ^ 64] := by
  rw [← BitVec.toInt_signExtend_of_le hn]
  exact toNat_modEq_toInt _

theorem holdsMod_dispValue (a32 : Bool) (n : Nat) (d : Disp) : HoldsMod a32 (dispValue n d) (dispInt n d) := by
  refine holdsMod_of_modEq ?_ a32
  cases d with
  | absent => exact rfl
  | disp8 d =>
    rw [dispValue, dispInt, BitVec.toNat_mul, Int.natCast_emod, Int.natCast_mul, BitVec.toNat_ofNat, Int.natCast_emod]
    exact (Int.mod_modEq _ _).trans ((signExtend_modEq (by decide) d).mul (Int.mod_modEq _ _))
  | disp32 d => exact signExtend_modEq (by decide) d

theorem holdsMod_ofNat (a32 : Bool) (n : Nat) : HoldsMod a32 (BitVec.ofNat 64 n) n :=
  holdsMod_of_modEq (by
    rw [BitVec.toNat_ofNat, Int.natCast_emod]
    exact Int.mod_modEq _ _) a32

theorem holdsMod_regN (s : State) (a32 : Bool) (r : BitVec 4) : HoldsMod a32 (s.regN a32 r) (s.reg r).toNat := holdsMod_truncAddr a32 _

theorem holdsMod_indexPart (s : State) (a32 : Bool) (sc : BitVec 2) (i : BitVec 4) :
    HoldsMod a32 (s.indexPart a32 sc i) (indexNat s sc i) := by
  unfold State.indexPart indexNat
  split
  · exact rfl
  · have h := holdsMod_shiftLeft (holdsMod_regN s a32 i) sc.toNat
    simpa using h

end

/-- Settles O48: every part of the sum holds its number modulo the address size, and the sum is reduced once more. -/
theorem effectiveAddressSum : Obligations.EffectiveAddressSum := by
  rintro s a32 len n _ rfl
  refine ⟨fun b d => ?_, fun sc i b d => ?_, fun sc i d => ?_, fun d hm => ?_, fun d hm => ?_, fun p hm => ?_, fun p hm => ?_⟩
  · exact toNat_truncAddr_of_holdsMod (holdsMod_add (holdsMod_regN s a32 b) (holdsMod_dispValue a32 n d))
  · exact toNat_truncAddr_of_holdsMod
      (holdsMod_add (holdsMod_add (holdsMod_regN s a32 b) (holdsMod_indexPart s a32 sc i)) (holdsMod_dispValue a32 n d))
  · exact toNat_truncAddr_of_holdsMod (holdsMod_add (holdsMod_indexPart s a32 sc i) (holdsMod_dispValue a32 n (.disp32 d)))
  · rw [State.effAddr, if_pos hm]
    exact toNat_truncAddr_of_holdsMod
      (holdsMod_add (holdsMod_add (holdsMod_of_modEq rfl a32) (holdsMod_ofNat a32 len)) (holdsMod_dispValue a32 n (.disp32 d)))
  · rw [State.effAddr, if_neg (by simp [hm])]
    exact BitVec.toNat_setWidth_of_le (by decide)
  · simp [State.addr32, hm]
  · simp [State.addr32, hm]

/-! ### The segment (10_state.md R32) -/

/-- Settles O49: the cases of `segFor` and `segBase`. -/
theorem operandSegment : Obligations.OperandSegment := by
  refine ⟨fun _ _ => rfl, fun _ _ _ _ => rfl, fun _ _ _ => rfl, fun _ => rfl, fun s m a =>
    ⟨rfl, by simp [State.segFor], by simp [State.segFor], fun hm g hg => ?_, fun hm => ?_, fun hm g => ?_⟩⟩
  · have hne : g ≠ .fs ∧ g ≠ .gs := by
      constructor <;> rintro rfl <;> simp at hg
    simp [State.segFor, State.segBase, hm, hne]
  · simp [State.segBase, State.seg]
  · simp [State.segFor, State.segBase, hm]

end Sys2Proof.Machine
end

section
/-! SUPPORT. O53 to O59, the faults and refusals of a memory operand, in the order in which its address is checked and its bytes are
read (20_memory.md R56 to R63, R68, 60_exceptions.md R202, R205 to R207, R218). -/

namespace Sys2Proof.Machine

/-! ### A ready instruction answers as its memory operand does -/

section
variable {i : Instr} {c : Access} {m : MemForm} {s : State} (hi : memoryOf i = some (c, m)) (hr : Ready i s)
include hi hr

theorem exec_of_operandAddr_fault {f : Fault} (h : s.operandAddr c i.prefixes i.length m = .fault f) : exec i s = .fault f := by
  obtain ⟨k, hk⟩ := exec_ready hi hr
  rw [hk, State.memOperand, h]
  rfl

theorem exec_of_operandAddr_refused {r : Refusal} (h : s.operandAddr c i.prefixes i.length m = .refused r) :
    exec i s = .refused r := by
  obtain ⟨k, hk⟩ := exec_ready hi hr
  rw [hk, State.memOperand, h]
  rfl

/-- Once the address passes its checks, the read decides. -/
theorem exec_of_legal (hl : AddressLegal s c i.prefixes i.length m) (ha : AddressAligned s c i.prefixes i.length m) :
    ∃ k : Zmm → State, exec i s =
      andThen (s.memRead (s.linear c i.prefixes i.length m) c.bytes) fun b => .next (k b) := by
  obtain ⟨k, hk⟩ := exec_ready hi hr
  exact ⟨k, by rw [hk, State.memOperand, operandAddr_next s c _ _ m hl ha, andThen_next]⟩

/-- A fault of the segment or canonical check, where no unaligned base is refused first. -/
theorem exec_of_illegal {f : Fault} (hb : i.form = .sse → (s.segBase (s.segFor i.prefixes m)).toNat % 16 = 0)
    (h : s.linAddr (s.segFor i.prefixes m) (s.effAddr (s.addr32 i.prefixes) i.length c.dispScale m) c.bytes = .fault f) :
    exec i s = .fault f :=
  exec_of_operandAddr_fault hi hr (operandAddr_illegal s c _ _ m f (fun hc => hb ((memoryOf_access hi).2.2.mp hc)) h)

end

/-! ### Canonical addresses (20_memory.md R58) -/

theorem canonical_iff (a : Word) : canonical a = true ↔ ∀ k, 47 ≤ k → k < 64 → a.getLsbD k = a.getLsbD 63 := by
  have hbit (k : Nat) (hk : k < 17) : (a.extractLsb' 47 17).getLsbD k = a.getLsbD (47 + k) := by
    rw [BitVec.getLsbD_extractLsb', decide_eq_true hk, Bool.true_and]
  have hcases : canonical a = true ↔ a.extractLsb' 47 17 = 0#17 ∨ a.extractLsb' 47 17 = BitVec.allOnes 17 := by
    simp only [canonical, Bool.or_eq_true, beq_iff_eq]
    exact Iff.rfl
  rw [hcases]
  constructor
  · rintro (h | h) k hk hk'
    · rw [show k = 47 + (k - 47) by omega, ← hbit _ (by omega), ← hbit 16 (by decide), h, BitVec.getLsbD_zero, BitVec.getLsbD_zero]
    · rw [show k = 47 + (k - 47) by omega, ← hbit _ (by omega), ← hbit 16 (by decide), h, BitVec.getLsbD_allOnes,
        BitVec.getLsbD_allOnes, decide_eq_true (show k - 47 < 17 by omega)]
      rfl
  · intro h
    cases h63 : a.getLsbD 63 with
    | false =>
      refine .inl (BitVec.eq_of_getLsbD_eq fun k hk => ?_)
      rw [hbit k hk, h (47 + k) (by omega) (by omega), h63, BitVec.getLsbD_zero]
    | true =>
      refine .inr (BitVec.eq_of_getLsbD_eq fun k hk => ?_)
      rw [hbit k hk, h (47 + k) (by omega) (by omega), h63, BitVec.getLsbD_allOnes, decide_eq_true hk]

theorem byteAddr_mode64 {s : State} (hm : s.mode = .mode64) (a : Word) (b : Nat) : s.byteAddr a b = a + BitVec.ofNat 64 b :=
  if_neg (by simp [hm])

theorem linAddr_noncanonical {s : State} (hm : s.mode = .mode64) {g : Seg} {ea : Word} {n : Nat}
    (h : ∃ b < n, canonical (s.segBase g + ea + BitVec.ofNat 64 b) = false) : s.linAddr g ea n = .fault (segFault g) := by
  obtain ⟨b, hb, hcan⟩ := h
  have hall : ¬ s.allCanonical (s.segBase g + ea) n = true := fun hall => by
    have := List.all_eq_true.mp hall b (List.mem_range.mpr hb)
    rw [byteAddr_mode64 hm, hcan] at this
    cases this
  rw [State.linAddr, if_pos hm, if_neg hall]
  rfl

/-- Settles O53: in Mode64 the check of an address is that every byte is canonical. -/
theorem nonCanonicalOperandFaults : Obligations.NonCanonicalOperandFaults :=
  ⟨canonical_iff, fun _ _ _ _ hi hr hm hb h => exec_of_illegal hi hr hb (linAddr_noncanonical hm h)⟩

/-! ### The segment check in Mode32 (20_memory.md R56) -/

theorem linAddr_segment {s : State} (hm : s.mode ≠ .mode64) {g : Seg} {ea : Word} {n : Nat} (h : s.segOk g ea n = false) :
    s.linAddr g ea n = .fault (segFault g) := by
  rw [State.linAddr, if_neg hm, h]
  rfl

theorem segOk_of_rule {s : State} {g : Seg} {ea : Word} {n : Nat} {r : SegRule} (h : (s.seg g).ruleFor ea n = some r) :
    s.segOk g ea n = r.legal := by
  simp [State.segOk, h]

theorem segOk_of_no_rule {s : State} {g : Seg} {ea : Word} {n : Nat} (h : (s.seg g).ruleFor ea n = none) :
    s.segOk g ea n = (!nullSelector g (s.seg g).selector && (s.seg g).inLimit ea n) := by
  simp [State.segOk, h]

theorem nullSelector_eq_true {g : Seg} {selector : BitVec 16} (hss : g ≠ .ss) (hcs : g ≠ .cs) (h : selector.toNat < 4) :
    nullSelector g selector = true := by
  cases g <;> simp_all [nullSelector]

theorem inLimit_of_unreadable {g : Segment} (h : g.readable = false) (ea : Word) (n : Nat) : g.inLimit ea n = false := by
  simp [Segment.inLimit, h]

theorem inLimit_of_expandUp {g : Segment} (h : g.expandDown = false) {ea : Word} {n : Nat}
    (hlim : g.limit.toNat < ea.toNat + n - 1) : g.inLimit ea n = false := by
  have hout : ¬ ea.toNat + n ≤ g.limit.toNat + 1 := by omega
  simp [Segment.inLimit, h, hout]

theorem inLimit_of_expandDown {g : Segment} (h : g.expandDown = true) {ea : Word} {n : Nat}
    (hlim : ea.toNat ≤ g.limit.toNat ∨ 2 ^ 32 < ea.toNat + n) : g.inLimit ea n = false := by
  have hout : ¬ (g.limit.toNat < ea.toNat ∧ ea.toNat + n ≤ 2 ^ 32) := by omega
  rw [Segment.inLimit, if_pos h, ← Bool.decide_and, decide_eq_false hout, Bool.and_false]

/-- Settles O54: each of the ways is one way for `segOk` to be false. -/
theorem segmentCheckFaults : Obligations.SegmentCheckFaults := by
  rintro i c m s _ _ hi hr hm rfl rfl hb h
  refine exec_of_illegal hi hr hb (linAddr_segment (by simp [hm]) ?_)
  rcases h with ⟨r, hrule, hillegal⟩ | ⟨hrule, h⟩
  · rw [segOk_of_rule hrule, hillegal]
  · rw [segOk_of_no_rule hrule]
    rcases h with hread | ⟨hup, hlim⟩ | ⟨hdown, hlim⟩ | ⟨hss, hcs, hsel⟩
    · rw [inLimit_of_unreadable hread, Bool.and_false]
    · rw [inLimit_of_expandUp hup hlim, Bool.and_false]
    · rw [inLimit_of_expandDown hdown hlim, Bool.and_false]
    · rw [nullSelector_eq_true hss hcs hsel]
      rfl

/-! ### Alignment (20_memory.md R59) -/

theorem operandAddr_misaligned {s : State} {c : Access} {p : Prefixes} {len : Nat} {m : MemForm} (hc : c.align = true)
    (hl : AddressLegal s c p len m) (hb : (s.segBase (s.segFor p m)).toNat % 16 = 0) (ha : (s.linear c p len m).toNat % 16 ≠ 0) :
    s.operandAddr c p len m = .fault .generalProtection := by
  rw [State.operandAddr, linAddr_next s c p len m hl, andThen_next]
  simp [hc, hb, ha, raise]

/-- Settles O55: only the legacy form's access asks for alignment, of the base first and of the address after its legality. -/
theorem alignmentRule : Obligations.AlignmentRule := by
  intro i c m s hi hr
  obtain ⟨-, -, halign⟩ := memoryOf_access hi
  refine ⟨fun hf hb => ?_, fun hl hf hb ha => ?_, fun hl hf hread => ?_, fun f _ => fault_vector_ne (by decide) f⟩
  · exact exec_of_operandAddr_refused hi hr (operandAddr_base s c _ _ m (halign.mpr hf) hb)
  · exact exec_of_operandAddr_fault hi hr (operandAddr_misaligned (halign.mpr hf) hl hb ha)
  · obtain ⟨k, hk⟩ := exec_of_legal hi hr hl fun hc => absurd (halign.mp hc) hf
    rw [hk, (memRead_next_iff s _ _ _).mpr ⟨hread, rfl⟩]
    exact ⟨_, rfl⟩

/-! ### Faults and side effects of the read (20_memory.md R57, R61, R63, R68) -/

section
variable {i : Instr} {c : Access} {m : MemForm} {s : State} (hi : memoryOf i = some (c, m)) (hr : Ready i s)
  (hl : AddressLegal s c i.prefixes i.length m) (ha : AddressAligned s c i.prefixes i.length m)
include hi hr hl ha

theorem exec_of_memFault {f : Fault} (h : s.memFault (s.linear c i.prefixes i.length m) c.bytes = some f) :
    exec i s = .fault f := by
  obtain ⟨k, hk⟩ := exec_of_legal hi hr hl ha
  rw [hk, memRead_of_fault h]
  rfl

/-- A faulting byte makes the instruction report the fault of some faulting byte. -/
theorem exec_of_byteFault (h : ∃ b < c.bytes, s.byteFault (s.linear c i.prefixes i.length m) c.bytes b ≠ none) :
    ∃ b < c.bytes, ∃ f, s.byteFault (s.linear c i.prefixes i.length m) c.bytes b = some f ∧ exec i s = .fault f := by
  have hfault : s.memFault (s.linear c i.prefixes i.length m) c.bytes ≠ none := by
    rw [Ne, memFault_eq_none]
    obtain ⟨b, hb, hne⟩ := h
    exact fun hall => hne (hall b hb)
  obtain ⟨f, hf⟩ := Option.ne_none_iff_exists'.mp hfault
  obtain ⟨b, hb, hbf⟩ := memFault_some hf
  exact ⟨b, hb, f, hbf, exec_of_memFault hi hr hl ha hf⟩

end

theorem byteFault_of_paging {s : State} {a : Word} {n b : Nat} {p rsvd pk : Bool} (h : s.answerAt a n b = .paging p rsvd pk) :
    s.byteFault a n b = some (.pageFault (pageFaultCode s.cpl p rsvd pk) (s.byteAddr a b)) := by
  rw [State.byteFault, h]
  rfl

/-- One case over the whole operand makes one piece, that of byte 0. -/
theorem faults_of_one_region {s : State} {a : Word} {n : Nat} {r : Region} (h : ∀ b < n, s.regionAt a n b = some r) (hn : 0 < n) :
    s.faults a n = (s.byteFault a n 0).toList := by
  obtain ⟨n, rfl⟩ : ∃ n', n = n' + 1 := ⟨n - 1, by omega⟩
  have hlater : ∀ b < n, s.regionAt a (n + 1) b = s.regionAt a (n + 1) (b + 1) := fun b hb => by
    rw [h b (by omega), h (b + 1) (by omega)]
  rw [State.faults, List.range_succ_eq_map, List.filterMap_cons, List.filterMap_map, List.filterMap_eq_nil_iff.mpr]
  · cases s.byteFault a (n + 1) 0 <;> simp
  · intro b hb
    simp [hlater b (List.mem_range.mp hb)]

theorem memFault_of_one_region {s : State} {a : Word} {n : Nat} {r : Region} (h : ∀ b < n, s.regionAt a n b = some r) (hn : 0 < n)
    {f : Fault} (hf : s.byteFault a n 0 = some f) : s.memFault a n = some f := by
  rw [State.memFault, faults_of_one_region h hn, hf]
  rfl

/-- Settles O56: the reported fault is that of a faulting byte, and of byte 0 where one answer covers the operand. -/
theorem pageFaultReported : Obligations.PageFaultReported := by
  rintro i c m s _ hi hr hl ha rfl
  refine ⟨fun h => ?_, fun r p rsvd pk hans hreg => ?_⟩
  · obtain ⟨b, hb, f, hf, hexec⟩ := exec_of_byteFault hi hr hl ha h
    refine ⟨b, hb, f, hf, hexec, fun p rsvd pk hans => ?_⟩
    rw [byteFault_of_paging hans] at hf
    exact (Option.some.inj hf).symm
  · have hpos : 0 < c.bytes := Nat.lt_of_lt_of_le (by decide) (memoryOf_access hi).1
    have hans0 : s.answerAt (s.linear c i.prefixes i.length m) c.bytes 0 = .paging p rsvd pk := by
      rw [State.answerAt, hreg 0 hpos, ← hans]
    have hfault := memFault_of_one_region hreg hpos (byteFault_of_paging hans0)
    rw [byteAddr_linear_zero] at hfault
    exact exec_of_memFault hi hr hl ha hfault

/-- Settles O58: the read refuses a byte with side effects once no byte faults. -/
theorem sideEffectMemoryRefused : Obligations.SideEffectMemoryRefused := by
  intro i c m s hi hr hl ha hnone hio
  obtain ⟨k, hk⟩ := exec_of_legal hi hr hl ha
  have htouches : s.touchesIo (s.linear c i.prefixes i.length m) c.bytes = true := by
    rw [← Bool.not_eq_false, touchesIo_eq_false]
    obtain ⟨b, hb, h⟩ := hio
    exact fun hall => hall b hb h
  rw [hk, memRead_of_io ((memFault_eq_none s _ _).mpr hnone) htouches]
  rfl

/-! ### Fault numbers (60_exceptions.md R202, 20_memory.md R68) -/

theorem pageFaultCode_above (cpl : BitVec 2) (p rsvd pk : Bool) {k : Nat} (hk : 6 ≤ k) :
    (pageFaultCode cpl p rsvd pk).getLsbD k = false := by
  have hzero : (pageFaultCode cpl p rsvd pk).extractLsb' 6 26 = 0#26 := by
    generalize hu : (cpl == 3#2) = u
    simp only [pageFaultCode, hu]
    clear hu cpl
    decide +revert
  by_cases h32 : k < 32
  · have hbit : ((pageFaultCode cpl p rsvd pk).extractLsb' 6 26).getLsbD (k - 6) = (pageFaultCode cpl p rsvd pk).getLsbD k := by
      rw [BitVec.getLsbD_extractLsb', decide_eq_true (by omega), Bool.true_and, Nat.add_sub_cancel' hk]
    rw [← hbit, hzero, BitVec.getLsbD_zero]
  · exact BitVec.getLsbD_of_ge _ _ (by omega)

theorem pageFaultCode_low (cpl : BitVec 2) (p rsvd pk : Bool) :
    let code := pageFaultCode cpl p rsvd pk
    code.getLsbD 0 = p ∧ code.getLsbD 1 = false ∧ (code.getLsbD 2 = true ↔ cpl = 3#2) ∧ code.getLsbD 3 = rsvd ∧
      code.getLsbD 4 = false ∧ code.getLsbD 5 = pk := by
  decide +revert

/-- Settles O57, bit by bit. -/
theorem pageFaultErrorCode : Obligations.PageFaultErrorCode := by
  rintro cpl p rsvd pk _ rfl
  obtain ⟨h0, h1, h2, h3, h4, h5⟩ := pageFaultCode_low cpl p rsvd pk
  exact ⟨h0, h1, h2, h3, h4, h5, fun k hk => pageFaultCode_above cpl p rsvd pk hk⟩

/-- Settles O59: the table is that of `Fault`, and its vectors are all there are. -/
theorem faultNumbers : Obligations.FaultNumbers :=
  ⟨⟨rfl, rfl, rfl⟩, ⟨rfl, rfl, rfl⟩, ⟨rfl, rfl, rfl⟩, ⟨rfl, rfl, rfl⟩, fun _ _ => ⟨rfl, rfl, rfl⟩,
    fun _ _ f _ => fault_vector_mem f⟩

end Sys2Proof.Machine
end
